-- ==== Sys2Proof/Word.lean ====
section
/-! DEFINITION. The word, the byte and the bit sequence of HUFC (spec/00_scope.md R10, R11). -/

namespace Sys2Proof

/-- A 32-bit register, table word or bus word (R10: bit 0 is the least significant bit). -/
abbrev Word := BitVec 32

/-- A byte of a buffer, and a Symbol: "an integer in [0, 255]" (R8). -/
abbrev Byte := BitVec 8

/-- A bit sequence, the first bit of the stream first (R11). -/
abbrev Bits := List Bool

end Sys2Proof
end

