-- ==== Sys2Proof/Syntax.lean ====
section
/-! DEFINITION. The nine commands (spec/30_encoding.md R90). Operands are implicit (R92), so no
constructor has an argument. -/

namespace Sys2Proof

/-- One constructor per row of spec/opcode_table.json. -/
inductive Instr where
  /-- NOP, opcode 0x00 (R121) -/
  | nop
  /-- CLEAR, opcode 0x01 (R122) -/
  | clear
  /-- FREQ_COUNT, opcode 0x02 (R141) -/
  | freqCount
  /-- TREE_BUILD, opcode 0x03 (R150) -/
  | treeBuild
  /-- CODE_GEN, opcode 0x04 (R170) -/
  | codeGen
  /-- PACK, opcode 0x05 (R185) -/
  | pack
  /-- UNPACK, opcode 0x06 (R200) -/
  | unpack
  /-- ENCODE, opcode 0x07 (R221) -/
  | encode
  /-- DECODE, opcode 0x08 (R226) -/
  | decode
deriving DecidableEq, Repr

end Sys2Proof
end

