-- ==== Sys2Proof/Config.lean ====
section
/-! DEFINITION. What an implementation of HUFC fixes (spec/00_scope.md R7, spec/20_memory.md R60,
spec/60_exceptions.md R252), its constants, and the free value behind every draw (R12, R39). -/

namespace Sys2Proof.Config

/-- ID reads 0x48554631, ASCII "HUF1" (R1, R22). -/
def idValue : Word := 0x48554631#32

/-- What a buffer byte that nothing has written reads as.
DESIGN CHOICE (log 1, unsafe): R50 and R51 make it a draw. -/
def unwrittenByte : Byte := 0x00#8

/-- The legal values of `P_BUF_BYTES` (R7) and of `P_BASE` (R60). -/
def legal (bufBytes base : Nat) : Bool :=
  bufBytes % 4 == 0 && decide (1028 ≤ bufBytes) && decide (bufBytes ≤ 0x01000000)
    && base % 0x04000000 == 0

/-- The implementation parameter `P_BUF_BYTES` and the platform parameters `P_BASE` and
`P_IRQ_LINE`; an illegal combination cannot be built. -/
structure Params where
  /-- `P_BUF_BYTES`, the size in bytes of IBUF and of OBUF (R7). -/
  bufBytes : Nat
  /-- `P_BASE`, where the window sits in the Host's address space (R60). -/
  base : Nat
  /-- `P_IRQ_LINE`, the interrupt-controller input the irq line drives (R252). -/
  irqLine : Nat
  ok : legal bufBytes base = true
deriving DecidableEq, Repr

/-- The reference configuration `P_BUF_BYTES = 65536` (R7).
DESIGN CHOICE (log 2): the OPEN `P_BASE` and `P_IRQ_LINE` are 0 in it. -/
def reference : Params := { bufBytes := 65536, base := 0, irqLine := 0, ok := by decide }

/-- The n-th draw a read while BUSY returns (R39): a FREE VALUE, nothing constrains it (log 3). -/
opaque freeWord : Nat → Word

end Sys2Proof.Config
end

