-- ==== Sys2Proof/WellFormed.lean ====
section
/-! DEFINITION. Well-formedness. A command has no operand field (spec/30_encoding.md R91, R92), so
every `Instr` is well formed; what can be ill formed is a command word (R91, R94) and a
configuration (spec/00_scope.md R7, spec/20_memory.md R60). -/

namespace Sys2Proof

/-- A command carries no register, immediate or mode field (R91): there is nothing to check. -/
def Instr.wf (_ : Instr) : Bool := true

/-- A command word is legal when RSVD, bits [31:8], is 0 and OPCODE, bits [7:0], is one of
0x00 .. 0x08 (R90, R91, R94). -/
def commandWordWf (v : Word) : Bool := decide (v.toNat / 256 = 0) && decide (v.toNat % 256 ≤ 8)

/-- The parameters of a configuration are legal (R7, R60). -/
def paramsWf (bufBytes base : Nat) : Bool := Config.legal bufBytes base

end Sys2Proof
end

