-- ==== Sys2Proof/Decode.lean ====
section
/-! DEFINITION. Decoding a command word (spec/30_encoding.md R90, R91, R93), total, with a named
rejection for every illegal word, and the encoder written from the same table. -/

namespace Sys2Proof

/-- Why a command word is illegal (R93, R94): the two BAD_CMD causes. -/
inductive DecodeError where
  /-- RSVD, bits [31:8], is not 0: BAD_CMD reason 2. -/
  | reservedBits (rsvd : BitVec 24)
  /-- OPCODE is in 0x09 .. 0xFF: BAD_CMD reason 1. -/
  | reservedOpcode (opcode : Byte)
deriving DecidableEq, Repr

/-- OPCODE, bits [7:0] (R91). -/
def opcodeField (v : Word) : Byte := v.extractLsb' 0 8

/-- RSVD, bits [31:8] (R91). -/
def rsvdField (v : Word) : BitVec 24 := v.extractLsb' 8 24

/-- The opcode map (R90); every other opcode is reserved (R94). -/
def instrOfOpcode (op : Byte) : Option Instr :=
  match op.toNat with
  | 0x00 => some .nop
  | 0x01 => some .clear
  | 0x02 => some .freqCount
  | 0x03 => some .treeBuild
  | 0x04 => some .codeGen
  | 0x05 => some .pack
  | 0x06 => some .unpack
  | 0x07 => some .encode
  | 0x08 => some .decode
  | _ => none

/-- Decode of command word v (R93): reserved bits are tested before the opcode. -/
def decode (v : Word) : Except DecodeError Instr :=
  if rsvdField v ≠ 0#24 then .error (.reservedBits (rsvdField v))
  else
    match instrOfOpcode (opcodeField v) with
    | some i => .ok i
    | none => .error (.reservedOpcode (opcodeField v))

/-- The opcode of a command (R90). -/
def opcode : Instr → Byte
  | .nop => 0x00#8
  | .clear => 0x01#8
  | .freqCount => 0x02#8
  | .treeBuild => 0x03#8
  | .codeGen => 0x04#8
  | .pack => 0x05#8
  | .unpack => 0x06#8
  | .encode => 0x07#8
  | .decode => 0x08#8

/-- The one 32-bit word of a command: OPCODE in [7:0], RSVD = 0 in [31:8] (R91, R95). -/
def encode (i : Instr) : Word := 0#24 ++ opcode i

/-- A command is exactly one 32-bit word (R95), so the host's table word w of nbits bits is the
command word itself, with 0 in the bits above nbits. -/
def tableWord (nbits w : Nat) : Word := BitVec.ofNat 32 (w % 2 ^ nbits)

/-- The command the decoder reads from a table word. -/
def decodeTableWord (nbits w : Nat) : Option Instr :=
  match decode (tableWord nbits w) with
  | .ok i => some i
  | .error _ => none

end Sys2Proof
end

