-- ==== Sys2Proof/Machine/Table.lean ====
section
/-! DEFINITION. A table of a fixed number of like entries (spec/10_state.md §5: FREQ, CODE_LEN,
CODE_BITS, NODE), kept as a list so that two tables compare as lists. -/

namespace Sys2Proof.Machine

/-- A table of n entries. -/
structure Table (α : Type) (n : Nat) where
  entries : List α
  len : entries.length = n
deriving DecidableEq, Repr

/-- Entry i. -/
def Table.at {α : Type} {n : Nat} (t : Table α n) (i : Nat) (h : i < n) : α :=
  t.entries[i]'(by rw [t.len]; exact h)

/-- The entry of a symbol s = 0 .. 255 (R8). -/
def Table.bySymbol {α : Type} (t : Table α 256) (s : Byte) : α := t.at s.toNat s.isLt

/-- Every entry the same. -/
def Table.fill {α : Type} (n : Nat) (a : α) : Table α n := ⟨List.replicate n a, by simp⟩

/-- Entry i is f i. -/
def Table.ofFn {α : Type} (n : Nat) (f : Nat → α) : Table α n := ⟨(List.range' 0 n).map f, by simp⟩

/-- Entry of symbol s is f s. -/
def Table.ofSymbols {α : Type} (f : Byte → α) : Table α 256 :=
  Table.ofFn 256 fun i => f (BitVec.ofNat 8 i)

/-- Entry i replaced. -/
def Table.set {α : Type} {n : Nat} (t : Table α n) (i : Nat) (a : α) : Table α n :=
  ⟨t.entries.set i a, by simp [t.len]⟩

end Sys2Proof.Machine
end

