-- ==== Sys2Proof/Machine/State.lean ====
section
/-! DEFINITION. Everything the spec gives HUFC (spec/10_state.md), as plain data, with the Host agent's
program and the interleaving of the two agents (spec/00_scope.md R15) as inputs held in the state. -/

namespace Sys2Proof.Machine

/-- The engine phase and, while BUSY, the pending command word PEND (R30). -/
inductive Phase where
  | idle
  | busy (pend : Word)
deriving DecidableEq, Repr

/-- The error codes of STATUS.ERR_CODE (R245); codes 8 to 15 are never produced. -/
inductive ErrCode where
  | noError
  | integrity
  | corrupt
  | schema
  | capacity
  | range
  | badCmd
  | sequence
deriving DecidableEq, Repr

/-- ERR_INFO: REASON in [31:28], VALUE in [27:0] (R29). -/
structure ErrInfo where
  reason : BitVec 4
  value : BitVec 28
deriving DecidableEq, Repr

/-- What a command raises: `raise <ERROR>(REASON, VALUE)` (R12), VALUE before saturation. -/
structure CmdError where
  code : ErrCode
  reason : BitVec 4
  value : Nat
deriving DecidableEq, Repr

/-- ROOT: VALID in [31], INDEX in [8:0] (R33). -/
structure Root where
  valid : Bool
  index : BitVec 9
deriving DecidableEq, Repr

/-- One arena entry: WEIGHT is word 0 (R44), the other fields are word 1 (R45). -/
structure Node where
  weight : Word
  valid : Bool
  internal : Bool
  right : BitVec 9
  left : BitVec 9
  symbol : Byte
deriving DecidableEq, Repr

/-- "A node that does not exist has both words 0" (R45). -/
def Node.absent : Node :=
  { weight := 0#32, valid := false, internal := false, right := 0#9, left := 0#9, symbol := 0#8 }

/-- A buffer: (offset, byte) pairs, offsets strictly rising, no entry equal to
`Config.unwrittenByte`, which an unlisted offset reads as. -/
abbrev Memory := List Host.Cell

/-- The width of a bus access (R65): only 32-bit accesses are legal. -/
inductive AccessSize where
  | bits8
  | bits16
  | bits32
  | bits64
  | burst
deriving DecidableEq, Repr

/-- The direction of an access and the data of a write (R110). -/
inductive Dir where
  | read
  | write (v : Word)
deriving DecidableEq, Repr

/-- One Host access at a window offset (R110). -/
structure Access where
  size : AccessSize
  offset : Nat
  dir : Dir
deriving DecidableEq, Repr

/-- A statement of a host program (R96, R97): one access, or the loop `wait`. -/
inductive Stmt where
  | access (a : Access)
  | waitIdle
deriving DecidableEq, Repr

/-- What the bus answers to an access: the value of a read, the acceptance of a write, or the error
response of R66. A bus error is an answer to the Host, not a fault of the machine (R254). -/
inductive Reply where
  | value (v : Word)
  | written
  | busError
deriving DecidableEq, Repr

/-- The contents the storage comes up with at a hardware reset: a draw per entry, word or byte
(R270), brought by the reset input. A buffer byte past the end of a list is
`Config.unwrittenByte`. -/
structure Draws where
  freq : Table Word 256
  codeLen : Table (BitVec 8) 256
  codeBits : Table (BitVec 256) 256
  node : Table Node 511
  ibuf : List Byte
  obuf : List Byte
deriving DecidableEq, Repr

/-- Which agent moves (R15, R20), or the hardware reset input (R270). -/
inductive Turn where
  | host
  | core
  | reset (d : Draws)
deriving DecidableEq, Repr

/-- The state of HUFC and of the two agents' inputs. -/
structure State where
  /-- the parameters: BUF_CAP reads `params.bufBytes` (R7, R23) -/
  params : Config.Params
  /-- engine phase and PEND (R30) -/
  phase : Phase
  /-- CTRL.IE (R24) -/
  ie : Bool
  /-- STATUS.DONE (R25) -/
  done : Bool
  /-- STATUS.TREE_VALID (R25, R37) -/
  treeValid : Bool
  /-- STATUS.CODE_VALID (R25, R37) -/
  codeValid : Bool
  /-- STATUS.CMD_OVR (R25, R117) -/
  cmdOvr : Bool
  /-- STATUS.ACC_ERR (R25, R118) -/
  accErr : Bool
  /-- STATUS.ERR_CODE (R25, R245) -/
  errCode : ErrCode
  /-- CMD (R26) -/
  cmd : Word
  /-- IN_LEN (R27) -/
  inLen : Word
  /-- OUT_LEN (R28) -/
  outLen : Word
  /-- ERR_INFO (R29) -/
  errInfo : ErrInfo
  /-- SYM_COUNT[8:0] (R32) -/
  symCount : BitVec 9
  /-- ROOT (R33) -/
  root : Root
  /-- TOTAL_BITS (R34) -/
  totalBits : Word
  /-- PAD_COUNT[2:0] (R35) -/
  padCount : BitVec 3
  /-- TOTAL_WEIGHT (R36) -/
  totalWeight : Word
  /-- FREQ[0..255] (R40) -/
  freq : Table Word 256
  /-- CODE_LEN[0..255], bits [7:0] (R41) -/
  codeLen : Table (BitVec 8) 256
  /-- CODE_BITS[0..255], the 256-bit number the eight words hold (R42) -/
  codeBits : Table (BitVec 256) 256
  /-- NODE[0..510] (R44, R45) -/
  node : Table Node 511
  /-- IBUF (R50), by buffer offset -/
  ibuf : Memory
  /-- OBUF (R51), by buffer offset -/
  obuf : Memory
  /-- the model's own: the rest of the host program (R96, R282), first statement first -/
  program : List Stmt
  /-- the model's own: the interleaving of the agents and the reset input (R15, R71, R281) -/
  schedule : List Turn
  /-- the model's own: the bus answers given so far, newest first (R282) -/
  replies : List Reply
  /-- the model's own: how many draws reads while BUSY have taken (R39) -/
  draws : Nat
deriving DecidableEq, Repr

/-- No step of HUFC stops the machine: a bad access is answered with a bus error (R66), a bad
command completes with an error code (R247), both next states. So there is no fault: raised by
nobody, which is safe. -/
inductive Fault where
deriving DecidableEq, Repr

/-- Why a step is refused. -/
inductive Refusal where
  /-- Raised by `exec`'s arm for a command that has no meaning in the model yet, under its mnemonic
  in spec/opcode_table.json. Safe: the run stops. No arm raises it now. -/
  | notModelled (mnemonic : String)
deriving DecidableEq, Repr

/-- What a step or a command answers. -/
abbrev Result := Host.Outcome State Fault Refusal

/-- The machine right after reset (R270), in the reference configuration (log 2).
DESIGN CHOICE (log 1, unsafe): FREQ, CODE_LEN, CODE_BITS, NODE, IBUF and OBUF, which R270 makes
draws, hold zeros. DESIGN CHOICE (log 4): no program and no schedule is given. -/
def State.reset : State :=
  { params := Config.reference
    phase := .idle
    ie := false
    done := false
    treeValid := false
    codeValid := false
    cmdOvr := false
    accErr := false
    errCode := .noError
    cmd := 0#32
    inLen := 0#32
    outLen := 0#32
    errInfo := { reason := 0#4, value := 0#28 }
    symCount := 0#9
    root := { valid := false, index := 0#9 }
    totalBits := 0#32
    padCount := 0#3
    totalWeight := 0#32
    freq := Table.fill 256 0#32
    codeLen := Table.fill 256 0#8
    codeBits := Table.fill 256 0#256
    node := Table.fill 511 Node.absent
    ibuf := []
    obuf := []
    program := []
    schedule := []
    replies := []
    draws := 0 }

end Sys2Proof.Machine
end

