-- ==== Sys2Proof/Machine/Flags.lean ====
section
/-! DEFINITION. STATUS and CTRL: every flag, its value and its writers (spec/10_state.md R24, R25,
R37, R38; spec/60_exceptions.md R245, R252). -/

namespace Sys2Proof.Machine

/-- The number of an error code in STATUS.ERR_CODE (R245). -/
def ErrCode.number : ErrCode → BitVec 4
  | .noError => 0#4
  | .integrity => 1#4
  | .corrupt => 2#4
  | .schema => 3#4
  | .capacity => 4#4
  | .range => 5#4
  | .badCmd => 6#4
  | .sequence => 7#4

/-- STATUS.BUSY: 0 = IDLE (R30). -/
def State.busy (s : State) : Bool :=
  match s.phase with
  | .idle => false
  | .busy _ => true

/-- STATUS.ERR: "always equal to (ERR_CODE != 0)" (R25). -/
def State.err (s : State) : Bool := s.errCode.number != 0#4

/-- The interrupt line irq = CTRL.IE and STATUS.DONE, mirrored in STATUS.IRQ (R38, R252). -/
def State.irq (s : State) : Bool := s.ie && s.done

/-- What HUFC drives on input n of the platform's interrupt controller: irq on input `P_IRQ_LINE`
(R252). -/
def State.irqInput (s : State) (n : Nat) : Bool := n == s.params.irqLine && s.irq

/-- STATUS as read (R25): RES0 [31:12], ERR_CODE [11:8], IRQ, ACC_ERR, CMD_OVR, CODE_VALID,
TREE_VALID, ERR, DONE, BUSY. -/
def State.statusWord (s : State) : Word :=
  0#20 ++ s.errCode.number ++ BitVec.ofBool s.irq ++ BitVec.ofBool s.accErr
    ++ BitVec.ofBool s.cmdOvr ++ BitVec.ofBool s.codeValid ++ BitVec.ofBool s.treeValid
    ++ BitVec.ofBool s.err ++ BitVec.ofBool s.done ++ BitVec.ofBool s.busy

/-- CTRL as read: IE in bit 0, RES0 above (R24). -/
def State.ctrlWord (s : State) : Word := 0#31 ++ BitVec.ofBool s.ie

/-- A write of w to STATUS: DONE, CMD_OVR and ACC_ERR are cleared by writing 1 (R25). -/
def State.writeStatus (s : State) (w : Word) : State :=
  { s with
    done := s.done && !w.getLsbD 1
    cmdOvr := s.cmdOvr && !w.getLsbD 5
    accErr := s.accErr && !w.getLsbD 6 }

/-- A write of w to CTRL: IE <- w[0], bits [31:1] ignored (R114). -/
def State.writeCtrl (s : State) (w : Word) : State := { s with ie := w.getLsbD 0 }

/-- A change of FREQ makes the tree and the codes stale (R37, R277). -/
def State.markStale (s : State) : State := { s with treeValid := false, codeValid := false }

/-- A CMD write dropped because BUSY = 1 (R117). -/
def State.markCmdOvr (s : State) : State := { s with cmdOvr := true }

/-- Any other Host write dropped because BUSY = 1 (R118). -/
def State.markAccErr (s : State) : State := { s with accErr := true }

end Sys2Proof.Machine
end

