-- ==== Sys2Proof/Machine/Ops.lean ====
section
/-! DEFINITION. The named operations over bits, bytes, buffers and registers; the command
life cycle (spec/10_state.md R31), with the error completion and its acknowledgement
(spec/60_exceptions.md R247, R249); hardware reset (spec/70_reset_and_hazards.md R270). -/

namespace Sys2Proof.Machine

/-! ### Bits and bytes -/

/-- `val(c)`: the first bit is the most significant (R11). -/
def bitsVal (c : Bits) : Nat := c.foldl (fun v b => 2 * v + b.toNat) 0

/-- The eight bits of a byte in stream order: bit k of the stream is bit 7 − k (R63). -/
def byteBits (b : Byte) : Bits := (List.range' 0 8).map fun k => b.getLsbD (7 - k)

/-- `LE32(b0, b1, b2, b3)` (R12). -/
def le32 (b0 b1 b2 b3 : Byte) : Word := b3 ++ b2 ++ b1 ++ b0

/-- Byte i of `LE32^-1(v)`, that is v[8i+7 : 8i] (R12, R62). -/
def wordByte (v : Word) (i : Nat) : Byte := v.extractLsb' (8 * i) 8

/-- `LE32^-1(v)`, least significant byte first (R12). -/
def le32Bytes (v : Word) : List Byte := [wordByte v 0, wordByte v 1, wordByte v 2, wordByte v 3]

/-! ### Buffers (R50, R51) -/

/-- The byte at offset k. -/
def Memory.read : Memory → Nat → Byte
  | [], _ => Config.unwrittenByte
  | (a, b) :: m, k => if a = k then b else Memory.read m k

/-- The byte at offset k becomes b; the canonical form is kept. -/
def Memory.write : Memory → Nat → Byte → Memory
  | [], k, b => if b = Config.unwrittenByte then [] else [(k, b)]
  | (a, c) :: m, k, b =>
    if k < a then
      if b = Config.unwrittenByte then (a, c) :: m else (k, b) :: (a, c) :: m
    else if k = a then
      if b = Config.unwrittenByte then m else (k, b) :: m
    else (a, c) :: Memory.write m k b

/-- `MemRead(buffer, k, n)` (R12). -/
def Memory.readBytes (m : Memory) (k n : Nat) : List Byte :=
  (List.range' k n).map (Memory.read m)

/-- `MemWrite(buffer, k, bytes)` (R12). -/
def Memory.writeBytes : Memory → Nat → List Byte → Memory
  | m, _, [] => m
  | m, k, b :: bs => Memory.writeBytes (Memory.write m k b) (k + 1) bs

/-- The little-endian word at offset k (R62). -/
def Memory.readWord (m : Memory) (k : Nat) : Word :=
  le32 (Memory.read m k) (Memory.read m (k + 1)) (Memory.read m (k + 2)) (Memory.read m (k + 3))

/-- The four bytes at offset k take the little-endian word v (R62). -/
def Memory.writeWord (m : Memory) (k : Nat) (v : Word) : Memory :=
  Memory.writeBytes m k (le32Bytes v)

/-- Offsets strictly rise from `lo` on, and no entry is what an unlisted offset reads as. -/
def Memory.wfFrom : Nat → Memory → Bool
  | _, [] => true
  | lo, (a, b) :: m => decide (lo ≤ a) && b != Config.unwrittenByte && Memory.wfFrom (a + 1) m

/-- The canonical form. -/
def Memory.wf (m : Memory) : Bool := Memory.wfFrom 0 m

/-- Every listed offset is inside a buffer of n bytes. -/
def Memory.below (n : Nat) (m : Memory) : Bool := m.all fun c => decide (c.1 < n)

/-! ### The words of the registers and tables -/

/-- ERR_INFO as read (R29). -/
def ErrInfo.word (e : ErrInfo) : Word := e.reason ++ e.value

/-- ROOT as read (R33). -/
def Root.word (r : Root) : Word := BitVec.ofBool r.valid ++ 0#22 ++ r.index

/-- NODE[i] word 1 (R45): VALID, INTERNAL, 0 in [29:27], RIGHT, LEFT, 0 in [8], SYMBOL. -/
def Node.word1 (n : Node) : Word :=
  BitVec.ofBool n.valid ++ BitVec.ofBool n.internal ++ 0#3 ++ n.right ++ n.left ++ 0#1 ++ n.symbol

/-- Word w of a CODE_BITS entry: bits [32w+31 : 32w] of the 256-bit number (R42). -/
def codeBitsWord (bits : BitVec 256) (w : Nat) : Word := bits.extractLsb' (32 * w) 32

/-! ### The errors a command raises (R245, R246) -/

/-- INTEGRITY 1, MISSING_CODE: the IBUF offset of the byte. -/
def missingCode (offset : Nat) : CmdError := ⟨.integrity, 1#4, offset⟩

/-- CORRUPT 1, PAD_RANGE: the header byte. -/
def padRange (pad : Byte) : CmdError := ⟨.corrupt, 1#4, pad.toNat⟩

/-- CORRUPT 2, PAD_EXCEEDS: the header byte. -/
def padExceeds (pad : Byte) : CmdError := ⟨.corrupt, 2#4, pad.toNat⟩

/-- CORRUPT 3, LEFTOVER: the length of the unmatched candidate. -/
def leftover (d : Nat) : CmdError := ⟨.corrupt, 3#4, d⟩

/-- CORRUPT 4, DEAD_END: the bit index. -/
def deadEnd (k : Nat) : CmdError := ⟨.corrupt, 4#4, k⟩

/-- CORRUPT 5, SHORT: the number of symbols emitted. -/
def short (emitted : Nat) : CmdError := ⟨.corrupt, 5#4, emitted⟩

/-- CORRUPT 6, TRAILING: the index of the first bit after the last symbol. -/
def trailing (k : Nat) : CmdError := ⟨.corrupt, 6#4, k⟩

/-- SCHEMA 1, NO_HEADER. -/
def noHeader : CmdError := ⟨.schema, 1#4, 0⟩

/-- SCHEMA 2, SHORT_CONTAINER: IN_LEN. -/
def shortContainer (inLen : Nat) : CmdError := ⟨.schema, 2#4, inLen⟩

/-- CAPACITY 1, OUTPUT_FULL: the bytes the output needs. -/
def outputFull (need : Nat) : CmdError := ⟨.capacity, 1#4, need⟩

/-- CAPACITY 2, WEIGHT_OVERFLOW. -/
def weightOverflow : CmdError := ⟨.capacity, 2#4, 0⟩

/-- CAPACITY 3, COUNT_TOO_LARGE: the frequency sum. -/
def countTooLarge (n : Nat) : CmdError := ⟨.capacity, 3#4, n⟩

/-- RANGE 1, IN_LEN_TOO_LARGE: IN_LEN. -/
def inLenTooLarge (inLen : Nat) : CmdError := ⟨.range, 1#4, inLen⟩

/-- BAD_CMD 1, RESERVED_OPCODE, and 2, RESERVED_BITS (R93). -/
def badCommand : DecodeError → CmdError
  | .reservedOpcode op => ⟨.badCmd, 1#4, op.toNat⟩
  | .reservedBits r => ⟨.badCmd, 2#4, r.toNat⟩

/-- SEQUENCE 1, NO_TREE. -/
def noTree : CmdError := ⟨.sequence, 1#4, 0⟩

/-- SEQUENCE 2, NO_CODES. -/
def noCodes : CmdError := ⟨.sequence, 2#4, 0⟩

/-! ### The command life cycle -/

/-- Acceptance of command word v (R31, the Host step). -/
def State.accept (s : State) (v : Word) : State :=
  { s with cmd := v, phase := .busy v, done := false, errCode := .noError }

/-- The successful completion step with `OUT_LEN <- outLen` (R31, R13). -/
def State.succeed (s : State) (outLen : Nat) : State :=
  { s with
    outLen := BitVec.ofNat 32 outLen
    errCode := .noError
    errInfo := { reason := 0#4, value := 0#28 }
    phase := .idle
    done := true }

/-- TAKING AN EXCEPTION: the error completion (R31, R247) with `OUT_LEN <- outLen`; ERR_INFO is
`(REASON << 28) | min(VALUE, 2^28 − 1)`. No register is saved, no mode changes, no handler runs. -/
def State.raise (s : State) (outLen : Nat) (e : CmdError) : State :=
  { s with
    outLen := BitVec.ofNat 32 outLen
    errCode := e.code
    errInfo := { reason := e.reason, value := BitVec.ofNat 28 (min e.value (2 ^ 28 - 1)) }
    phase := .idle
    done := true }

/-- RETURN FROM AN ERROR: there is no return instruction; the Host writes 1 to STATUS.DONE, the
pseudo-statement `ack` (R97, R249), and ERR_CODE, ERR_INFO and OUT_LEN keep their values. -/
def State.acknowledge (s : State) : State := s.writeStatus 0x00000002#32

/-- The hardware reset (R270) bringing the storage contents d: every register at its reset value,
a running command abandoned. The parameters, the Host's program, the schedule, the answers
given and the count of draws are not HUFC's state (log 4) and stay. -/
def State.hardReset (s : State) (d : Draws) : State :=
  { State.reset with
    params := s.params
    freq := d.freq
    codeLen := d.codeLen
    codeBits := d.codeBits
    node := d.node
    ibuf := Memory.writeBytes [] 0 (d.ibuf.take s.params.bufBytes)
    obuf := Memory.writeBytes [] 0 (d.obuf.take s.params.bufBytes)
    program := s.program
    schedule := s.schedule
    replies := s.replies
    draws := s.draws }

end Sys2Proof.Machine
end

