-- ==== Sys2Proof/Machine/Operands.lean ====
section
/-! DEFINITION. The implicit operands of the commands (spec/30_encoding.md R92): IN_LEN, the input
bytes, and the tables FREQ, CODE_LEN, CODE_BITS and NODE as a command reads them. -/

namespace Sys2Proof.Machine

/-- `n <- R(IN_LEN)`, as a natural number (R27). -/
def State.inputLen (s : State) : Nat := s.inLen.toNat

/-- `MemRead(IBUF, 0, IN_LEN)`, the input of every command (R50). -/
def State.inputBytes (s : State) : List Byte := Memory.readBytes s.ibuf 0 s.inputLen

/-- `if n > P_BUF_BYTES then raise RANGE(1, n)`, the check of every command that reads IN_LEN
(R245, R246). -/
def State.rangeCheck (s : State) : Option CmdError :=
  if s.inputLen > s.params.bufBytes then some (inLenTooLarge s.inputLen) else none

/-- FREQ[c] (R40). -/
def State.freqOf (s : State) (c : Byte) : Word := s.freq.bySymbol c

/-- CODE_LEN[c] as a number (R41). -/
def State.codeLenOf (s : State) (c : Byte) : Nat := (s.codeLen.bySymbol c).toNat

/-- CODE[c]: bit k from the left is bit n − 1 − k of CODE_BITS[c], n = CODE_LEN[c] (R43). -/
def State.codeOf (s : State) (c : Byte) : Bits :=
  (List.range' 0 (s.codeLenOf c)).map fun k =>
    (s.codeBits.bySymbol c).getLsbD (s.codeLenOf c - 1 - k)

/-- NODE[i] (R44, R45). Index 511, which no arena entry has, reads as a node that does not exist
(DEDUCED, log 5: no run reaches it). -/
def State.nodeAt (s : State) (i : BitVec 9) : Node :=
  if h : i.toNat < 511 then s.node.at i.toNat h else Node.absent

end Sys2Proof.Machine
end

