-- ==== Sys2Proof/Machine/Frequency.lean ====
section
/-! DEFINITION. The frequency model (spec/41_frequency_model.md): FREQ_COUNT. -/

namespace Sys2Proof.Machine

/-- `freq(b)`: how often each symbol occurs in b (R140). -/
def freqTable (b : List Byte) : Table Word 256 :=
  Table.ofSymbols fun s => BitVec.ofNat 32 (b.count s)

/-- `sum over s of FREQ[s]`, unbounded (R153); an absent symbol adds 0, so only the alphabet's counts
are added. -/
def weightSum (f : Table Word 256) : Nat :=
  ((f.entries.filter fun w => decide (w ≠ 0#32)).map BitVec.toNat).sum

/-- FREQ takes the table f and the tree and the codes become stale (R37, R141, R221, R226). -/
def State.loadFreq (s : State) (f : Table Word 256) : State := { s with freq := f }.markStale

/-- FREQ_COUNT (R141). -/
def execFreqCount (s : State) : Result :=
  match s.rangeCheck with
  | some e => .next (s.raise 0 e)
  | none => .next ((s.loadFreq (freqTable s.inputBytes)).succeed 0)

end Sys2Proof.Machine
end

