-- ==== Sys2Proof/Machine/Tree.lean ====
section
/-! DEFINITION. The tree builder (spec/42_tree_builder.md): TREE_BUILD. -/

namespace Sys2Proof.Machine

/-- A node as it is built (R156): weights and indices are natural numbers. -/
inductive TreeNode where
  | leaf (symbol : Byte) (weight : Nat)
  | internal (weight left right : Nat)
deriving DecidableEq, Repr

/-- WEIGHT of a built node. -/
def TreeNode.weight : TreeNode → Nat
  | .leaf _ w => w
  | .internal w _ _ => w

/-- `encode(N[i])` (R154), with VALID = 1. -/
def TreeNode.encode : TreeNode → Node
  | .leaf s w =>
    { weight := BitVec.ofNat 32 w, valid := true, internal := false
      right := 0#9, left := 0#9, symbol := s }
  | .internal w l r =>
    { weight := BitVec.ofNat 32 w, valid := true, internal := true
      right := BitVec.ofNat 9 r, left := BitVec.ofNat 9 l, symbol := 0#8 }

/-- The leaves, one per present symbol in ascending symbol value (R151). -/
def leaves (f : Table Word 256) : List TreeNode :=
  f.entries.zipIdx.filterMap fun (w, i) =>
    if w = 0#32 then none else some (.leaf (BitVec.ofNat 8 i) w.toNat)

/-- The key of a node in the min-priority collection: its weight and its arena index (R155). -/
abbrev Key := Nat × Nat

/-- The priority order `(WEIGHT, index)`, lexicographic (R155). -/
def keyLt (x y : Key) : Bool := decide (x.1 < y.1) || (x.1 == y.1 && decide (x.2 < y.2))

/-- The first of x and the keys ks in the order of R155. -/
def lowest (x : Key) (ks : List Key) : Key := ks.foldl (fun m y => if keyLt y m then y else m) x

/-- Remove the first node in the order of R155 from the collection. -/
def takeLowest : List Key → Option (Key × List Key)
  | [] => none
  | k :: ks => some (lowest k ks, (k :: ks).erase (lowest k ks))

/-- The merge loop (R152, R156): `fuel` merges of the two lowest nodes of `active`, the first
removed being the left child, the new node taking the next free index. -/
def mergeLoop : Nat → List TreeNode → List Key → List TreeNode
  | 0, nodes, _ => nodes
  | fuel + 1, nodes, active =>
    match takeLowest active with
    | none => nodes
    | some (a, rest) =>
      match takeLowest rest with
      | none => nodes
      | some (b, rest') =>
        mergeLoop fuel (nodes ++ [.internal (a.1 + b.1) a.2 b.2])
          (rest' ++ [(a.1 + b.1, nodes.length)])

/-- The collection before the first merge: every leaf under its key. -/
def leafKeys (ls : List TreeNode) : List Key := ls.zipIdx.map fun (n, i) => (n.weight, i)

/-- `buildTree(F)`: the arena N[0 .. 2L−2] (R156); the loop runs exactly max(L − 1, 0) times. -/
def buildTree (f : Table Word 256) : List TreeNode :=
  mergeLoop ((leaves f).length - 1) (leaves f) (leafKeys (leaves f))

/-- L, the alphabet size (R151). -/
def alphabetSize (f : Table Word 256) : Nat := (leaves f).length

/-- NODE[0..510] for a built arena: the nodes that do not exist have both words 0 (R154). -/
def arenaTable (nodes : List TreeNode) : Table Node 511 :=
  Table.ofFn 511 fun i =>
    match nodes[i]? with
    | some n => n.encode
    | none => Node.absent

/-- ROOT for an alphabet of size l: `(1 << 31) | (2L−2)`, or 0 when L = 0 (R154). -/
def rootOf (l : Nat) : Root :=
  if l = 0 then { valid := false, index := 0#9 }
  else { valid := true, index := BitVec.ofNat 9 (2 * l - 2) }

/-- The tree-building step (R154), used by TREE_BUILD, ENCODE and DECODE. -/
def State.treeStep (s : State) : State :=
  { s with
    node := arenaTable (buildTree s.freq)
    symCount := BitVec.ofNat 9 (alphabetSize s.freq)
    root := rootOf (alphabetSize s.freq)
    totalWeight := BitVec.ofNat 32 (weightSum s.freq)
    treeValid := true
    codeValid := false }

/-- The weight check (R153): `if W > 0xFFFF_FFFF then raise CAPACITY(2, 0)`. -/
def State.weightCheck (s : State) : Option CmdError :=
  if weightSum s.freq > 0xFFFFFFFF then some weightOverflow else none

/-- TREE_BUILD (R150). -/
def execTreeBuild (s : State) : Result :=
  match s.weightCheck with
  | some e => .next (s.raise 0 e)
  | none => .next (s.treeStep.succeed 0)

end Sys2Proof.Machine
end

