-- ==== Sys2Proof/Machine/Codes.lean ====
section
/-! DEFINITION. The code-table generator (spec/43_code_table.md): CODE_GEN. -/

namespace Sys2Proof.Machine

/-- The codes assigned so far, the latest first: a symbol with no entry is NONE (R175). -/
abbrev CodeMap := List (Byte × Bits)

/-- C[c] (R175). -/
def CodeMap.find (m : CodeMap) (c : Byte) : Option Bits := m.lookup c

/-- The explicit-stack walk (R175), the top of the stack first, LEFT pushed last. `fuel` bounds the
pops: a tree of at most 511 nodes pops each node once (DEDUCED, log 5). -/
def walkTree (node : BitVec 9 → Node) : Nat → List (BitVec 9 × Bits) → CodeMap → CodeMap
  | 0, _, c => c
  | _ + 1, [], c => c
  | fuel + 1, (i, p) :: stack, c =>
    if (node i).internal then
      walkTree node fuel (((node i).left, p ++ [false]) :: ((node i).right, p ++ [true]) :: stack) c
    else walkTree node fuel stack (((node i).symbol, p) :: c)

/-- `genCodes` (R175): one bit "0" for a single symbol (R173), nothing for the empty alphabet
(R174). -/
def State.genCodes (s : State) : CodeMap :=
  if s.symCount.toNat = 1 then [((s.nodeAt s.root.index).symbol, [false])]
  else if 2 ≤ s.symCount.toNat then walkTree s.nodeAt 511 [(s.root.index, [])] []
  else []

/-- CODE_LEN for the codes c (R172). -/
def codeLenTable (c : CodeMap) : Table (BitVec 8) 256 :=
  Table.ofSymbols fun sym =>
    match CodeMap.find c sym with
    | none => 0#8
    | some p => BitVec.ofNat 8 p.length

/-- CODE_BITS for the codes c: `zext_256(val(C[s]))` (R172). -/
def codeBitsTable (c : CodeMap) : Table (BitVec 256) 256 :=
  Table.ofSymbols fun sym =>
    match CodeMap.find c sym with
    | none => 0#256
    | some p => BitVec.ofNat 256 (bitsVal p)

/-- The code-generation step (R172), used by CODE_GEN, ENCODE and DECODE. -/
def State.codeStep (s : State) : State :=
  { s with
    codeLen := codeLenTable s.genCodes
    codeBits := codeBitsTable s.genCodes
    codeValid := true }

/-- `if TREE_VALID = 0 then raise SEQUENCE(1, 0)` (R170). -/
def State.treeCheck (s : State) : Option CmdError := if s.treeValid then none else some noTree

/-- CODE_GEN (R170). -/
def execCodeGen (s : State) : Result :=
  match s.treeCheck with
  | some e => .next (s.raise 0 e)
  | none => .next (s.codeStep.succeed 0)

end Sys2Proof.Machine
end

