-- ==== Sys2Proof/Machine/Packing.lean ====
section
/-! DEFINITION. The bit-stream encoder (spec/44_bitstream_encoder.md): PACK. -/

namespace Sys2Proof.Machine

/-- `stream(b)`: the codes of the bytes, concatenated in input order (R186). -/
def State.stream (s : State) (b : List Byte) : Bits := b.flatMap s.codeOf

/-- `sum over k of CODE_LEN[b_k]`, the length of `stream(b)` (R185, R186). -/
def State.streamLen (s : State) (b : List Byte) : Nat := (b.map s.codeLenOf).sum

/-- `nbytes <- (m + 7) div 8` (R187). -/
def packedLen (m : Nat) : Nat := (m + 7) / 8

/-- `pad <- 8·nbytes − m` (R187). -/
def padOf (m : Nat) : Nat := 8 * packedLen m - m

/-- `byte_0 .. byte_(nbytes−1)` of the padded sequence: stream bit k is bit 7 − (k mod 8) of byte
k div 8 (R63, R187). -/
def packBits (t : Bits) : List Byte :=
  (List.range' 0 (packedLen t.length)).map fun j =>
    BitVec.ofNat 8
      (bitsVal (((t ++ List.replicate (padOf t.length) false).drop (8 * j)).take 8))

/-- `payload(t) <- [pad] ++ [byte_0, .., byte_(nbytes−1)]` (R187). -/
def payload (t : Bits) : List Byte := BitVec.ofNat 8 (padOf t.length) :: packBits t

/-- The packing step at OBUF offset o (R188). -/
def State.packStep (s : State) (o : Nat) (b : List Byte) : State :=
  { s with
    obuf := Memory.writeBytes s.obuf o (payload (s.stream b))
    totalBits := BitVec.ofNat 32 (s.stream b).length
    padCount := BitVec.ofNat 3 (padOf (s.stream b).length) }

/-- The lowest offset, counted from k, of a byte whose CODE_LEN is 0 (R189). -/
def State.firstMissing (s : State) : Nat → List Byte → Option Nat
  | _, [] => none
  | k, c :: cs => if s.codeLenOf c = 0 then some k else s.firstMissing (k + 1) cs

/-- `if CODE_VALID = 0 then raise SEQUENCE(2, 0)` (R185, R200). -/
def State.codesCheck (s : State) : Option CmdError := if s.codeValid then none else some noCodes

/-- `for k ascending: if CODE_LEN[IBUF[k]] = 0 then raise INTEGRITY(1, k)` (R185, R189). -/
def State.integrityCheck (s : State) : Option CmdError :=
  (s.firstMissing 0 s.inputBytes).map missingCode

/-- `if 1 + nbytes > P_BUF_BYTES then raise CAPACITY(1, 1 + nbytes)` (R185). -/
def State.packCapacityCheck (s : State) : Option CmdError :=
  if 1 + packedLen (s.streamLen s.inputBytes) > s.params.bufBytes then
    some (outputFull (1 + packedLen (s.streamLen s.inputBytes)))
  else none

/-- PACK's check phase, in the order of R185. -/
def State.packCheck (s : State) : Option CmdError :=
  match s.codesCheck with
  | some e => some e
  | none =>
    match s.rangeCheck with
    | some e => some e
    | none =>
      match s.integrityCheck with
      | some e => some e
      | none => s.packCapacityCheck

/-- PACK (R185). -/
def execPack (s : State) : Result :=
  match s.packCheck with
  | some e => .next (s.raise 0 e)
  | none =>
    .next ((s.packStep 0 s.inputBytes).succeed (1 + packedLen (s.streamLen s.inputBytes)))

end Sys2Proof.Machine
end

