-- ==== Sys2Proof/Machine/Unpacking.lean ====
section
/-! DEFINITION. The bit-stream decoder (spec/45_bitstream_decoder.md): UNPACK. -/

namespace Sys2Proof.Machine

/-- `nbits = 8·(n − 1) − pad` for an EncodedPayload of m = n − 1 packed bytes (R201). -/
def streamBits (m : Nat) (pad : Byte) : Nat := 8 * m - pad.toNat

/-- `expand(bytes, nbits)`: the bits of the bytes, most significant first, less the trailing pad
bits, which are not checked (R202). -/
def expand (bytes : List Byte) (nbits : Nat) : Bits := (bytes.flatMap byteBits).take nbits

/-- What a walk has emitted, and the error that ended it. -/
structure WalkResult where
  out : List Byte
  error : Option CmdError
deriving DecidableEq, Repr

/-- The test at a stream's end (R203, R206, R226): LEFTOVER before SHORT. -/
def walkEnd (n : Option Nat) (cur : Option (BitVec 9)) (d : Nat) (out : List Byte) : WalkResult :=
  match cur with
  | some _ => ⟨out, some (leftover d)⟩
  | none =>
    match n with
    | none => ⟨out, none⟩
    | some want => if out.length < want then ⟨out, some (short out.length)⟩ else ⟨out, none⟩

/-- The walk over the bits from index k on (R203); `cur` is the node reached by the candidate, none
at START, d the candidate's length, out the symbols emitted. TRAILING is tested before the bit is
used; a full OBUF raises CAPACITY when a symbol is emitted. -/
def State.walk (s : State) (n : Option Nat) (cap : Nat) :
    Bits → Nat → Option (BitVec 9) → Nat → List Byte → WalkResult
  | [], _, cur, d, out => walkEnd n cur d out
  | b :: t, k, cur, d, out =>
    if n = some out.length then ⟨out, some (trailing k)⟩
    else if s.symCount.toNat = 0 then ⟨out, some (deadEnd k)⟩
    else if s.symCount.toNat = 1 then
      if b then ⟨out, some (deadEnd k)⟩
      else if out.length = cap then ⟨out, some (outputFull (cap + 1))⟩
      else s.walk n cap t (k + 1) none 0 (out ++ [(s.nodeAt s.root.index).symbol])
    else
      let i := cur.getD s.root.index
      let j := if b then (s.nodeAt i).right else (s.nodeAt i).left
      if (s.nodeAt j).internal then s.walk n cap t (k + 1) (some j) (d + 1) out
      else if out.length = cap then ⟨out, some (outputFull (cap + 1))⟩
      else s.walk n cap t (k + 1) none 0 (out ++ [(s.nodeAt j).symbol])

/-- `walk(t, N, cap)` with cap = P_BUF_BYTES (R203). -/
def State.decodeStream (s : State) (n : Option Nat) (t : Bits) : WalkResult :=
  s.walk n s.params.bufBytes t 0 none 0 []

/-- TOTAL_BITS and PAD_COUNT of a stream presented for unpacking (R34, R35). -/
def State.presentStream (s : State) (nbits : Nat) (pad : Byte) : State :=
  { s with totalBits := BitVec.ofNat 32 nbits, padCount := BitVec.ofNat 3 pad.toNat }

/-- The symbols a walk emitted, in OBUF from offset 0 (R203). -/
def State.storeOutput (s : State) (out : List Byte) : State :=
  { s with obuf := Memory.writeBytes s.obuf 0 out }

/-- The end of a walk: OBUF and OUT_LEN hold the symbols emitted, on success and on error (R203). -/
def State.finishWalk (s : State) (r : WalkResult) : State :=
  match r.error with
  | some e => (s.storeOutput r.out).raise r.out.length e
  | none => (s.storeOutput r.out).succeed r.out.length

/-- The payload header checks at IBUF offset o, m packed bytes following (R201): `pad > 7`, then
`pad > 8·m`. -/
def State.padCheck (s : State) (o m : Nat) : Option CmdError :=
  if (Memory.read s.ibuf o).toNat > 7 then some (padRange (Memory.read s.ibuf o))
  else if (Memory.read s.ibuf o).toNat > 8 * m then some (padExceeds (Memory.read s.ibuf o))
  else none

/-- `if n = 0 then raise SCHEMA(1, 0)`: no pad-count header (R200). -/
def State.headerCheck (s : State) : Option CmdError :=
  if s.inputLen = 0 then some noHeader else none

/-- UNPACK's check phase, in the order of R200. -/
def State.unpackCheck (s : State) : Option CmdError :=
  match s.codesCheck with
  | some e => some e
  | none =>
    match s.rangeCheck with
    | some e => some e
    | none =>
      match s.headerCheck with
      | some e => some e
      | none => s.padCheck 0 (s.inputLen - 1)

/-- The stream of the EncodedPayload whose header is at IBUF offset o, m packed bytes following
(R202). -/
def State.payloadStream (s : State) (o m : Nat) : Bits :=
  expand (Memory.readBytes s.ibuf (o + 1) m) (streamBits m (Memory.read s.ibuf o))

/-- UNPACK's run phase up to the walk: TOTAL_BITS and PAD_COUNT (R200). -/
def State.unpackReady (s : State) : State :=
  s.presentStream (streamBits (s.inputLen - 1) (Memory.read s.ibuf 0)) (Memory.read s.ibuf 0)

/-- UNPACK (R200). -/
def execUnpack (s : State) : Result :=
  match s.unpackCheck with
  | some e => .next (s.raise 0 e)
  | none =>
    .next (s.unpackReady.finishWalk
      (s.unpackReady.decodeStream none (s.payloadStream 0 (s.inputLen - 1))))

end Sys2Proof.Machine
end

