-- ==== Sys2Proof/Machine/Container.lean ====
section
/-! DEFINITION. The Container (spec/46_container.md): ENCODE and DECODE. -/

namespace Sys2Proof.Machine

/-- The frequency section: `LE32^-1(F[s])` for s = 0 .. 255, 1024 bytes (R220). -/
def freqSection (f : Table Word 256) : List Byte := f.entries.flatMap le32Bytes

/-- ENCODE's FREQ, tree and code tables for the input bytes (R221). -/
def State.encodeTables (s : State) : State :=
  (s.loadFreq (freqTable s.inputBytes)).treeStep.codeStep

/-- `1025 + nbytes`, the length of ENCODE's Container (R221). -/
def State.containerLen (s : State) : Nat :=
  1025 + packedLen (s.encodeTables.streamLen s.inputBytes)

/-- The frequency section at OBUF offset 0, then the packing step at o = 1024 (R221). -/
def State.writeContainer (s : State) (b : List Byte) : State :=
  { s with obuf := Memory.writeBytes s.obuf 0 (freqSection s.freq) }.packStep 1024 b

/-- ENCODE (R221): CAPACITY is raised in the run phase and keeps the new tables; the weight check
of R153 and the test for INTEGRITY are not made (R224). -/
def execEncode (s : State) : Result :=
  match s.rangeCheck with
  | some e => .next (s.raise 0 e)
  | none =>
    if s.containerLen > s.params.bufBytes then
      .next (s.encodeTables.raise 0 (outputFull s.containerLen))
    else .next ((s.encodeTables.writeContainer s.inputBytes).succeed s.containerLen)

/-- Deserialize: `F[s] = LE32(IBUF[4s .. 4s+3])` (R228). -/
def State.containerFreq (s : State) : Table Word 256 :=
  Table.ofFn 256 fun i => Memory.readWord s.ibuf (4 * i)

/-- `if n < 1025 then raise SCHEMA(2, n)` (R226). -/
def State.containerCheck (s : State) : Option CmdError :=
  if s.inputLen < 1025 then some (shortContainer s.inputLen) else none

/-- `if N > P_BUF_BYTES then raise CAPACITY(3, N)` (R226). -/
def State.countCheck (s : State) : Option CmdError :=
  if weightSum s.containerFreq > s.params.bufBytes then
    some (countTooLarge (weightSum s.containerFreq))
  else none

/-- DECODE's check phase, in the order of R226. -/
def State.decodeCheck (s : State) : Option CmdError :=
  match s.rangeCheck with
  | some e => some e
  | none =>
    match s.containerCheck with
    | some e => some e
    | none =>
      match s.padCheck 1024 (s.inputLen - 1025) with
      | some e => some e
      | none => s.countCheck

/-- DECODE's FREQ, tree, code tables, TOTAL_BITS and PAD_COUNT (R226). -/
def State.decodeReady (s : State) : State :=
  (s.loadFreq s.containerFreq).treeStep.codeStep.presentStream
    (streamBits (s.inputLen - 1025) (Memory.read s.ibuf 1024)) (Memory.read s.ibuf 1024)

/-- DECODE (R226): the walk must emit exactly N symbols and consume every bit (R229). -/
def execDecode (s : State) : Result :=
  match s.decodeCheck with
  | some e => .next (s.raise 0 e)
  | none =>
    .next (s.decodeReady.finishWalk
      (s.decodeReady.decodeStream (some (weightSum s.containerFreq))
        (s.payloadStream 1024 (s.inputLen - 1025))))

end Sys2Proof.Machine
end

