-- ==== Sys2Proof/Machine/Control.lean ====
section
/-! DEFINITION. NOP and CLEAR (spec/40_host_interface.md R121, R122). -/

namespace Sys2Proof.Machine

/-- NOP (R121): completion state only, `OUT_LEN <- 0`. -/
def execNop (s : State) : Result := .next (s.succeed 0)

/-- CLEAR's run phase (R122): the tables, the result registers and both validity flags are cleared;
IBUF, OBUF, IN_LEN, CTRL, CMD_OVR and ACC_ERR stay. -/
def State.clearTables (s : State) : State :=
  { s with
    freq := Table.fill 256 0#32
    codeLen := Table.fill 256 0#8
    codeBits := Table.fill 256 0#256
    node := Table.fill 511 Node.absent
    symCount := 0#9
    root := { valid := false, index := 0#9 }
    totalWeight := 0#32
    totalBits := 0#32
    padCount := 0#3
    treeValid := false
    codeValid := false }

/-- CLEAR (R122). -/
def execClear (s : State) : Result := .next (s.clearTables.succeed 0)

end Sys2Proof.Machine
end

