-- ==== Sys2Proof/Machine/Bus.lean ====
section
/-! DEFINITION. The Host window and one Host access (spec/20_memory.md R60 to R68;
spec/40_host_interface.md R110 to R118; spec/10_state.md R39). -/

namespace Sys2Proof.Machine

/-- A 32-bit location of the window (R64, R96); buffer words are named by their index j, at buffer
offset 4j. -/
inductive Loc where
  | id
  | bufCap
  | ctrl
  | status
  | cmd
  | inLen
  | outLen
  | errInfo
  | symCount
  | root
  | totalBits
  | padCount
  | totalWeight
  | freq (s : Byte)
  | codeLen (s : Byte)
  | codeBits (s : Byte) (w : BitVec 3)
  | node (i : Fin 511) (w : BitVec 1)
  | ibuf (j : Nat)
  | obuf (j : Nat)
deriving DecidableEq, Repr

/-- The window offset of a location (R64). -/
def Loc.offset : Loc → Nat
  | .id => 0x000
  | .bufCap => 0x004
  | .ctrl => 0x010
  | .status => 0x014
  | .cmd => 0x018
  | .inLen => 0x01C
  | .outLen => 0x020
  | .errInfo => 0x024
  | .symCount => 0x028
  | .root => 0x02C
  | .totalBits => 0x030
  | .padCount => 0x034
  | .totalWeight => 0x038
  | .freq s => 0x1000 + 4 * s.toNat
  | .codeLen s => 0x1400 + 4 * s.toNat
  | .codeBits s w => 0x2000 + 32 * s.toNat + 4 * w.toNat
  | .node i w => 0x4000 + 8 * i.val + 4 * w.toNat
  | .ibuf j => 0x01000000 + 4 * j
  | .obuf j => 0x02000000 + 4 * j

/-- The location exists when the buffers have `cap` bytes (R64, R66). -/
def Loc.mapped (cap : Nat) : Loc → Bool
  | .ibuf j => decide (4 * j < cap)
  | .obuf j => decide (4 * j < cap)
  | _ => true

/-- The register at an offset below 0x1000 (R64). -/
def registerAt (a : Nat) : Option Loc :=
  match a with
  | 0x000 => some .id
  | 0x004 => some .bufCap
  | 0x010 => some .ctrl
  | 0x014 => some .status
  | 0x018 => some .cmd
  | 0x01C => some .inLen
  | 0x020 => some .outLen
  | 0x024 => some .errInfo
  | 0x028 => some .symCount
  | 0x02C => some .root
  | 0x030 => some .totalBits
  | 0x034 => some .padCount
  | 0x038 => some .totalWeight
  | _ => none

/-- The address map (R64) for a word-aligned offset a and buffers of `cap` bytes; every offset not
listed is unmapped (R66). -/
def Loc.ofOffset (cap a : Nat) : Option Loc :=
  if a < 0x1000 then registerAt a
  else if a < 0x1400 then some (.freq (BitVec.ofNat 8 ((a - 0x1000) / 4)))
  else if a < 0x1800 then some (.codeLen (BitVec.ofNat 8 ((a - 0x1400) / 4)))
  else if a < 0x2000 then none
  else if a < 0x4000 then
    some (.codeBits (BitVec.ofNat 8 ((a - 0x2000) / 32)) (BitVec.ofNat 3 ((a - 0x2000) / 4 % 8)))
  else if a < 0x4FF8 then
    some (.node (Fin.ofNat 511 ((a - 0x4000) / 8)) (BitVec.ofNat 1 ((a - 0x4000) / 4 % 2)))
  else if a < 0x01000000 then none
  else if a < 0x01000000 + cap then some (.ibuf ((a - 0x01000000) / 4))
  else if a < 0x02000000 then none
  else if a < 0x02000000 + cap then some (.obuf ((a - 0x02000000) / 4))
  else none

/-- The read-only locations (R113). -/
def Loc.readOnly : Loc → Bool
  | .id => true
  | .bufCap => true
  | .ctrl => false
  | .status => false
  | .cmd => false
  | .inLen => false
  | .outLen => true
  | .errInfo => true
  | .symCount => true
  | .root => true
  | .totalBits => true
  | .padCount => true
  | .totalWeight => true
  | .freq _ => false
  | .codeLen _ => true
  | .codeBits _ _ => true
  | .node _ _ => true
  | .ibuf _ => false
  | .obuf _ => false

/-- The locations a read while BUSY returns exactly; every other read returns a draw (R39). -/
def Loc.exactWhileBusy : Loc → Bool
  | .id => true
  | .bufCap => true
  | .ctrl => true
  | .status => true
  | .cmd => true
  | .inLen => true
  | .outLen => false
  | .errInfo => false
  | .symCount => false
  | .root => false
  | .totalBits => false
  | .padCount => false
  | .totalWeight => false
  | .freq _ => false
  | .codeLen _ => false
  | .codeBits _ _ => false
  | .node _ _ => false
  | .ibuf _ => true
  | .obuf _ => false

/-- The value of an idle read, which has no side effect (R111). -/
def State.idleRead (s : State) : Loc → Word
  | .id => Config.idValue
  | .bufCap => BitVec.ofNat 32 s.params.bufBytes
  | .ctrl => s.ctrlWord
  | .status => s.statusWord
  | .cmd => s.cmd
  | .inLen => s.inLen
  | .outLen => s.outLen
  | .errInfo => s.errInfo.word
  | .symCount => s.symCount.zeroExtend 32
  | .root => s.root.word
  | .totalBits => s.totalBits
  | .padCount => s.padCount.zeroExtend 32
  | .totalWeight => s.totalWeight
  | .freq c => s.freqOf c
  | .codeLen c => (s.codeLen.bySymbol c).zeroExtend 32
  | .codeBits c w => codeBitsWord (s.codeBits.bySymbol c) w.toNat
  | .node i w => if w = 0#1 then (s.node.at i.val i.isLt).weight else (s.node.at i.val i.isLt).word1
  | .ibuf j => Memory.readWord s.ibuf (4 * j)
  | .obuf j => Memory.readWord s.obuf (4 * j)

/-- The effect of an idle write of v (R112). A read-only location does not get here (R110, R113). -/
def State.idleWrite (s : State) (l : Loc) (v : Word) : State :=
  match l with
  | .ctrl => s.writeCtrl v
  | .status => s.writeStatus v
  | .cmd => s.accept v
  | .inLen => { s with inLen := v }
  | .freq c => { s with freq := s.freq.set c.toNat v }.markStale
  | .ibuf j => { s with ibuf := Memory.writeWord s.ibuf (4 * j) v }
  | .obuf j => { s with obuf := Memory.writeWord s.obuf (4 * j) v }
  | .id => s
  | .bufCap => s
  | .outLen => s
  | .errInfo => s
  | .symCount => s
  | .root => s
  | .totalBits => s
  | .padCount => s
  | .totalWeight => s
  | .codeLen _ => s
  | .codeBits _ _ => s
  | .node _ _ => s

/-- The effect of a write of v while BUSY: CTRL and STATUS as when IDLE, a CMD write dropped with
CMD_OVR, every other write dropped with ACC_ERR (R117, R118). -/
def State.busyWrite (s : State) (l : Loc) (v : Word) : State :=
  match l with
  | .ctrl => s.writeCtrl v
  | .status => s.writeStatus v
  | .cmd => s.markCmdOvr
  | .inLen => s.markAccErr
  | .freq _ => s.markAccErr
  | .ibuf _ => s.markAccErr
  | .obuf _ => s.markAccErr
  | .id => s
  | .bufCap => s
  | .outLen => s
  | .errInfo => s
  | .symCount => s
  | .root => s
  | .totalBits => s
  | .padCount => s
  | .totalWeight => s
  | .codeLen _ => s
  | .codeBits _ _ => s
  | .node _ _ => s

/-- A read while BUSY: exact, or the next draw (R39, log 3). -/
def State.busyRead (s : State) (l : Loc) : State × Reply :=
  if l.exactWhileBusy then (s, .value (s.idleRead l))
  else ({ s with draws := s.draws + 1 }, .value (Config.freeWord s.draws))

/-- The location an access reaches: none when it is a bus error whatever its direction (R65, R66,
the first two tests of R110). -/
def State.target (s : State) (a : Access) : Option Loc :=
  if a.size = .bits32 ∧ a.offset % 4 = 0 then Loc.ofOffset s.params.bufBytes a.offset else none

/-- A write of v to a mapped location (R110). A dropped write is still answered on the bus, since
only the cases of R66 are bus errors (DEDUCED, log 7). -/
def State.writeLoc (s : State) (l : Loc) (v : Word) : State × Reply :=
  if l.readOnly then (s, .busError)
  else if s.busy then (s.busyWrite l v, .written)
  else (s.idleWrite l v, .written)

/-- A read of a mapped location (R110). -/
def State.readLoc (s : State) (l : Loc) : State × Reply :=
  if s.busy then s.busyRead l else (s, .value (s.idleRead l))

/-- One Host access and its answer (R110). -/
def State.hostAccess (s : State) (a : Access) : State × Reply :=
  match s.target a with
  | none => (s, .busError)
  | some l =>
    match a.dir with
    | .write v => s.writeLoc l v
    | .read => s.readLoc l

/-- The window offset of a Host address, when the address is in the window at `P_BASE` (R60). -/
def windowOffset (p : Config.Params) (hostAddress : Nat) : Option Nat :=
  if p.base ≤ hostAddress ∧ hostAddress < p.base + 0x03000000 then some (hostAddress - p.base)
  else none

end Sys2Proof.Machine
end

