-- ==== Sys2Proof/Machine/HostProgram.lean ====
section
/-! DEFINITION. Host programs (spec/30_encoding.md R96, R97) and the Host agent's step
(spec/40_host_interface.md R110, spec/70_reset_and_hazards.md R282). -/

namespace Sys2Proof.Machine

/-- `wr LOC, imm32` (R96). -/
def wr (l : Loc) (imm : Word) : Stmt :=
  .access { size := .bits32, offset := l.offset, dir := .write imm }

/-- `rd LOC` (R96). -/
def rd (l : Loc) : Stmt := .access { size := .bits32, offset := l.offset, dir := .read }

/-- `rd STATUS`, the access a `wait` repeats (R97). -/
def statusRead : Access := { size := .bits32, offset := Loc.status.offset, dir := .read }

/-- `cmd M` (R97). -/
def issue (i : Instr) : Stmt := wr .cmd (encode i)

/-- `run M`: `cmd M` then `wait` (R97). -/
def run (i : Instr) : List Stmt := [issue i, .waitIdle]

/-- `ack` (R97). -/
def ackDone : Stmt := wr .status 0x00000002#32

/-- Word j of a byte list, bytes past the end taken as 0 (R97, `load`). -/
def loadWord (bs : List Byte) (j : Nat) : Word :=
  le32 (bs.getD (4 * j) 0#8) (bs.getD (4 * j + 1) 0#8) (bs.getD (4 * j + 2) 0#8)
    (bs.getD (4 * j + 3) 0#8)

/-- `load b0, .., b(n−1)` (R97). -/
def load (bs : List Byte) : List Stmt :=
  wr .inLen (BitVec.ofNat 32 bs.length)
    :: (List.range' 0 ((bs.length + 3) / 4)).map fun j => wr (.ibuf j) (loadWord bs j)

/-- `expect LOC == v` is the access `rd LOC`; v is an assertion about its result, with no effect on
HUFC (R97). -/
def expect (l : Loc) (_ : Word) : Stmt := rd l

/-- The assertion of `expect LOC == v`: the program is wrong if the answer is not v (R97). -/
def expectMet (v : Word) (r : Reply) : Bool := r = .value v

/-- A hexadecimal digit as the statement encodings write it (R96). -/
def hexDigit (d : Nat) : Char := if d < 10 then Char.ofNat (48 + d) else Char.ofNat (55 + d)

/-- Eight hexadecimal digits, most significant first (R96). -/
def hex8 (v : Nat) : List Char := (List.range' 0 8).map fun k => hexDigit (v / 16 ^ (7 - k) % 16)

/-- The encoding of a machine statement (R96): `W <offset> <data>` or `R <offset>`. -/
def Access.text (a : Access) : List Char :=
  match a.dir with
  | .write v => ['W', ' '] ++ hex8 a.offset ++ [' '] ++ hex8 v.toNat
  | .read => ['R', ' '] ++ hex8 a.offset

/-- The rest of the program after the statement `st`, answered r: a bus error ends the program
(R282); a `wait` stays until bit 0 (BUSY) of the result is 0 (R97). -/
def continueAfter (st : Stmt) (rest : List Stmt) (r : Reply) : List Stmt :=
  match r with
  | .busError => []
  | .written => rest
  | .value v => if st = .waitIdle ∧ v.getLsbD 0 = true then st :: rest else rest

/-- The access a statement makes. -/
def Stmt.toAccess : Stmt → Access
  | .access a => a
  | .waitIdle => statusRead

/-- One Host step: the access of the program's first statement; its answer is recorded (R110, R282).
A Host whose program has ended does nothing. -/
def State.hostTurn (s : State) : State :=
  match s.program with
  | [] => s
  | st :: rest =>
    { (s.hostAccess st.toAccess).1 with
      program := continueAfter st rest (s.hostAccess st.toAccess).2
      replies := (s.hostAccess st.toAccess).2 :: s.replies }

end Sys2Proof.Machine
end

