-- ==== Sys2Proof/Machine/Turns.lean ====
section
/-! DEFINITION. The Core's step, and which agent moves (spec/00_scope.md R15, spec/10_state.md R31,
spec/40_host_interface.md R120, spec/70_reset_and_hazards.md R281). -/

namespace Sys2Proof.Machine

/-- `Exec(PEND, S)` and completion (R31, R120): decode PEND by R93; an illegal word completes with
BAD_CMD and OUT_LEN = 0 (R93, R94). -/
def execWord (v : Word) (s : State) : Result :=
  match decode v with
  | .ok i => exec i s
  | .error e => .next (s.raise 0 (badCommand e))

/-- The Core's step: completion of the pending command; "The Core takes no step while phase = IDLE"
(R31), so the state stays. -/
def State.coreTurn (s : State) : Result :=
  match s.phase with
  | .idle => .next s
  | .busy v => execWord v s

/-- The next turn of the schedule. When the schedule is used up, the Core moves if it can (weak
fairness, R281), else the Host (log 4). -/
def State.takeTurn (s : State) : Result :=
  match s.schedule with
  | .host :: rest => .next { s with schedule := rest }.hostTurn
  | .core :: rest => { s with schedule := rest }.coreTurn
  | .reset d :: rest => .next ({ s with schedule := rest }.hardReset d)
  | [] => if s.busy then s.coreTurn else .next s.hostTurn

/-- Command word v accepted (R31) and the next turn the Core's. -/
def State.pendWord (s : State) (v : Word) : State :=
  { s.accept v with schedule := .core :: s.schedule }

end Sys2Proof.Machine
end

