-- ==== Sys2Proof/Machine/Step.lean ====
section
/-! DEFINITION. One step of the machine: one Host access, one command completion, or one hardware
reset (spec/00_scope.md R15). -/

namespace Sys2Proof.Machine

/-- One step (R15, R71). -/
def step (s : State) : Host.Outcome State Fault Refusal := s.takeTurn

/-- HUFC fetches no instruction (R21): a command comes by a CMD write. This is that write's
acceptance (R31) of the table word, with the next turn given to the Core, so that the very next
step completes it (log 4). -/
def State.withFetchWord (s : State) (nbits w : Nat) : State := s.pendWord (tableWord nbits w)

end Sys2Proof.Machine
end

