-- ==== Sys2Proof/Safety.lean ====
section
/-! DEFINITION. What a good state is, and the words the claims are stated in: the two invariants of
the storage and of the validity flags, the control invariant, paths in the arena, and the
completion of a command. -/

namespace Sys2Proof.Machine

/-! ### Invariants -/

/-- Both buffers are in canonical form and inside P_BUF_BYTES (R50, R51). -/
structure MemoryOk (s : State) : Prop where
  ibufWf : Memory.wf s.ibuf = true
  obufWf : Memory.wf s.obuf = true
  ibufIn : Memory.below s.params.bufBytes s.ibuf = true
  obufIn : Memory.below s.params.bufBytes s.obuf = true

/-- What TREE_VALID and CODE_VALID assert (R37). -/
structure TablesOk (s : State) : Prop where
  /-- `TREE_VALID = 1` asserts the tree that R156 builds from the current FREQ; the check of R153
  has passed for it. -/
  tree : s.treeValid = true →
    weightSum s.freq ≤ 0xFFFFFFFF ∧ s.node = arenaTable (buildTree s.freq)
      ∧ s.symCount = BitVec.ofNat 9 (alphabetSize s.freq) ∧ s.root = rootOf (alphabetSize s.freq)
      ∧ s.totalWeight = BitVec.ofNat 32 (weightSum s.freq)
  /-- `CODE_VALID = 1` asserts the code table R171 derives from that tree, and implies
  `TREE_VALID = 1`. -/
  codes : s.codeValid = true →
    s.treeValid = true ∧ s.codeLen = codeLenTable s.genCodes
      ∧ s.codeBits = codeBitsTable s.genCodes

/-- The control state between steps: while BUSY, PEND is CMD and the flags of the last completion
are cleared (R31); when IDLE, no error means ERR_INFO is 0 (R29); OUT_LEN never exceeds the
buffer (R28, R51). -/
structure ControlOk (s : State) : Prop where
  pending : ∀ v, s.phase = .busy v → s.cmd = v ∧ s.done = false ∧ s.errCode = .noError
  success : s.phase = .idle → s.errCode = .noError → s.errInfo = { reason := 0#4, value := 0#28 }
  output : s.outLen.toNat ≤ s.params.bufBytes

/-- A state a run can start from: the reset input's state (R270), with any parameters, storage
contents, host program and schedule. -/
def State.start (p : Config.Params) (d : Draws) (prog : List Stmt) (sched : List Turn) : State :=
  { State.reset with params := p, program := prog, schedule := sched }.hardReset d

/-- The states runs reach. -/
inductive Reachable : State → Prop where
  | start (p : Config.Params) (d : Draws) (prog : List Stmt) (sched : List Turn) :
      Reachable (State.start p d prog sched)
  | step {s t : State} (hs : Reachable s) (h : step s = .next t) : Reachable t

/-! ### Words for claims -/

/-- The completion of R31 with given OUT_LEN, ERR_CODE and ERR_INFO, nothing else written. -/
def State.completed (s : State) (outLen : Word) (code : ErrCode) (info : ErrInfo) : State :=
  { s with outLen := outLen, errCode := code, errInfo := info, phase := .idle, done := true }

/-- `ERR_INFO = 0`, as every successful completion leaves it (R29). -/
def noInfo : ErrInfo := { reason := 0#4, value := 0#28 }

/-- ERR_INFO for REASON and VALUE, VALUE saturated at 2^28 − 1 (R29). -/
def infoOf (reason : BitVec 4) (value : Nat) : ErrInfo :=
  { reason := reason, value := BitVec.ofNat 28 (min value 0xFFFFFFF) }

/-- Input byte k, IBUF[k]. -/
def State.inByte (s : State) (k : Nat) : Byte := Memory.read s.ibuf k

/-- Output byte k, OBUF[k]. -/
def State.outByte (s : State) (k : Nat) : Byte := Memory.read s.obuf k

/-- The 256 symbols, ascending. -/
def symbols : List Byte := (List.range 256).map (BitVec.ofNat 8)

/-- The sum over all symbols. -/
def sumSymbols (f : Byte → Nat) : Nat := (symbols.map f).sum

/-- The alphabet `{ s : F[s] > 0 }`, ascending (R151). -/
def alphabet (f : Table Word 256) : List Byte := symbols.filter fun c => f.bySymbol c ≠ 0#32

/-- Bits 0 .. n−1 of the stream packed from IBUF byte o on: bit k is bit 7 − (k mod 8) of byte
k div 8 (R63, R202). -/
def State.inBits (s : State) (o n : Nat) : Bits :=
  (List.range n).map fun k => (s.inByte (o + k / 8)).getLsbD (7 - k % 8)

/-- The codes of the bytes concatenated, by the tables of s (R186). -/
def State.codesOf (s : State) (b : List Byte) : Bits := b.flatMap s.codeOf

/-- The path p leads from node i to node j, a 0 to the LEFT child and a 1 to the RIGHT child, through
internal nodes (R171). -/
def PathTo (node : BitVec 9 → Node) : BitVec 9 → Bits → BitVec 9 → Prop
  | i, [], j => i = j
  | i, b :: p, j =>
    (node i).internal = true ∧ PathTo node (if b then (node i).right else (node i).left) p j

/-- Node i is a child of an internal node below index k of the arena. -/
def UsedBefore (nodes : List TreeNode) (k i : Nat) : Prop :=
  ∃ j < k, ∃ w a b, nodes[j]? = some (.internal w a b) ∧ (a = i ∨ b = i)

/-- The weight of node i of an arena. -/
def weightAt (nodes : List TreeNode) (i : Nat) : Nat := ((nodes[i]?).map TreeNode.weight).getD 0

/-- Node i comes before node j: "lexicographically" by `(WEIGHT, index)` (R155). -/
def Before (nodes : List TreeNode) (i j : Nat) : Prop :=
  weightAt nodes i < weightAt nodes j ∨ (weightAt nodes i = weightAt nodes j ∧ i < j)

/-- t has the tables of s: everything UNPACK reads but its input (R92). -/
def SameTables (s t : State) : Prop :=
  t.codeValid = s.codeValid ∧ t.node = s.node ∧ t.root = s.root ∧ t.symCount = s.symCount
    ∧ t.params = s.params

/-- u has the first n output bytes of t as its input: OBUF copied to IBUF, IN_LEN set to n. -/
def CopiedInput (t u : State) (n : Nat) : Prop :=
  u.params = t.params ∧ u.inputLen = n ∧ ∀ k < n, u.inByte k = t.outByte k

/-- s and t have the same parameters and the same input. -/
def SameInput (s t : State) : Prop :=
  t.params = s.params ∧ t.inLen = s.inLen ∧ ∀ k < s.inputLen, t.inByte k = s.inByte k

end Sys2Proof.Machine
end

