-- ==== Sys2Proof/Certificates/Slice0/Obligations.lean ====
section
/-! DEFINITION. The statements for the provers, from the numbered rules of spec/. -/

open Sys2Proof Sys2Proof.Machine

/-! ### Command words (30_encoding.md) -/

/-- The opcode map of R90 on words written out from it. -/
def Obligations.OpcodeMapDecodes : Prop :=
  decode 0x00000000#32 = .ok .nop ∧ decode 0x00000001#32 = .ok .clear
    ∧ decode 0x00000002#32 = .ok .freqCount ∧ decode 0x00000003#32 = .ok .treeBuild
    ∧ decode 0x00000004#32 = .ok .codeGen ∧ decode 0x00000005#32 = .ok .pack
    ∧ decode 0x00000006#32 = .ok .unpack ∧ decode 0x00000007#32 = .ok .encode
    ∧ decode 0x00000008#32 = .ok .decode ∧ decode 0x00000009#32 = .error (.reservedOpcode 0x09#8)
    ∧ decode 0x000000FF#32 = .error (.reservedOpcode 0xFF#8)
    ∧ decode 0x00000100#32 = .error (.reservedBits 0x000001#24)
    ∧ decode 0x80000007#32 = .error (.reservedBits 0x800000#24)

/-- Every command has exactly one word, and no other word decodes to it (R90, R91, R95). -/
def Obligations.DecodeAndEncodeAgree : Prop :=
  ∀ (i : Instr) (v : Word), decode v = .ok i ↔ v = encode i

/-- R93 and R94: an illegal word is accepted like any other, and the Core completes it with BAD_CMD,
reserved bits tested first; nothing but completion state changes. A legal word is dispatched. -/
def Obligations.IllegalWordCompletesWithBadCmd : Prop :=
  ∀ (s : State) (v : Word) (prog : List Stmt) (rest : List Turn),
    s.phase = .idle → s.program = wr .cmd v :: prog → s.schedule = .host :: .core :: rest →
    ∃ a, step s = .next a ∧ a.busy = true ∧ a.phase = .busy v
      ∧ (v.extractLsb' 8 24 ≠ 0#24 →
          step a = .next (State.completed { a with schedule := rest } 0#32 .badCmd
            { reason := 2#4, value := (v.extractLsb' 8 24).zeroExtend 28 }))
      ∧ (v.extractLsb' 8 24 = 0#24 → 0x08 < (v.extractLsb' 0 8).toNat →
          step a = .next (State.completed { a with schedule := rest } 0#32 .badCmd
            { reason := 1#4, value := (v.extractLsb' 0 8).zeroExtend 28 }))
      ∧ (v.extractLsb' 8 24 = 0#24 → (v.extractLsb' 0 8).toNat ≤ 0x08 →
          ∃ i, opcode i = v.extractLsb' 0 8 ∧ step a = exec i { a with schedule := rest })

/-! ### The command life cycle (10_state.md R31) -/

/-- A step runs the decoded command: when it is the Core's turn and PEND decodes to i, the step is
`exec i`, with the schedule moved on and nothing else around it. That a used-up schedule gives a BUSY
machine's turn to the Core is the model's choice (log 4), no rule's. -/
def Obligations.StepRunsDecodedCommand : Prop :=
  ∀ (s : State) (v : Word) (i : Instr), s.phase = .busy v → decode v = .ok i →
    (∀ rest, s.schedule = .core :: rest → step s = exec i { s with schedule := rest })
      ∧ (s.schedule = [] → step s = exec i s)

/-- Acceptance (R31): a Host write of v to CMD while IDLE sets CMD, PEND and BUSY, clears DONE and
ERR_CODE, and changes nothing else of HUFC; and the Core takes no step while IDLE. -/
def Obligations.CmdWriteAcceptsCommand : Prop :=
  ∀ (s : State) (v : Word) (prog : List Stmt) (rest : List Turn), s.phase = .idle →
    (s.program = wr .cmd v :: prog → s.schedule = .host :: rest →
      step s = .next { s with
        cmd := v, phase := .busy v, done := false, errCode := .noError
        program := prog, schedule := rest, replies := .written :: s.replies })
      ∧ (s.schedule = .core :: rest → step s = .next { s with schedule := rest })

/-- Every command completes in every state (R31): IDLE, DONE set, ERR_INFO 0 on success, a non-zero
REASON on error; and IN_LEN, IBUF, CMD, CTRL and the sticky flags, which no command writes, and the
agents' inputs are as before. -/
def Obligations.EveryCommandCompletes : Prop :=
  ∀ (i : Instr) (s : State), ∃ t, exec i s = .next t ∧ t.phase = .idle ∧ t.done = true
    ∧ (t.errCode = .noError → t.errInfo = noInfo) ∧ (t.errCode ≠ .noError → t.errInfo.reason ≠ 0#4)
    ∧ t.ie = s.ie ∧ t.cmdOvr = s.cmdOvr ∧ t.accErr = s.accErr ∧ t.cmd = s.cmd ∧ t.inLen = s.inLen
    ∧ t.ibuf = s.ibuf ∧ t.params = s.params ∧ t.program = s.program ∧ t.schedule = s.schedule
    ∧ t.replies = s.replies ∧ t.draws = s.draws

/-- A `wait` ends (R97, R281): after any k Host turns of polling, one Core step and one more poll, the
Host is past the `wait` and the Core is IDLE. The schedule names every turn, so no choice of the model's
for a used-up schedule (log 4) enters. -/
def Obligations.WaitEndsOnceTheCoreMoves : Prop :=
  ∀ (k : Nat) (s : State) (v : Word) (prog : List Stmt) (rest : List Turn), s.phase = .busy v →
    s.program = .waitIdle :: prog →
    s.schedule = List.replicate k .host ++ .core :: .host :: rest →
    ∃ t, Host.Core.run core (k + 2) s = .next t ∧ t.program = prog ∧ t.phase = .idle
      ∧ t.schedule = rest

/-- While a command runs, a Host step can change only CTRL.IE, DONE, the sticky flags and the Host's
own side: the command's inputs stand as at acceptance, and it cannot be cancelled (R74, R118, R271). -/
def Obligations.HostCannotDisturbARunningCommand : Prop :=
  ∀ (s : State) (v : Word), s.phase = .busy v →
    s.hostTurn = { s with
      ie := s.hostTurn.ie, done := s.hostTurn.done, cmdOvr := s.hostTurn.cmdOvr
      accErr := s.hostTurn.accErr, program := s.hostTurn.program
      replies := s.hostTurn.replies, draws := s.hostTurn.draws }

/-- Only what R246 lists: the (ERR_CODE, REASON) pairs each command can end with, NONE among them. -/
def Obligations.ErrorReasonsPerCommand : Prop :=
  ∀ (i : Instr) (s t : State), exec i s = .next t → t.errCode ≠ .noError →
    (t.errCode, t.errInfo.reason) ∈
      (match i with
        | .nop => []
        | .clear => []
        | .freqCount => [(.range, 1#4)]
        | .treeBuild => [(.capacity, 2#4)]
        | .codeGen => [(.sequence, 1#4)]
        | .pack => [(.sequence, 2#4), (.range, 1#4), (.integrity, 1#4), (.capacity, 1#4)]
        | .unpack =>
          [(.sequence, 2#4), (.range, 1#4), (.schema, 1#4), (.corrupt, 1#4), (.corrupt, 2#4),
            (.corrupt, 4#4), (.capacity, 1#4), (.corrupt, 3#4)]
        | .encode => [(.range, 1#4), (.capacity, 1#4)]
        | .decode =>
          [(.range, 1#4), (.schema, 2#4), (.corrupt, 1#4), (.corrupt, 2#4), (.capacity, 3#4),
            (.corrupt, 6#4), (.corrupt, 4#4), (.corrupt, 3#4), (.corrupt, 5#4)] :
        List (ErrCode × BitVec 4))

/-- "an error raised in a check phase leaves every table, buffer and result register unchanged
(OUT_LEN = 0)" (R247): the errors that only a check phase raises. -/
def Obligations.CheckPhaseErrorsChangeNothing : Prop :=
  ∀ (i : Instr) (s t : State), exec i s = .next t →
    (t.errCode = .integrity ∨ t.errCode = .schema ∨ t.errCode = .range ∨ t.errCode = .sequence
      ∨ (t.errCode = .capacity ∧ t.errInfo.reason ≠ 1#4)
      ∨ (t.errCode = .corrupt ∧ (t.errInfo.reason = 1#4 ∨ t.errInfo.reason = 2#4))) →
    t = s.completed 0#32 t.errCode t.errInfo

/-! ### NOP and CLEAR (40_host_interface.md) -/

/-- R121: NOP completes with nothing but completion state written; a word with opcode 0 and reserved
bits set is BAD_CMD instead; while BUSY it cannot be issued (R117; that the bus answers the dropped write
like any write is the model's reading, log 7); and R121's example. -/
def Obligations.NopCompletesWithNoEffect : Prop :=
  (∀ s : State, exec .nop s = .next (s.completed 0#32 .noError noInfo))
    ∧ (∀ (s : State) (v : Word), v.extractLsb' 0 8 = 0x00#8 → v.extractLsb' 8 24 ≠ 0#24 →
        ∃ t, execWord v s = .next t ∧ t.errCode = .badCmd ∧ t.errInfo.reason = 2#4)
    ∧ (∀ (s : State) (v : Word), s.phase = .busy v →
        s.hostAccess { size := .bits32, offset := 0x018, dir := .write 0x00000000#32 }
          = ({ s with cmdOvr := true }, .written))
    ∧ (∀ (s t : State), s.ie = true → s.treeValid = false → s.codeValid = false →
        s.cmdOvr = false → s.accErr = false → exec .nop s = .next t →
        t.statusWord = 0x00000082#32 ∧ t.irq = true)

/-- R122: CLEAR zeroes every table and result register and both validity flags, as the Host reads
them, and leaves the buffers, IN_LEN, CTRL and the sticky flags; and a TREE_BUILD then builds the
empty tree. -/
def Obligations.ClearZeroesTablesAndResults : Prop :=
  ∀ s : State, ∃ t, exec .clear s = .next t
    ∧ t = State.completed { s with
        freq := t.freq, codeLen := t.codeLen, codeBits := t.codeBits, node := t.node
        symCount := t.symCount, root := t.root, totalWeight := t.totalWeight
        totalBits := t.totalBits, padCount := t.padCount, treeValid := false, codeValid := false }
        0#32 .noError noInfo
    ∧ (∀ c w, t.idleRead (.freq c) = 0#32 ∧ t.idleRead (.codeLen c) = 0#32
        ∧ t.idleRead (.codeBits c w) = 0#32)
    ∧ (∀ i w, t.idleRead (.node i w) = 0#32)
    ∧ (∀ l ∈ [Loc.symCount, .root, .totalWeight, .totalBits, .padCount, .outLen, .errInfo],
        t.idleRead l = 0#32)
    ∧ (∃ u, exec .treeBuild t = .next u ∧ u.errCode = .noError ∧ u.root.valid = false
        ∧ u.symCount = 0#9)

/-! ### FREQ_COUNT (41_frequency_model.md) -/

/-- R140, R141: FREQ_COUNT makes FREQ[c] the number of input offsets holding c, clears both flags and
writes nothing else; IN_LEN above P_BUF_BYTES is RANGE with nothing written. -/
def Obligations.FreqCountCountsEverySymbol : Prop :=
  ∀ s : State,
    (s.inputLen ≤ s.params.bufBytes →
      ∃ t, exec .freqCount s = .next t
        ∧ t = State.completed { s with freq := t.freq, treeValid := false, codeValid := false }
            0#32 .noError noInfo
        ∧ ∀ c, (t.freqOf c).toNat
            = ((List.range s.inputLen).filter fun k => s.inByte k = c).length)
      ∧ (s.params.bufBytes < s.inputLen →
          exec .freqCount s = .next (s.completed 0#32 .range (infoOf 1#4 s.inputLen)))

/-! ### TREE_BUILD (42_tree_builder.md) -/

/-- R150, R153, R154: a weight sum above 2^32 − 1 is CAPACITY(2, 0) with nothing written; else NODE,
ROOT, SYM_COUNT, TOTAL_WEIGHT and the flags are written, and nothing else. The node words are those
`encode` of R154 gives. -/
def Obligations.TreeBuildChecksThenWritesTheTree : Prop :=
  ∀ s : State,
    (0xFFFFFFFF < sumSymbols (fun c => (s.freqOf c).toNat) →
      exec .treeBuild s = .next (s.completed 0#32 .capacity (infoOf 2#4 0)))
      ∧ (sumSymbols (fun c => (s.freqOf c).toNat) ≤ 0xFFFFFFFF →
          ∃ t, exec .treeBuild s = .next t
            ∧ t = State.completed { s with
                node := t.node, root := t.root, symCount := t.symCount
                totalWeight := t.totalWeight, treeValid := true, codeValid := false }
                0#32 .noError noInfo
            ∧ t.symCount.toNat = (alphabet s.freq).length
            ∧ t.root.word.toNat
                = (if alphabet s.freq = [] then 0 else 2 ^ 31 + (2 * (alphabet s.freq).length - 2))
            ∧ t.totalWeight.toNat = sumSymbols (fun c => (s.freqOf c).toNat)
            ∧ ∀ (i : Fin 511),
                (∀ c w, (buildTree s.freq)[i.val]? = some (.leaf c w) →
                  (t.idleRead (.node i 0#1)).toNat = w
                    ∧ (t.idleRead (.node i 1#1)).toNat = 2 ^ 31 + c.toNat)
                  ∧ (∀ w l r, (buildTree s.freq)[i.val]? = some (.internal w l r) →
                      (t.idleRead (.node i 0#1)).toNat = w
                        ∧ (t.idleRead (.node i 1#1)).toNat
                            = 2 ^ 31 + 2 ^ 30 + r * 2 ^ 18 + l * 2 ^ 9)
                  ∧ ((buildTree s.freq)[i.val]? = none →
                      t.idleRead (.node i 0#1) = 0#32 ∧ t.idleRead (.node i 1#1) = 0#32))

/-- R46, R151: the arena after a successful TREE_BUILD. With L symbols present, nodes 0 .. L−1 are the
leaves in ascending symbol order with their counts, nodes L .. 2L−2 the internal nodes, whose
children have smaller indices; the root is node 2L−2; every other existing node is the child of
exactly one internal node. -/
def Obligations.ArenaIsATree : Prop :=
  ∀ (s t : State) (L : Nat), exec .treeBuild s = .next t → t.errCode = .noError →
    L = (alphabet s.freq).length →
    (∀ (i : Nat) (h : i < 511), (t.node.at i h).valid = decide (i + 1 < 2 * L))
      ∧ (∀ (i : Nat) (h : i < 511), i + 1 < 2 * L → (t.node.at i h).internal = decide (L ≤ i))
      ∧ (∀ (i : Nat) (h : i < 511) (hi : i < (alphabet s.freq).length),
          (t.node.at i h).symbol = (alphabet s.freq)[i]
            ∧ (t.node.at i h).weight = s.freqOf (alphabet s.freq)[i])
      ∧ (∀ (i : Nat) (h : i < 511), L ≤ i → i + 1 < 2 * L →
          (t.node.at i h).left.toNat < i ∧ (t.node.at i h).right.toNat < i
            ∧ (t.node.at i h).left ≠ (t.node.at i h).right
            ∧ (t.node.at i h).weight.toNat
                = (t.nodeAt (t.node.at i h).left).weight.toNat
                    + (t.nodeAt (t.node.at i h).right).weight.toNat)
      ∧ (∀ j, j + 2 < 2 * L → ∃! i, ∃ h : i < 511, (t.node.at i h).internal = true
          ∧ ((t.node.at i h).left.toNat = j ∨ (t.node.at i h).right.toNat = j))
      ∧ (1 ≤ L → t.root = { valid := true, index := BitVec.ofNat 9 (2 * L - 2) })

/-- R152, R155: each merge removes the first and then the first remaining node in the order
`(WEIGHT, index)`; the first is the left child; the new weight is their sum; and the loop ends when
one node remains, the last one created. -/
def Obligations.EachMergeTakesTheTwoLowest : Prop :=
  ∀ f : Table Word 256,
    (∀ k w a b, (buildTree f)[k]? = some (.internal w a b) →
      a < k ∧ b < k ∧ w = weightAt (buildTree f) a + weightAt (buildTree f) b
        ∧ ¬ UsedBefore (buildTree f) k a ∧ ¬ UsedBefore (buildTree f) k b
        ∧ Before (buildTree f) a b
        ∧ ∀ i < k, ¬ UsedBefore (buildTree f) k i → i ≠ a → i ≠ b → Before (buildTree f) b i)
      ∧ (∀ i < (buildTree f).length,
          ¬ UsedBefore (buildTree f) (buildTree f).length i ↔ i + 1 = (buildTree f).length)

/-- R157, R174: with FREQ all zero TREE_BUILD succeeds with the empty tree, and CODE_GEN then gives
the empty code table. -/
def Obligations.EmptyAlphabetIsValid : Prop :=
  ∀ s : State, (∀ c, s.freqOf c = 0#32) →
    ∃ t u, exec .treeBuild s = .next t ∧ exec .codeGen t = .next u ∧ t.errCode = .noError
      ∧ t.root.word = 0#32 ∧ t.symCount = 0#9 ∧ t.totalWeight = 0#32 ∧ t.treeValid = true
      ∧ (∀ i w, t.idleRead (.node i w) = 0#32) ∧ u.errCode = .noError ∧ u.codeValid = true
      ∧ (∀ c w, u.codeLenOf c = 0 ∧ u.idleRead (.codeBits c w) = 0#32)

/-- R158, R173: with one present symbol c the leaf is the root, there is no internal node, and c's code
is the one bit "0". -/
def Obligations.SingleSymbolGetsOneBit : Prop :=
  ∀ (s : State) (c : Byte), s.freqOf c ≠ 0#32 → (∀ d, d ≠ c → s.freqOf d = 0#32) →
    ∃ t u, exec .treeBuild s = .next t ∧ exec .codeGen t = .next u ∧ t.errCode = .noError
      ∧ t.root.word = 0x80000000#32 ∧ t.symCount = 1#9
      ∧ t.idleRead (.node 0 0#1) = s.freqOf c
      ∧ t.idleRead (.node 0 1#1) = 0x80000000#32 ||| c.zeroExtend 32
      ∧ (∀ i : Fin 511, (t.node.at i.val i.isLt).internal = false) ∧ u.errCode = .noError
      ∧ u.codeOf c = [false] ∧ (u.codeLen.bySymbol c).toNat = 1
      ∧ u.idleRead (.codeBits c 0#3) = 0#32
      ∧ ∀ d, d ≠ c → u.codeLenOf d = 0

/-! ### CODE_GEN (43_code_table.md) -/

/-- R170: CODE_GEN without a valid tree is SEQUENCE(1, 0) with nothing written; with one it writes the
code tables and CODE_VALID, and nothing else. -/
def Obligations.CodeGenNeedsAValidTree : Prop :=
  ∀ s : State,
    (s.treeValid = false →
      exec .codeGen s = .next (s.completed 0#32 .sequence (infoOf 1#4 0)))
      ∧ (s.treeValid = true →
          ∃ t, exec .codeGen s = .next t
            ∧ t = State.completed
                { s with codeLen := t.codeLen, codeBits := t.codeBits, codeValid := true }
                0#32 .noError noInfo)

/-- R171: with two or more symbols, the code CODE_GEN gives a leaf's symbol is the path of edge labels
from the root to that leaf. The premise `TablesOk` holds of every reachable state. -/
def Obligations.CodesAreTreePaths : Prop :=
  ∀ (s t : State), TablesOk s → s.treeValid = true → 2 ≤ s.symCount.toNat →
    exec .codeGen s = .next t →
    ∀ i : BitVec 9, (s.nodeAt i).valid = true → (s.nodeAt i).internal = false →
      t.codeOf (s.nodeAt i).symbol ≠ []
        ∧ PathTo s.nodeAt s.root.index (t.codeOf (s.nodeAt i).symbol) i

/-- R176: in a valid code table exactly the present symbols have codes, of length at least 1, no code
is a prefix of another (so no two are equal), and the same tree always yields the same tables. -/
def Obligations.CodeTableIsPrefixFree : Prop :=
  ∀ s : State, TablesOk s → s.codeValid = true →
    (∀ c, 0 < s.codeLenOf c ↔ 0 < (s.freqOf c).toNat)
      ∧ (∀ c d, s.freqOf c ≠ 0#32 → s.freqOf d ≠ 0#32 → s.codeOf c <+: s.codeOf d → c = d)
      ∧ (∀ t : State, TablesOk t → t.codeValid = true → t.node = s.node → t.root = s.root →
          t.symCount = s.symCount → t.codeLen = s.codeLen ∧ t.codeBits = s.codeBits)

/-- R178: with two or more symbols the code is complete: the Kraft sum is 1, and every bit sequence
has exactly one code as a prefix or is a proper prefix of one. With one symbol the only code is "0"; with
none there is none. -/
def Obligations.CodeIsComplete : Prop :=
  ∀ s : State, TablesOk s → s.codeValid = true →
    (2 ≤ (alphabet s.freq).length →
      ((alphabet s.freq).map fun c => 2 ^ (255 - s.codeLenOf c)).sum = 2 ^ 255
        ∧ ∀ b : Bits, (∃! c, c ∈ alphabet s.freq ∧ s.codeOf c <+: b)
            ∨ ∃ c ∈ alphabet s.freq, b <+: s.codeOf c ∧ b ≠ s.codeOf c)
      ∧ (∀ c, alphabet s.freq = [c] → s.codeOf c = [false])
      ∧ (alphabet s.freq = [] → ∀ c, s.codeOf c = [])

/-- R159: with two or more symbols the weighted path length equals the sum of the internal nodes'
weights. -/
def Obligations.WeightedPathLengthIsInternalWeight : Prop :=
  ∀ s : State, TablesOk s → s.codeValid = true → 2 ≤ (alphabet s.freq).length →
    sumSymbols (fun c => (s.freqOf c).toNat * s.codeLenOf c)
      = (((buildTree s.freq).drop (alphabet s.freq).length).map TreeNode.weight).sum

/-! ### PACK (44_bitstream_encoder.md) -/

/-- R185, R189: PACK's checks in order, each leaving everything but completion state unchanged. -/
def Obligations.PackChecksInOrder : Prop :=
  ∀ (s : State) (m : Nat), m = ((List.range s.inputLen).map fun k => s.codeLenOf (s.inByte k)).sum →
    (s.codeValid = false → exec .pack s = .next (s.completed 0#32 .sequence (infoOf 2#4 0)))
      ∧ (s.codeValid = true → s.params.bufBytes < s.inputLen →
          exec .pack s = .next (s.completed 0#32 .range (infoOf 1#4 s.inputLen)))
      ∧ (s.codeValid = true → s.inputLen ≤ s.params.bufBytes → ∀ k < s.inputLen,
          s.codeLenOf (s.inByte k) = 0 → (∀ j < k, s.codeLenOf (s.inByte j) ≠ 0) →
          exec .pack s = .next (s.completed 0#32 .integrity (infoOf 1#4 k)))
      ∧ (s.codeValid = true → s.inputLen ≤ s.params.bufBytes →
          (∀ k < s.inputLen, s.codeLenOf (s.inByte k) ≠ 0) →
          s.params.bufBytes < 1 + (m + 7) / 8 →
          exec .pack s = .next (s.completed 0#32 .capacity (infoOf 1#4 (1 + (m + 7) / 8))))

/-- R185 to R188, R190: when PACK's checks pass it writes the pad count and the input's codes, most
significant bit first and padded with zeros, from OBUF[0] on, TOTAL_BITS and PAD_COUNT, and no other
byte or register. -/
def Obligations.PackWritesThePaddedStream : Prop :=
  ∀ (s : State) (t' : Bits) (nbytes : Nat), MemoryOk s → s.codeValid = true →
    s.inputLen ≤ s.params.bufBytes → (∀ k < s.inputLen, s.codeLenOf (s.inByte k) ≠ 0) →
    t' = (List.range s.inputLen).flatMap (fun k => s.codeOf (s.inByte k)) →
    nbytes = (t'.length + 7) / 8 → 1 + nbytes ≤ s.params.bufBytes →
    ∃ t, exec .pack s = .next t
      ∧ t = State.completed { s with
          obuf := t.obuf, totalBits := BitVec.ofNat 32 t'.length
          padCount := BitVec.ofNat 3 (8 * nbytes - t'.length) }
          (BitVec.ofNat 32 (1 + nbytes)) .noError noInfo
      ∧ t'.length = sumSymbols (fun c =>
          ((List.range s.inputLen).filter fun k => s.inByte k = c).length * s.codeLenOf c)
      ∧ 8 * nbytes - (t.outByte 0).toNat = t'.length ∧ (t.outByte 0).toNat ≤ 7
      ∧ t.padCount.toNat = (t.outByte 0).toNat ∧ t.totalBits.toNat = t'.length
      ∧ (∀ j < nbytes, ∀ i < 8,
          (t.outByte (1 + j)).getLsbD (7 - i) = t'.getD (8 * j + i) false)
      ∧ ∀ a, 1 + nbytes ≤ a → t.outByte a = s.outByte a

/-! ### UNPACK (45_bitstream_decoder.md) -/

/-- R200, R201: UNPACK's checks in order, each leaving everything but completion state unchanged. -/
def Obligations.UnpackChecksInOrder : Prop :=
  ∀ s : State,
    (s.codeValid = false → exec .unpack s = .next (s.completed 0#32 .sequence (infoOf 2#4 0)))
      ∧ (s.codeValid = true → s.params.bufBytes < s.inputLen →
          exec .unpack s = .next (s.completed 0#32 .range (infoOf 1#4 s.inputLen)))
      ∧ (s.codeValid = true → s.inputLen = 0 →
          exec .unpack s = .next (s.completed 0#32 .schema (infoOf 1#4 0)))
      ∧ (s.codeValid = true → 0 < s.inputLen → s.inputLen ≤ s.params.bufBytes →
          (7 < (s.inByte 0).toNat → exec .unpack s
              = .next (s.completed 0#32 .corrupt (infoOf 1#4 (s.inByte 0).toNat)))
            ∧ ((s.inByte 0).toNat ≤ 7 → 8 * (s.inputLen - 1) < (s.inByte 0).toNat →
                exec .unpack s
                  = .next (s.completed 0#32 .corrupt (infoOf 2#4 (s.inByte 0).toNat))))

/-- R200: past its checks UNPACK writes TOTAL_BITS, PAD_COUNT, OUT_LEN and OBUF[0 .. OUT_LEN−1], and no
other byte or register, whether it succeeds or not. -/
def Obligations.UnpackFrame : Prop :=
  ∀ (s : State) (nbits : Nat), MemoryOk s → s.codeValid = true → 0 < s.inputLen →
    s.inputLen ≤ s.params.bufBytes → (s.inByte 0).toNat ≤ 7 →
    nbits + (s.inByte 0).toNat = 8 * (s.inputLen - 1) →
    ∃ t, exec .unpack s = .next t
      ∧ t = State.completed { s with
          obuf := t.obuf, totalBits := BitVec.ofNat 32 nbits
          padCount := (s.inByte 0).setWidth 3 } t.outLen t.errCode t.errInfo
      ∧ t.outLen.toNat ≤ s.params.bufBytes
      ∧ (t.errCode = .noError ∨ t.errCode = .corrupt ∨ t.errCode = .capacity)
      ∧ ∀ a, t.outLen.toNat ≤ a → t.outByte a = s.outByte a

/-- R203 to R206: with valid tables and a well-formed header, UNPACK succeeds with output b exactly
when the stream is the concatenation of b's codes and b fits OBUF. LEFTOVER: the stream is the output's
codes followed by an unmatched candidate, VALUE its length. DEAD_END: only with at most one symbol, at
the first bit no code can take. CAPACITY: OBUF is full and the stream has the code of one more symbol,
VALUE P_BUF_BYTES + 1 (R246). -/
def Obligations.UnpackDecodesTheStream : Prop :=
  ∀ (s : State) (nbits : Nat), MemoryOk s → TablesOk s → s.codeValid = true → 0 < s.inputLen →
    s.inputLen ≤ s.params.bufBytes → (s.inByte 0).toNat ≤ 7 →
    nbits + (s.inByte 0).toNat = 8 * (s.inputLen - 1) →
    (∀ b : List Byte, (∀ c ∈ b, s.freqOf c ≠ 0#32) → b.length ≤ s.params.bufBytes →
      s.codesOf b = s.inBits 1 nbits →
      ∃ t, exec .unpack s = .next t ∧ t.errCode = .noError ∧ t.outLen.toNat = b.length
        ∧ ∀ k (h : k < b.length), t.outByte k = b[k])
      ∧ (∀ t b, exec .unpack s = .next t → b = (List.range t.outLen.toNat).map t.outByte →
          (∀ c ∈ b, s.freqOf c ≠ 0#32)
            ∧ (t.errCode = .noError → s.codesOf b = s.inBits 1 nbits)
            ∧ (t.errCode = .corrupt → t.errInfo.reason = 3#4 →
                ∃ rest, s.codesOf b ++ rest = s.inBits 1 nbits ∧ 0 < rest.length
                  ∧ rest.length = t.errInfo.value.toNat
                  ∧ ∀ c, s.freqOf c ≠ 0#32 → ¬ s.codeOf c <+: rest)
            ∧ (t.errCode = .corrupt → t.errInfo.reason = 4#4 →
                (alphabet s.freq).length ≤ 1
                  ∧ s.codesOf b = (s.inBits 1 nbits).take t.errInfo.value.toNat
                  ∧ t.errInfo.value.toNat < nbits
                  ∧ ((alphabet s.freq).length = 1 →
                      (s.inBits 1 nbits)[t.errInfo.value.toNat]? = some true))
            ∧ (t.errCode = .capacity →
                b.length = s.params.bufBytes ∧ s.codesOf b <+: s.inBits 1 nbits
                  ∧ (∃ c, s.freqOf c ≠ 0#32 ∧ s.codesOf (b ++ [c]) <+: s.inBits 1 nbits)
                  ∧ t.errInfo = infoOf 1#4 (s.params.bufBytes + 1)))

/-- R207, the round trip of the codec stages: an UNPACK of PACK's output under the same tables returns
PACK's input. -/
def Obligations.UnpackInvertsPack : Prop :=
  ∀ (s t u : State), MemoryOk s → MemoryOk u → TablesOk s → s.codeValid = true →
    exec .pack s = .next t → t.errCode = .noError → SameTables s u →
    CopiedInput t u t.outLen.toNat →
    ∃ w, exec .unpack u = .next w ∧ w.errCode = .noError ∧ w.outLen.toNat = s.inputLen
      ∧ ∀ k < s.inputLen, w.outByte k = s.inByte k

/-! ### ENCODE and DECODE (46_container.md) -/

/-- R221: ENCODE's errors. RANGE changes nothing but completion state. Otherwise the tables are those of
the input's counts, and `need` is 1025 + nbytes, nbytes being the packed length of their codes (R186,
R187); CAPACITY, when `need` exceeds P_BUF_BYTES, records `need` and leaves the new tables and flags and no
byte of OBUF changed; else ENCODE succeeds with OUT_LEN = need. `State.containerLen` is that length. -/
def Obligations.EncodeErrors : Prop :=
  ∀ s : State,
    (s.params.bufBytes < s.inputLen →
      exec .encode s = .next (s.completed 0#32 .range (infoOf 1#4 s.inputLen)))
      ∧ (s.inputLen ≤ s.params.bufBytes →
          ∃ (t : State) (need : Nat), exec .encode s = .next t
            ∧ need
                = 1025 + (sumSymbols (fun c => (t.freqOf c).toNat * t.codeLenOf c) + 7) / 8
            ∧ s.containerLen = need ∧ TablesOk t ∧ t.codeValid = true
            ∧ (∀ c, (t.freqOf c).toNat
                = ((List.range s.inputLen).filter fun k => s.inByte k = c).length)
            ∧ (s.params.bufBytes < need →
                t = State.completed { s with
                  freq := t.freq, node := t.node, root := t.root, symCount := t.symCount
                  totalWeight := t.totalWeight, codeLen := t.codeLen, codeBits := t.codeBits
                  treeValid := true, codeValid := true }
                  0#32 .capacity (infoOf 1#4 need))
            ∧ (need ≤ s.params.bufBytes → t.errCode = .noError ∧ t.outLen.toNat = need))

/-- R221, R220, R224: when the Container fits, ENCODE is the pipeline FREQ_COUNT, TREE_BUILD, CODE_GEN,
PACK, none of which fails: it leaves their tables, writes the 256 counts little-endian at OBUF[0 .. 1023]
and PACK's payload from OBUF[1024] on, and no other byte. -/
def Obligations.EncodeIsThePipeline : Prop :=
  ∀ s : State, MemoryOk s → s.inputLen ≤ s.params.bufBytes → s.containerLen ≤ s.params.bufBytes →
    ∃ t f b g p, exec .encode s = .next t ∧ exec .freqCount s = .next f
      ∧ exec .treeBuild f = .next b ∧ exec .codeGen b = .next g ∧ exec .pack g = .next p
      ∧ f.errCode = .noError ∧ b.errCode = .noError ∧ g.errCode = .noError ∧ p.errCode = .noError
      ∧ t = State.completed { g with
          obuf := t.obuf, totalBits := p.totalBits, padCount := p.padCount }
          (BitVec.ofNat 32 s.containerLen) .noError noInfo
      ∧ s.containerLen = 1024 + p.outLen.toNat
      ∧ (∀ (c : Byte) (i : Nat), i < 4 →
          t.outByte (4 * c.toNat + i) = (t.freqOf c).extractLsb' (8 * i) 8)
      ∧ (∀ k < p.outLen.toNat, t.outByte (1024 + k) = p.outByte k)
      ∧ ∀ a, s.containerLen ≤ a → t.outByte a = s.outByte a

/-- R191: when the code table was built from the counts of the same input, the packed bit length is
the sum over the alphabet of count times code length, and at most 8 bits a byte; for PACK and for
ENCODE, whose table always is. -/
def Obligations.EncodedBitLengthLaw : Prop :=
  ∀ (i : Instr) (s t : State), i = .pack ∨ i = .encode → TablesOk s →
    (i = .pack → ∀ c, (s.freqOf c).toNat
      = ((List.range s.inputLen).filter fun k => s.inByte k = c).length) →
    exec i s = .next t → t.errCode = .noError →
    t.totalBits.toNat = sumSymbols (fun c => (t.freqOf c).toNat * t.codeLenOf c)
      ∧ t.totalBits.toNat ≤ 8 * s.inputLen

/-- R225, the guaranteed domain: ENCODE never fails for IN_LEN ≤ P_BUF_BYTES − 1025; up to P_BUF_BYTES
it succeeds exactly when the Container fits (1025 bytes and the packed codes of its own tables) and
otherwise completes with CAPACITY; above, with RANGE. -/
def Obligations.EncodeGuaranteedDomain : Prop :=
  ∀ s : State, ∃ t, exec .encode s = .next t
    ∧ (s.inputLen + 1025 ≤ s.params.bufBytes → t.errCode = .noError)
    ∧ (s.inputLen ≤ s.params.bufBytes →
        (t.errCode = .noError
            ↔ 1025 + (sumSymbols (fun c => (t.freqOf c).toNat * t.codeLenOf c) + 7) / 8
                ≤ s.params.bufBytes)
          ∧ (t.errCode ≠ .noError → t.errCode = .capacity))
    ∧ (s.params.bufBytes < s.inputLen → t.errCode = .range)

/-- R226, R227: DECODE's checks in order, each leaving everything but completion state unchanged. -/
def Obligations.DecodeChecksInOrder : Prop :=
  ∀ (s : State) (n : Nat),
    n = ((List.range 256).map fun c =>
      (Memory.readWord s.ibuf (4 * c)).toNat).sum →
    (s.params.bufBytes < s.inputLen →
      exec .decode s = .next (s.completed 0#32 .range (infoOf 1#4 s.inputLen)))
      ∧ (s.inputLen < 1025 →
          exec .decode s = .next (s.completed 0#32 .schema (infoOf 2#4 s.inputLen)))
      ∧ (1025 ≤ s.inputLen → s.inputLen ≤ s.params.bufBytes →
          (7 < (s.inByte 1024).toNat → exec .decode s
              = .next (s.completed 0#32 .corrupt (infoOf 1#4 (s.inByte 1024).toNat)))
            ∧ ((s.inByte 1024).toNat ≤ 7 → 8 * (s.inputLen - 1025) < (s.inByte 1024).toNat →
                exec .decode s
                  = .next (s.completed 0#32 .corrupt (infoOf 2#4 (s.inByte 1024).toNat)))
            ∧ ((s.inByte 1024).toNat ≤ 7 → (s.inByte 1024).toNat ≤ 8 * (s.inputLen - 1025) →
                s.params.bufBytes < n →
                exec .decode s = .next (s.completed 0#32 .capacity (infoOf 3#4 n))))

/-- R226, R228, R229: past its checks DECODE loads the Container's counts, rebuilds the tree and the
codes, writes TOTAL_BITS and PAD_COUNT and the decoded bytes, and nothing else; it succeeds exactly when the
payload's bits are the codes of N symbols, N the sum of the counts, and then OUT_LEN = N; otherwise it
ends with CORRUPT. The outcome bit by bit (R203, R205, R206, R246, R251): the payload's bits are the
output's codes, then `rest`. After N symbols a bit of `rest` is TRAILING at its index, whatever it is. With
fewer, no code begins `rest`, and the end is LEFTOVER with the candidate's length before SHORT with the
number emitted, or with one symbol DEAD_END at the index of the 1 bit. -/
def Obligations.DecodeRebuildsAndDecodes : Prop :=
  ∀ (s : State) (n nbits : Nat), MemoryOk s →
    n = ((List.range 256).map fun c => (Memory.readWord s.ibuf (4 * c)).toNat).sum →
    1025 ≤ s.inputLen → s.inputLen ≤ s.params.bufBytes → (s.inByte 1024).toNat ≤ 7 →
    nbits + (s.inByte 1024).toNat = 8 * (s.inputLen - 1025) → n ≤ s.params.bufBytes →
    ∃ t, exec .decode s = .next t
      ∧ t = State.completed { s with
          freq := t.freq, node := t.node, root := t.root, symCount := t.symCount
          totalWeight := t.totalWeight, codeLen := t.codeLen, codeBits := t.codeBits
          treeValid := true, codeValid := true, obuf := t.obuf
          totalBits := BitVec.ofNat 32 nbits, padCount := (s.inByte 1024).setWidth 3 }
          t.outLen t.errCode t.errInfo
      ∧ TablesOk t ∧ (∀ c, t.freqOf c = Memory.readWord s.ibuf (4 * c.toNat))
      ∧ (t.errCode = .noError ∨ t.errCode = .corrupt)
      ∧ (t.errCode = .noError ↔ ∃ b : List Byte, b.length = n ∧ (∀ c ∈ b, t.freqOf c ≠ 0#32)
          ∧ t.codesOf b = s.inBits 1025 nbits)
      ∧ (∀ b : List Byte, b.length = n → (∀ c ∈ b, t.freqOf c ≠ 0#32) →
          t.codesOf b = s.inBits 1025 nbits →
          t.outLen.toNat = n ∧ ∀ k (h : k < b.length), t.outByte k = b[k])
      ∧ t.outLen.toNat ≤ n ∧ (∀ a, t.outLen.toNat ≤ a → t.outByte a = s.outByte a)
      ∧ ∃ (b : List Byte) (rest : Bits), t.codesOf b ++ rest = s.inBits 1025 nbits
          ∧ (∀ c ∈ b, t.freqOf c ≠ 0#32) ∧ t.outLen.toNat = b.length
          ∧ (∀ k (h : k < b.length), t.outByte k = b[k])
          ∧ (b.length = n → rest = [] → t.errCode = .noError ∧ t.errInfo = noInfo)
          ∧ (b.length = n → rest ≠ [] →
              t.errCode = .corrupt ∧ t.errInfo = infoOf 6#4 (t.codesOf b).length)
          ∧ (b.length < n → ∀ c, t.freqOf c ≠ 0#32 → ¬ t.codeOf c <+: rest)
          ∧ (b.length < n → rest ≠ [] → (alphabet t.freq).length = 1 →
              rest.head? = some true ∧ t.errCode = .corrupt
                ∧ t.errInfo = infoOf 4#4 (t.codesOf b).length)
          ∧ (b.length < n → rest ≠ [] → 2 ≤ (alphabet t.freq).length →
              t.errCode = .corrupt ∧ t.errInfo = infoOf 3#4 rest.length)
          ∧ (b.length < n → rest = [] →
              t.errCode = .corrupt ∧ t.errInfo = infoOf 5#4 b.length)

/-- R230, the round trip: DECODE of the Container ENCODE wrote returns ENCODE's input. -/
def Obligations.DecodeInvertsEncode : Prop :=
  ∀ (s t u : State), MemoryOk s → MemoryOk u → exec .encode s = .next t → t.errCode = .noError →
    CopiedInput t u t.outLen.toNat →
    ∃ w, exec .decode u = .next w ∧ w.errCode = .noError ∧ w.outLen.toNat = s.inputLen
      ∧ ∀ k < s.inputLen, w.outByte k = s.inByte k

/-- R229: a Container ENCODE wrote from a non-empty input, less its last byte, is refused by DECODE
with CORRUPT, reason 2, 3 or 5; from the empty input, with SCHEMA, reason 2. -/
def Obligations.TruncatedContainerIsRefused : Prop :=
  ∀ (s t u : State), MemoryOk s → MemoryOk u → exec .encode s = .next t → t.errCode = .noError →
    CopiedInput t u (t.outLen.toNat - 1) →
    ∃ w, exec .decode u = .next w
      ∧ (0 < s.inputLen → w.errCode = .corrupt
          ∧ (w.errInfo.reason = 2#4 ∨ w.errInfo.reason = 3#4 ∨ w.errInfo.reason = 5#4))
      ∧ (s.inputLen = 0 → w.errCode = .schema ∧ w.errInfo.reason = 2#4)

/-- R231: what ENCODE and DECODE report and output is a function of the input (and P_BUF_BYTES) alone,
whatever the tables, flags and buffers held before; on success so are all tables. -/
def Obligations.EncodeAndDecodeDependOnTheInputOnly : Prop :=
  ∀ (i : Instr) (s t s' t' : State), i = .encode ∨ i = .decode → MemoryOk s → MemoryOk s' →
    SameInput s s' → exec i s = .next t → exec i s' = .next t' →
    t'.errCode = t.errCode ∧ t'.errInfo = t.errInfo ∧ t'.outLen = t.outLen
      ∧ (∀ k < t.outLen.toNat, t'.outByte k = t.outByte k)
      ∧ (t.errCode = .noError → t'.freq = t.freq ∧ SameTables t t' ∧ t'.codeLen = t.codeLen
          ∧ t'.codeBits = t.codeBits ∧ t'.totalBits = t.totalBits ∧ t'.padCount = t.padCount
          ∧ t'.totalWeight = t.totalWeight ∧ t'.treeValid = t.treeValid)

/-! ### Invariants of every step -/

/-- Every step keeps both buffers in canonical form and inside P_BUF_BYTES. -/
def Obligations.EveryStepKeepsMemoryOk : Prop :=
  ∀ s t : State, MemoryOk s → step s = .next t → MemoryOk t

/-- Every step keeps what TREE_VALID and CODE_VALID assert, and that CODE_VALID implies TREE_VALID
(R37). -/
def Obligations.EveryStepKeepsTablesOk : Prop :=
  ∀ s t : State, TablesOk s → step s = .next t → TablesOk t

/-- Every step keeps the control invariant: while BUSY, PEND is CMD, DONE and ERR_CODE are clear (R31);
when IDLE without error ERR_INFO is 0 (R29); OUT_LEN never exceeds P_BUF_BYTES. -/
def Obligations.EveryStepKeepsControlOk : Prop :=
  ∀ s t : State, ControlOk s → step s = .next t → ControlOk t

/-- The three invariants hold after reset, whatever the parameters, the storage contents, the host
program and the schedule; and so of every reachable state. -/
def Obligations.ReachableStatesAreOk : Prop :=
  (∀ p d prog sched, MemoryOk (State.start p d prog sched) ∧ TablesOk (State.start p d prog sched)
      ∧ ControlOk (State.start p d prog sched))
    ∧ ∀ s, Reachable s → MemoryOk s ∧ TablesOk s ∧ ControlOk s

/-- BUF_CAP and the platform parameters are constants: no step changes them (R7, R23). -/
def Obligations.ParametersNeverChange : Prop :=
  ∀ s t : State, step s = .next t → t.params = s.params

/-- R142, R37: FREQ changes only by the hardware reset, an accepted Host write, or FREQ_COUNT, ENCODE,
DECODE or CLEAR; all but the two pipelines leave TREE_VALID and CODE_VALID 0. -/
def Obligations.WhatChangesFreq : Prop :=
  ∀ s t : State, step s = .next t → t.freq ≠ s.freq →
    (t.treeValid = false ∧ t.codeValid = false
        ∧ ((∃ d rest, s.schedule = .reset d :: rest)
          ∨ (s.phase = .idle ∧ ∃ c v prog, s.program = wr (.freq c) v :: prog)
          ∨ s.phase = .busy (encode .clear) ∨ s.phase = .busy (encode .freqCount)))
      ∨ (t.treeValid = true ∧ t.codeValid = true
          ∧ (s.phase = .busy (encode .encode) ∨ s.phase = .busy (encode .decode)))

/-- "The Core never writes IBUF" (R50) and "No command writes IN_LEN" (R27): they change only by the
hardware reset or an accepted Host write to them. -/
def Obligations.WhatChangesTheInput : Prop :=
  ∀ s t : State, step s = .next t → (t.ibuf ≠ s.ibuf ∨ t.inLen ≠ s.inLen) →
    (∃ d rest, s.schedule = .reset d :: rest)
      ∨ (s.phase = .idle ∧ ∃ l v prog, s.program = wr l v :: prog ∧ (l = .inLen ∨ ∃ j, l = .ibuf j))

/-! ### The Host window (20_memory.md, 40_host_interface.md) -/

/-- R64: the address map, with its numbers. Every location the configuration has is reached at its
offset, which is word aligned, every mapped aligned offset is the offset of the location it reaches, and
each register, table word and buffer word is reached at the number R64 gives it. -/
def Obligations.AddressMapRoundTrip : Prop :=
  ∀ p : Config.Params,
    (∀ l : Loc, l.mapped p.bufBytes = true →
      l.offset % 4 = 0 ∧ l.offset < 0x03000000 ∧ Loc.ofOffset p.bufBytes l.offset = some l)
      ∧ (∀ (a : Nat) (l : Loc), a % 4 = 0 → Loc.ofOffset p.bufBytes a = some l →
          l.offset = a ∧ l.mapped p.bufBytes = true)
      ∧ Loc.ofOffset p.bufBytes 0x000 = some .id ∧ Loc.ofOffset p.bufBytes 0x004 = some .bufCap
      ∧ Loc.ofOffset p.bufBytes 0x010 = some .ctrl ∧ Loc.ofOffset p.bufBytes 0x014 = some .status
      ∧ Loc.ofOffset p.bufBytes 0x018 = some .cmd ∧ Loc.ofOffset p.bufBytes 0x01C = some .inLen
      ∧ Loc.ofOffset p.bufBytes 0x020 = some .outLen
      ∧ Loc.ofOffset p.bufBytes 0x024 = some .errInfo
      ∧ Loc.ofOffset p.bufBytes 0x028 = some .symCount
      ∧ Loc.ofOffset p.bufBytes 0x02C = some .root
      ∧ Loc.ofOffset p.bufBytes 0x030 = some .totalBits
      ∧ Loc.ofOffset p.bufBytes 0x034 = some .padCount
      ∧ Loc.ofOffset p.bufBytes 0x038 = some .totalWeight
      ∧ (∀ c : Byte, Loc.ofOffset p.bufBytes (0x1000 + 4 * c.toNat) = some (.freq c)
          ∧ Loc.ofOffset p.bufBytes (0x1400 + 4 * c.toNat) = some (.codeLen c))
      ∧ (∀ (c : Byte) (w : BitVec 3),
          Loc.ofOffset p.bufBytes (0x2000 + 32 * c.toNat + 4 * w.toNat) = some (.codeBits c w))
      ∧ (∀ (i : Fin 511) (w : BitVec 1),
          Loc.ofOffset p.bufBytes (0x4000 + 8 * i.val + 4 * w.toNat) = some (.node i w))
      ∧ (∀ j : Nat, 4 * j < p.bufBytes →
          Loc.ofOffset p.bufBytes (0x01000000 + 4 * j) = some (.ibuf j)
            ∧ Loc.ofOffset p.bufBytes (0x02000000 + 4 * j) = some (.obuf j))

/-- R65, R66, R110, R113: an access is answered with a bus error exactly when it is not 32 bits wide,
not aligned, at an unmapped offset, or a write to one of the locations R113 lists, in either phase; it
then changes nothing, and it ends the host program (R282). That a write dropped while BUSY is no bus
error, and that the program ends by the loss of its other statements, is the model's reading (log 7). -/
def Obligations.BusErrorsExactlyWhenIllegal : Prop :=
  ∀ (s : State) (a : Access),
    ((s.hostAccess a).2 = .busError ↔
      a.size ≠ .bits32 ∨ a.offset % 4 ≠ 0
        ∨ (∀ l : Loc, l.mapped s.params.bufBytes = true → l.offset ≠ a.offset)
        ∨ (a.dir ≠ .read ∧ ∃ l : Loc, l.offset = a.offset
            ∧ (l ∈ [Loc.id, .bufCap, .outLen, .errInfo, .symCount, .root, .totalBits, .padCount,
                  .totalWeight]
              ∨ (∃ c, l = .codeLen c) ∨ (∃ c w, l = .codeBits c w) ∨ ∃ i w, l = .node i w)))
      ∧ ((s.hostAccess a).2 = .busError → (s.hostAccess a).1 = s
          ∧ ∀ prog, s.program = .access a :: prog →
              s.hostTurn = { s with program := [], replies := .busError :: s.replies })

/-- R25: the fields of STATUS as read, ERR_CODE by the numbers of R245, and a write of w to STATUS in either phase: it clears DONE, CMD_OVR
and ACC_ERR where w has a 1, changes nothing else and is never a bus error. -/
def Obligations.StatusRegister : Prop :=
  ∀ (s : State) (w : Word),
    (s.statusWord.getLsbD 0 = true ↔ s.phase ≠ .idle) ∧ s.statusWord.getLsbD 1 = s.done
      ∧ (s.statusWord.getLsbD 2 = true ↔ s.errCode ≠ .noError)
      ∧ s.statusWord.getLsbD 3 = s.treeValid ∧ s.statusWord.getLsbD 4 = s.codeValid
      ∧ s.statusWord.getLsbD 5 = s.cmdOvr ∧ s.statusWord.getLsbD 6 = s.accErr
      ∧ s.statusWord.getLsbD 7 = (s.ie && s.done)
      ∧ (s.errCode = .noError → s.statusWord.extractLsb' 8 4 = 0#4)
      ∧ (s.errCode = .integrity → s.statusWord.extractLsb' 8 4 = 1#4)
      ∧ (s.errCode = .corrupt → s.statusWord.extractLsb' 8 4 = 2#4)
      ∧ (s.errCode = .schema → s.statusWord.extractLsb' 8 4 = 3#4)
      ∧ (s.errCode = .capacity → s.statusWord.extractLsb' 8 4 = 4#4)
      ∧ (s.errCode = .range → s.statusWord.extractLsb' 8 4 = 5#4)
      ∧ (s.errCode = .badCmd → s.statusWord.extractLsb' 8 4 = 6#4)
      ∧ (s.errCode = .sequence → s.statusWord.extractLsb' 8 4 = 7#4)
      ∧ s.statusWord.extractLsb' 8 4 = s.errCode.number ∧ s.errCode.number.toNat ≤ 7
      ∧ s.statusWord.extractLsb' 12 20 = 0#20
      ∧ s.hostAccess { size := .bits32, offset := 0x014, dir := .write w }
          = ({ s with
              done := s.done && !w.getLsbD 1, cmdOvr := s.cmdOvr && !w.getLsbD 5
              accErr := s.accErr && !w.getLsbD 6 }, .written)
      ∧ s.hostAccess { size := .bits32, offset := 0x014, dir := .read }
          = (s, .value s.statusWord)

/-- R111: an idle read of a register or table word returns its fields, reserved bits 0, and changes
nothing (R68). That bits [29:27] and [8] of NODE word 1 read 0 right after reset too, where R45 and R270
make the word a draw, is the model's reading (log 6). -/
def Obligations.IdleReadsReturnTheRegisters : Prop :=
  ∀ s : State, s.phase = .idle →
    (∀ l : Loc, l.mapped s.params.bufBytes = true →
      s.hostAccess { size := .bits32, offset := l.offset, dir := .read }
        = (s, .value (s.idleRead l)))
      ∧ (s.idleRead .id).toNat = 0x48554631 ∧ (s.idleRead .bufCap).toNat = s.params.bufBytes
      ∧ (s.idleRead .ctrl).toNat = s.ie.toNat ∧ s.idleRead .cmd = s.cmd
      ∧ s.idleRead .inLen = s.inLen ∧ s.idleRead .outLen = s.outLen
      ∧ (s.idleRead .errInfo).toNat = s.errInfo.reason.toNat * 2 ^ 28 + s.errInfo.value.toNat
      ∧ (s.idleRead .symCount).toNat = s.symCount.toNat
      ∧ (s.idleRead .root).toNat = s.root.valid.toNat * 2 ^ 31 + s.root.index.toNat
      ∧ s.idleRead .totalBits = s.totalBits ∧ (s.idleRead .padCount).toNat = s.padCount.toNat
      ∧ s.idleRead .totalWeight = s.totalWeight
      ∧ (∀ c, s.idleRead (.freq c) = s.freqOf c ∧ (s.idleRead (.codeLen c)).toNat = s.codeLenOf c)
      ∧ (∀ c k, k < 256 → (s.codeBits.bySymbol c).getLsbD k
          = (s.idleRead (.codeBits c (BitVec.ofNat 3 (k / 32)))).getLsbD (k % 32))
      ∧ (∀ i : Fin 511, s.idleRead (.node i 0#1) = (s.node.at i.val i.isLt).weight
          ∧ (s.idleRead (.node i 1#1)).toNat
              = (s.node.at i.val i.isLt).valid.toNat * 2 ^ 31
                + (s.node.at i.val i.isLt).internal.toNat * 2 ^ 30
                + (s.node.at i.val i.isLt).right.toNat * 2 ^ 18
                + (s.node.at i.val i.isLt).left.toNat * 2 ^ 9
                + (s.node.at i.val i.isLt).symbol.toNat)

/-- R62, R112: an idle read of word j of IBUF or OBUF carries byte 4j+i in bits [8i+7 : 8i]; an idle
write puts the word's bytes there in the same order and changes nothing else. -/
def Obligations.BufferWordsAreLittleEndian : Prop :=
  ∀ (s : State) (j : Nat) (v : Word), MemoryOk s → s.phase = .idle → 4 * j < s.params.bufBytes →
    (∃ u, s.hostAccess { size := .bits32, offset := 0x01000000 + 4 * j, dir := .read }
        = (s, .value u) ∧ ∀ i < 4, u.extractLsb' (8 * i) 8 = s.inByte (4 * j + i))
      ∧ (∃ u, s.hostAccess { size := .bits32, offset := 0x02000000 + 4 * j, dir := .read }
          = (s, .value u) ∧ ∀ i < 4, u.extractLsb' (8 * i) 8 = s.outByte (4 * j + i))
      ∧ (∃ t, s.hostAccess { size := .bits32, offset := 0x01000000 + 4 * j, dir := .write v }
        = (t, .written) ∧ t = { s with ibuf := t.ibuf }
        ∧ (∀ i < 4, t.inByte (4 * j + i) = v.extractLsb' (8 * i) 8)
        ∧ (∀ a, a < 4 * j ∨ 4 * j + 4 ≤ a → t.inByte a = s.inByte a)
        ∧ t.hostAccess { size := .bits32, offset := 0x01000000 + 4 * j, dir := .read }
          = (t, .value v))
      ∧ (∃ t, s.hostAccess { size := .bits32, offset := 0x02000000 + 4 * j, dir := .write v }
          = (t, .written) ∧ t = { s with obuf := t.obuf }
        ∧ (∀ i < 4, t.outByte (4 * j + i) = v.extractLsb' (8 * i) 8)
        ∧ (∀ a, a < 4 * j ∨ 4 * j + 4 ≤ a → t.outByte a = s.outByte a)
        ∧ t.hostAccess { size := .bits32, offset := 0x02000000 + 4 * j, dir := .read }
            = (t, .value v))

/-- R114, R115, R116: a CTRL write sets IE from bit 0 in either phase; while IDLE an IN_LEN write takes
any value, and a FREQ write takes any value and clears TREE_VALID and CODE_VALID even when the value
is the old one. Nothing else changes. -/
def Obligations.HostWritesCtrlInLenAndFreq : Prop :=
  ∀ (s : State) (v : Word) (c : Byte),
    s.hostAccess { size := .bits32, offset := 0x010, dir := .write v }
        = ({ s with ie := v.getLsbD 0 }, .written)
      ∧ (s.phase = .idle →
          s.hostAccess { size := .bits32, offset := 0x01C, dir := .write v }
            = ({ s with inLen := v }, .written))
      ∧ (s.phase = .idle →
          ∃ t, s.hostAccess { size := .bits32, offset := 0x1000 + 4 * c.toNat, dir := .write v }
              = (t, .written)
            ∧ t = { s with freq := t.freq, treeValid := false, codeValid := false }
            ∧ t.freqOf c = v ∧ ∀ d, d ≠ c → t.freqOf d = s.freqOf d)

/-- R117, R118: while BUSY a CMD write is dropped and sets CMD_OVR, a write to IN_LEN, FREQ, IBUF or OBUF
is dropped and sets ACC_ERR, and no other state changes; writes to CTRL and STATUS take effect as when
IDLE. That the bus answers a dropped write like any write is the model's reading (log 7). -/
def Obligations.BusyWritesAreDropped : Prop :=
  ∀ (s : State) (p v : Word) (l : Loc), s.phase = .busy p → l.mapped s.params.bufBytes = true →
    (l = .cmd → s.hostAccess { size := .bits32, offset := l.offset, dir := .write v }
        = ({ s with cmdOvr := true }, .written))
      ∧ ((l = .inLen ∨ (∃ c, l = .freq c) ∨ (∃ j, l = .ibuf j) ∨ ∃ j, l = .obuf j) →
          s.hostAccess { size := .bits32, offset := l.offset, dir := .write v }
            = ({ s with accErr := true }, .written))
      ∧ (l = .ctrl → s.hostAccess { size := .bits32, offset := l.offset, dir := .write v }
          = ({ s with ie := v.getLsbD 0 }, .written))
      ∧ (l = .status → s.hostAccess { size := .bits32, offset := l.offset, dir := .write v }
          = ({ s with
              done := s.done && !v.getLsbD 1, cmdOvr := s.cmdOvr && !v.getLsbD 5
              accErr := s.accErr && !v.getLsbD 6 }, .written))

/-- R39: while BUSY a read of ID, BUF_CAP, CTRL, STATUS, CMD, IN_LEN or IBUF returns the exact value;
any other read returns a draw and changes nothing of HUFC. That the draw is the free value
`Config.freeWord` of the count `State.draws`, which the read advances, is the model's choice (log 3). -/
def Obligations.BusyReadsAreExactOrDraws : Prop :=
  ∀ (s : State) (p : Word) (l : Loc), s.phase = .busy p → l.mapped s.params.bufBytes = true →
    ((l ∈ [Loc.id, .bufCap, .ctrl, .status, .cmd, .inLen] ∨ ∃ j, l = .ibuf j) →
      s.hostAccess { size := .bits32, offset := l.offset, dir := .read }
        = (s, .value (s.idleRead l)))
      ∧ ((l ∈ [Loc.outLen, .errInfo, .symCount, .root, .totalBits, .padCount, .totalWeight]
            ∨ (∃ c, l = .freq c ∨ l = .codeLen c ∨ ∃ w, l = .codeBits c w)
            ∨ (∃ i w, l = .node i w) ∨ ∃ j, l = .obuf j) →
          s.hostAccess { size := .bits32, offset := l.offset, dir := .read }
            = ({ s with draws := s.draws + 1 }, .value (Config.freeWord s.draws)))

/-! ### Interrupt, acknowledgement, reset (60_exceptions.md, 70_reset_and_hazards.md) -/

/-- R38: irq is IE and DONE, mirrored in STATUS.IRQ; it is high after a completion with IE = 1, and low
after the Host writes STATUS with bit 1 set, clears IE, or issues a new command. -/
def Obligations.InterruptLine : Prop :=
  ∀ s : State,
    s.irq = (s.ie && s.done) ∧ s.statusWord.getLsbD 7 = s.irq
      ∧ (∀ v t, s.phase = .busy v → s.ie = true → s.coreTurn = .next t → t.irq = true)
      ∧ (∀ w : Word, w.getLsbD 1 = true →
          (s.hostAccess { size := .bits32, offset := 0x014, dir := .write w }).1.irq = false)
      ∧ (∀ w : Word, w.getLsbD 0 = false →
          (s.hostAccess { size := .bits32, offset := 0x010, dir := .write w }).1.irq = false)
      ∧ (∀ w : Word, s.phase = .idle →
          (s.hostAccess { size := .bits32, offset := 0x018, dir := .write w }).1.irq = false)

/-- R249: an acknowledgement, or the issue of the next command, clears DONE and lowers irq; no Host
step changes ERR_INFO or OUT_LEN, and only acceptance changes ERR_CODE, clearing it; no completion
changes IE. -/
def Obligations.ErrorStateOutlivesTheAcknowledgement : Prop :=
  ∀ s : State,
    (∀ prog, s.program = ackDone :: prog →
      s.hostTurn.done = false ∧ s.hostTurn.irq = false ∧ s.hostTurn.errCode = s.errCode
        ∧ s.hostTurn.ie = s.ie)
      ∧ s.hostTurn.errInfo = s.errInfo ∧ s.hostTurn.outLen = s.outLen
      ∧ (s.hostTurn.errCode ≠ s.errCode →
          s.hostTurn.errCode = .noError ∧ s.phase = .idle ∧ s.hostTurn.busy = true)
      ∧ (∀ v prog, s.phase = .idle → s.program = wr .cmd v :: prog →
          s.hostTurn.done = false ∧ s.hostTurn.irq = false)
      ∧ (∀ v t, s.phase = .busy v → s.coreTurn = .next t → t.ie = s.ie)

/-- R270: the hardware reset, in either phase: every register at its reset value, a running command
abandoned, irq low, and the storage whatever the reset brings (draws). The same registers hold in
`State.reset`, whose storage contents and parameters are the model's choice (log 1, log 2). That the Host's
program, the schedule and the answers outlive the reset is the model's reading (log 4), and so is that a
NODE word 1 is drawn by its fields, the read-0 bits staying 0 (log 6). -/
def Obligations.HardwareResetState : Prop :=
  ∀ (s : State) (d : Draws) (rest : List Turn), s.schedule = .reset d :: rest →
    d.ibuf.length = s.params.bufBytes → d.obuf.length = s.params.bufBytes →
    ∃ t, step s = .next t
      ∧ (∀ u ∈ [t, State.reset], u.phase = .idle
          ∧ (∀ l ∈ [Loc.ctrl, .status, .cmd, .inLen, .outLen, .errInfo, .symCount, .root,
              .totalBits, .padCount, .totalWeight], u.idleRead l = 0#32)
          ∧ u.idleRead .id = 0x48554631#32 ∧ u.irq = false)
      ∧ t.idleRead .bufCap = BitVec.ofNat 32 s.params.bufBytes ∧ t.params = s.params
      ∧ t.freq = d.freq ∧ t.codeLen = d.codeLen ∧ t.codeBits = d.codeBits ∧ t.node = d.node
      ∧ (∀ k (h : k < d.ibuf.length), t.inByte k = d.ibuf[k])
      ∧ (∀ k (h : k < d.obuf.length), t.outByte k = d.obuf[k])
      ∧ t.program = s.program ∧ t.schedule = rest ∧ t.replies = s.replies
end

