-- ==== Sys2Proof/Laws/State.lean ====
section
/-! SUPPORT. One lemma per field of State per named update, so that no proof unfolds a record update. -/

namespace Sys2Proof.Machine

/-! ### writeStatus -/

@[simp] theorem State.writeStatus_params (s : State) (w : Word) :
    (s.writeStatus w).params = s.params := rfl
@[simp] theorem State.writeStatus_phase (s : State) (w : Word) :
    (s.writeStatus w).phase = s.phase := rfl
@[simp] theorem State.writeStatus_ie (s : State) (w : Word) :
    (s.writeStatus w).ie = s.ie := rfl
@[simp] theorem State.writeStatus_done (s : State) (w : Word) :
    (s.writeStatus w).done = (s.done && !w.getLsbD 1) := rfl
@[simp] theorem State.writeStatus_treeValid (s : State) (w : Word) :
    (s.writeStatus w).treeValid = s.treeValid := rfl
@[simp] theorem State.writeStatus_codeValid (s : State) (w : Word) :
    (s.writeStatus w).codeValid = s.codeValid := rfl
@[simp] theorem State.writeStatus_cmdOvr (s : State) (w : Word) :
    (s.writeStatus w).cmdOvr = (s.cmdOvr && !w.getLsbD 5) := rfl
@[simp] theorem State.writeStatus_accErr (s : State) (w : Word) :
    (s.writeStatus w).accErr = (s.accErr && !w.getLsbD 6) := rfl
@[simp] theorem State.writeStatus_errCode (s : State) (w : Word) :
    (s.writeStatus w).errCode = s.errCode := rfl
@[simp] theorem State.writeStatus_cmd (s : State) (w : Word) :
    (s.writeStatus w).cmd = s.cmd := rfl
@[simp] theorem State.writeStatus_inLen (s : State) (w : Word) :
    (s.writeStatus w).inLen = s.inLen := rfl
@[simp] theorem State.writeStatus_outLen (s : State) (w : Word) :
    (s.writeStatus w).outLen = s.outLen := rfl
@[simp] theorem State.writeStatus_errInfo (s : State) (w : Word) :
    (s.writeStatus w).errInfo = s.errInfo := rfl
@[simp] theorem State.writeStatus_symCount (s : State) (w : Word) :
    (s.writeStatus w).symCount = s.symCount := rfl
@[simp] theorem State.writeStatus_root (s : State) (w : Word) :
    (s.writeStatus w).root = s.root := rfl
@[simp] theorem State.writeStatus_totalBits (s : State) (w : Word) :
    (s.writeStatus w).totalBits = s.totalBits := rfl
@[simp] theorem State.writeStatus_padCount (s : State) (w : Word) :
    (s.writeStatus w).padCount = s.padCount := rfl
@[simp] theorem State.writeStatus_totalWeight (s : State) (w : Word) :
    (s.writeStatus w).totalWeight = s.totalWeight := rfl
@[simp] theorem State.writeStatus_freq (s : State) (w : Word) :
    (s.writeStatus w).freq = s.freq := rfl
@[simp] theorem State.writeStatus_codeLen (s : State) (w : Word) :
    (s.writeStatus w).codeLen = s.codeLen := rfl
@[simp] theorem State.writeStatus_codeBits (s : State) (w : Word) :
    (s.writeStatus w).codeBits = s.codeBits := rfl
@[simp] theorem State.writeStatus_node (s : State) (w : Word) :
    (s.writeStatus w).node = s.node := rfl
@[simp] theorem State.writeStatus_ibuf (s : State) (w : Word) :
    (s.writeStatus w).ibuf = s.ibuf := rfl
@[simp] theorem State.writeStatus_obuf (s : State) (w : Word) :
    (s.writeStatus w).obuf = s.obuf := rfl
@[simp] theorem State.writeStatus_program (s : State) (w : Word) :
    (s.writeStatus w).program = s.program := rfl
@[simp] theorem State.writeStatus_schedule (s : State) (w : Word) :
    (s.writeStatus w).schedule = s.schedule := rfl
@[simp] theorem State.writeStatus_replies (s : State) (w : Word) :
    (s.writeStatus w).replies = s.replies := rfl
@[simp] theorem State.writeStatus_draws (s : State) (w : Word) :
    (s.writeStatus w).draws = s.draws := rfl

/-! ### writeCtrl -/

@[simp] theorem State.writeCtrl_params (s : State) (w : Word) :
    (s.writeCtrl w).params = s.params := rfl
@[simp] theorem State.writeCtrl_phase (s : State) (w : Word) :
    (s.writeCtrl w).phase = s.phase := rfl
@[simp] theorem State.writeCtrl_ie (s : State) (w : Word) :
    (s.writeCtrl w).ie = w.getLsbD 0 := rfl
@[simp] theorem State.writeCtrl_done (s : State) (w : Word) :
    (s.writeCtrl w).done = s.done := rfl
@[simp] theorem State.writeCtrl_treeValid (s : State) (w : Word) :
    (s.writeCtrl w).treeValid = s.treeValid := rfl
@[simp] theorem State.writeCtrl_codeValid (s : State) (w : Word) :
    (s.writeCtrl w).codeValid = s.codeValid := rfl
@[simp] theorem State.writeCtrl_cmdOvr (s : State) (w : Word) :
    (s.writeCtrl w).cmdOvr = s.cmdOvr := rfl
@[simp] theorem State.writeCtrl_accErr (s : State) (w : Word) :
    (s.writeCtrl w).accErr = s.accErr := rfl
@[simp] theorem State.writeCtrl_errCode (s : State) (w : Word) :
    (s.writeCtrl w).errCode = s.errCode := rfl
@[simp] theorem State.writeCtrl_cmd (s : State) (w : Word) :
    (s.writeCtrl w).cmd = s.cmd := rfl
@[simp] theorem State.writeCtrl_inLen (s : State) (w : Word) :
    (s.writeCtrl w).inLen = s.inLen := rfl
@[simp] theorem State.writeCtrl_outLen (s : State) (w : Word) :
    (s.writeCtrl w).outLen = s.outLen := rfl
@[simp] theorem State.writeCtrl_errInfo (s : State) (w : Word) :
    (s.writeCtrl w).errInfo = s.errInfo := rfl
@[simp] theorem State.writeCtrl_symCount (s : State) (w : Word) :
    (s.writeCtrl w).symCount = s.symCount := rfl
@[simp] theorem State.writeCtrl_root (s : State) (w : Word) :
    (s.writeCtrl w).root = s.root := rfl
@[simp] theorem State.writeCtrl_totalBits (s : State) (w : Word) :
    (s.writeCtrl w).totalBits = s.totalBits := rfl
@[simp] theorem State.writeCtrl_padCount (s : State) (w : Word) :
    (s.writeCtrl w).padCount = s.padCount := rfl
@[simp] theorem State.writeCtrl_totalWeight (s : State) (w : Word) :
    (s.writeCtrl w).totalWeight = s.totalWeight := rfl
@[simp] theorem State.writeCtrl_freq (s : State) (w : Word) :
    (s.writeCtrl w).freq = s.freq := rfl
@[simp] theorem State.writeCtrl_codeLen (s : State) (w : Word) :
    (s.writeCtrl w).codeLen = s.codeLen := rfl
@[simp] theorem State.writeCtrl_codeBits (s : State) (w : Word) :
    (s.writeCtrl w).codeBits = s.codeBits := rfl
@[simp] theorem State.writeCtrl_node (s : State) (w : Word) :
    (s.writeCtrl w).node = s.node := rfl
@[simp] theorem State.writeCtrl_ibuf (s : State) (w : Word) :
    (s.writeCtrl w).ibuf = s.ibuf := rfl
@[simp] theorem State.writeCtrl_obuf (s : State) (w : Word) :
    (s.writeCtrl w).obuf = s.obuf := rfl
@[simp] theorem State.writeCtrl_program (s : State) (w : Word) :
    (s.writeCtrl w).program = s.program := rfl
@[simp] theorem State.writeCtrl_schedule (s : State) (w : Word) :
    (s.writeCtrl w).schedule = s.schedule := rfl
@[simp] theorem State.writeCtrl_replies (s : State) (w : Word) :
    (s.writeCtrl w).replies = s.replies := rfl
@[simp] theorem State.writeCtrl_draws (s : State) (w : Word) :
    (s.writeCtrl w).draws = s.draws := rfl

/-! ### markStale -/

@[simp] theorem State.markStale_params (s : State) :
    (s.markStale).params = s.params := rfl
@[simp] theorem State.markStale_phase (s : State) :
    (s.markStale).phase = s.phase := rfl
@[simp] theorem State.markStale_ie (s : State) :
    (s.markStale).ie = s.ie := rfl
@[simp] theorem State.markStale_done (s : State) :
    (s.markStale).done = s.done := rfl
@[simp] theorem State.markStale_treeValid (s : State) :
    (s.markStale).treeValid = false := rfl
@[simp] theorem State.markStale_codeValid (s : State) :
    (s.markStale).codeValid = false := rfl
@[simp] theorem State.markStale_cmdOvr (s : State) :
    (s.markStale).cmdOvr = s.cmdOvr := rfl
@[simp] theorem State.markStale_accErr (s : State) :
    (s.markStale).accErr = s.accErr := rfl
@[simp] theorem State.markStale_errCode (s : State) :
    (s.markStale).errCode = s.errCode := rfl
@[simp] theorem State.markStale_cmd (s : State) :
    (s.markStale).cmd = s.cmd := rfl
@[simp] theorem State.markStale_inLen (s : State) :
    (s.markStale).inLen = s.inLen := rfl
@[simp] theorem State.markStale_outLen (s : State) :
    (s.markStale).outLen = s.outLen := rfl
@[simp] theorem State.markStale_errInfo (s : State) :
    (s.markStale).errInfo = s.errInfo := rfl
@[simp] theorem State.markStale_symCount (s : State) :
    (s.markStale).symCount = s.symCount := rfl
@[simp] theorem State.markStale_root (s : State) :
    (s.markStale).root = s.root := rfl
@[simp] theorem State.markStale_totalBits (s : State) :
    (s.markStale).totalBits = s.totalBits := rfl
@[simp] theorem State.markStale_padCount (s : State) :
    (s.markStale).padCount = s.padCount := rfl
@[simp] theorem State.markStale_totalWeight (s : State) :
    (s.markStale).totalWeight = s.totalWeight := rfl
@[simp] theorem State.markStale_freq (s : State) :
    (s.markStale).freq = s.freq := rfl
@[simp] theorem State.markStale_codeLen (s : State) :
    (s.markStale).codeLen = s.codeLen := rfl
@[simp] theorem State.markStale_codeBits (s : State) :
    (s.markStale).codeBits = s.codeBits := rfl
@[simp] theorem State.markStale_node (s : State) :
    (s.markStale).node = s.node := rfl
@[simp] theorem State.markStale_ibuf (s : State) :
    (s.markStale).ibuf = s.ibuf := rfl
@[simp] theorem State.markStale_obuf (s : State) :
    (s.markStale).obuf = s.obuf := rfl
@[simp] theorem State.markStale_program (s : State) :
    (s.markStale).program = s.program := rfl
@[simp] theorem State.markStale_schedule (s : State) :
    (s.markStale).schedule = s.schedule := rfl
@[simp] theorem State.markStale_replies (s : State) :
    (s.markStale).replies = s.replies := rfl
@[simp] theorem State.markStale_draws (s : State) :
    (s.markStale).draws = s.draws := rfl

/-! ### markCmdOvr -/

@[simp] theorem State.markCmdOvr_params (s : State) :
    (s.markCmdOvr).params = s.params := rfl
@[simp] theorem State.markCmdOvr_phase (s : State) :
    (s.markCmdOvr).phase = s.phase := rfl
@[simp] theorem State.markCmdOvr_ie (s : State) :
    (s.markCmdOvr).ie = s.ie := rfl
@[simp] theorem State.markCmdOvr_done (s : State) :
    (s.markCmdOvr).done = s.done := rfl
@[simp] theorem State.markCmdOvr_treeValid (s : State) :
    (s.markCmdOvr).treeValid = s.treeValid := rfl
@[simp] theorem State.markCmdOvr_codeValid (s : State) :
    (s.markCmdOvr).codeValid = s.codeValid := rfl
@[simp] theorem State.markCmdOvr_cmdOvr (s : State) :
    (s.markCmdOvr).cmdOvr = true := rfl
@[simp] theorem State.markCmdOvr_accErr (s : State) :
    (s.markCmdOvr).accErr = s.accErr := rfl
@[simp] theorem State.markCmdOvr_errCode (s : State) :
    (s.markCmdOvr).errCode = s.errCode := rfl
@[simp] theorem State.markCmdOvr_cmd (s : State) :
    (s.markCmdOvr).cmd = s.cmd := rfl
@[simp] theorem State.markCmdOvr_inLen (s : State) :
    (s.markCmdOvr).inLen = s.inLen := rfl
@[simp] theorem State.markCmdOvr_outLen (s : State) :
    (s.markCmdOvr).outLen = s.outLen := rfl
@[simp] theorem State.markCmdOvr_errInfo (s : State) :
    (s.markCmdOvr).errInfo = s.errInfo := rfl
@[simp] theorem State.markCmdOvr_symCount (s : State) :
    (s.markCmdOvr).symCount = s.symCount := rfl
@[simp] theorem State.markCmdOvr_root (s : State) :
    (s.markCmdOvr).root = s.root := rfl
@[simp] theorem State.markCmdOvr_totalBits (s : State) :
    (s.markCmdOvr).totalBits = s.totalBits := rfl
@[simp] theorem State.markCmdOvr_padCount (s : State) :
    (s.markCmdOvr).padCount = s.padCount := rfl
@[simp] theorem State.markCmdOvr_totalWeight (s : State) :
    (s.markCmdOvr).totalWeight = s.totalWeight := rfl
@[simp] theorem State.markCmdOvr_freq (s : State) :
    (s.markCmdOvr).freq = s.freq := rfl
@[simp] theorem State.markCmdOvr_codeLen (s : State) :
    (s.markCmdOvr).codeLen = s.codeLen := rfl
@[simp] theorem State.markCmdOvr_codeBits (s : State) :
    (s.markCmdOvr).codeBits = s.codeBits := rfl
@[simp] theorem State.markCmdOvr_node (s : State) :
    (s.markCmdOvr).node = s.node := rfl
@[simp] theorem State.markCmdOvr_ibuf (s : State) :
    (s.markCmdOvr).ibuf = s.ibuf := rfl
@[simp] theorem State.markCmdOvr_obuf (s : State) :
    (s.markCmdOvr).obuf = s.obuf := rfl
@[simp] theorem State.markCmdOvr_program (s : State) :
    (s.markCmdOvr).program = s.program := rfl
@[simp] theorem State.markCmdOvr_schedule (s : State) :
    (s.markCmdOvr).schedule = s.schedule := rfl
@[simp] theorem State.markCmdOvr_replies (s : State) :
    (s.markCmdOvr).replies = s.replies := rfl
@[simp] theorem State.markCmdOvr_draws (s : State) :
    (s.markCmdOvr).draws = s.draws := rfl

/-! ### markAccErr -/

@[simp] theorem State.markAccErr_params (s : State) :
    (s.markAccErr).params = s.params := rfl
@[simp] theorem State.markAccErr_phase (s : State) :
    (s.markAccErr).phase = s.phase := rfl
@[simp] theorem State.markAccErr_ie (s : State) :
    (s.markAccErr).ie = s.ie := rfl
@[simp] theorem State.markAccErr_done (s : State) :
    (s.markAccErr).done = s.done := rfl
@[simp] theorem State.markAccErr_treeValid (s : State) :
    (s.markAccErr).treeValid = s.treeValid := rfl
@[simp] theorem State.markAccErr_codeValid (s : State) :
    (s.markAccErr).codeValid = s.codeValid := rfl
@[simp] theorem State.markAccErr_cmdOvr (s : State) :
    (s.markAccErr).cmdOvr = s.cmdOvr := rfl
@[simp] theorem State.markAccErr_accErr (s : State) :
    (s.markAccErr).accErr = true := rfl
@[simp] theorem State.markAccErr_errCode (s : State) :
    (s.markAccErr).errCode = s.errCode := rfl
@[simp] theorem State.markAccErr_cmd (s : State) :
    (s.markAccErr).cmd = s.cmd := rfl
@[simp] theorem State.markAccErr_inLen (s : State) :
    (s.markAccErr).inLen = s.inLen := rfl
@[simp] theorem State.markAccErr_outLen (s : State) :
    (s.markAccErr).outLen = s.outLen := rfl
@[simp] theorem State.markAccErr_errInfo (s : State) :
    (s.markAccErr).errInfo = s.errInfo := rfl
@[simp] theorem State.markAccErr_symCount (s : State) :
    (s.markAccErr).symCount = s.symCount := rfl
@[simp] theorem State.markAccErr_root (s : State) :
    (s.markAccErr).root = s.root := rfl
@[simp] theorem State.markAccErr_totalBits (s : State) :
    (s.markAccErr).totalBits = s.totalBits := rfl
@[simp] theorem State.markAccErr_padCount (s : State) :
    (s.markAccErr).padCount = s.padCount := rfl
@[simp] theorem State.markAccErr_totalWeight (s : State) :
    (s.markAccErr).totalWeight = s.totalWeight := rfl
@[simp] theorem State.markAccErr_freq (s : State) :
    (s.markAccErr).freq = s.freq := rfl
@[simp] theorem State.markAccErr_codeLen (s : State) :
    (s.markAccErr).codeLen = s.codeLen := rfl
@[simp] theorem State.markAccErr_codeBits (s : State) :
    (s.markAccErr).codeBits = s.codeBits := rfl
@[simp] theorem State.markAccErr_node (s : State) :
    (s.markAccErr).node = s.node := rfl
@[simp] theorem State.markAccErr_ibuf (s : State) :
    (s.markAccErr).ibuf = s.ibuf := rfl
@[simp] theorem State.markAccErr_obuf (s : State) :
    (s.markAccErr).obuf = s.obuf := rfl
@[simp] theorem State.markAccErr_program (s : State) :
    (s.markAccErr).program = s.program := rfl
@[simp] theorem State.markAccErr_schedule (s : State) :
    (s.markAccErr).schedule = s.schedule := rfl
@[simp] theorem State.markAccErr_replies (s : State) :
    (s.markAccErr).replies = s.replies := rfl
@[simp] theorem State.markAccErr_draws (s : State) :
    (s.markAccErr).draws = s.draws := rfl

/-! ### accept -/

@[simp] theorem State.accept_params (s : State) (v : Word) :
    (s.accept v).params = s.params := rfl
@[simp] theorem State.accept_phase (s : State) (v : Word) :
    (s.accept v).phase = .busy v := rfl
@[simp] theorem State.accept_ie (s : State) (v : Word) :
    (s.accept v).ie = s.ie := rfl
@[simp] theorem State.accept_done (s : State) (v : Word) :
    (s.accept v).done = false := rfl
@[simp] theorem State.accept_treeValid (s : State) (v : Word) :
    (s.accept v).treeValid = s.treeValid := rfl
@[simp] theorem State.accept_codeValid (s : State) (v : Word) :
    (s.accept v).codeValid = s.codeValid := rfl
@[simp] theorem State.accept_cmdOvr (s : State) (v : Word) :
    (s.accept v).cmdOvr = s.cmdOvr := rfl
@[simp] theorem State.accept_accErr (s : State) (v : Word) :
    (s.accept v).accErr = s.accErr := rfl
@[simp] theorem State.accept_errCode (s : State) (v : Word) :
    (s.accept v).errCode = .noError := rfl
@[simp] theorem State.accept_cmd (s : State) (v : Word) :
    (s.accept v).cmd = v := rfl
@[simp] theorem State.accept_inLen (s : State) (v : Word) :
    (s.accept v).inLen = s.inLen := rfl
@[simp] theorem State.accept_outLen (s : State) (v : Word) :
    (s.accept v).outLen = s.outLen := rfl
@[simp] theorem State.accept_errInfo (s : State) (v : Word) :
    (s.accept v).errInfo = s.errInfo := rfl
@[simp] theorem State.accept_symCount (s : State) (v : Word) :
    (s.accept v).symCount = s.symCount := rfl
@[simp] theorem State.accept_root (s : State) (v : Word) :
    (s.accept v).root = s.root := rfl
@[simp] theorem State.accept_totalBits (s : State) (v : Word) :
    (s.accept v).totalBits = s.totalBits := rfl
@[simp] theorem State.accept_padCount (s : State) (v : Word) :
    (s.accept v).padCount = s.padCount := rfl
@[simp] theorem State.accept_totalWeight (s : State) (v : Word) :
    (s.accept v).totalWeight = s.totalWeight := rfl
@[simp] theorem State.accept_freq (s : State) (v : Word) :
    (s.accept v).freq = s.freq := rfl
@[simp] theorem State.accept_codeLen (s : State) (v : Word) :
    (s.accept v).codeLen = s.codeLen := rfl
@[simp] theorem State.accept_codeBits (s : State) (v : Word) :
    (s.accept v).codeBits = s.codeBits := rfl
@[simp] theorem State.accept_node (s : State) (v : Word) :
    (s.accept v).node = s.node := rfl
@[simp] theorem State.accept_ibuf (s : State) (v : Word) :
    (s.accept v).ibuf = s.ibuf := rfl
@[simp] theorem State.accept_obuf (s : State) (v : Word) :
    (s.accept v).obuf = s.obuf := rfl
@[simp] theorem State.accept_program (s : State) (v : Word) :
    (s.accept v).program = s.program := rfl
@[simp] theorem State.accept_schedule (s : State) (v : Word) :
    (s.accept v).schedule = s.schedule := rfl
@[simp] theorem State.accept_replies (s : State) (v : Word) :
    (s.accept v).replies = s.replies := rfl
@[simp] theorem State.accept_draws (s : State) (v : Word) :
    (s.accept v).draws = s.draws := rfl

/-! ### succeed -/

@[simp] theorem State.succeed_params (s : State) (n : Nat) :
    (s.succeed n).params = s.params := rfl
@[simp] theorem State.succeed_phase (s : State) (n : Nat) :
    (s.succeed n).phase = .idle := rfl
@[simp] theorem State.succeed_ie (s : State) (n : Nat) :
    (s.succeed n).ie = s.ie := rfl
@[simp] theorem State.succeed_done (s : State) (n : Nat) :
    (s.succeed n).done = true := rfl
@[simp] theorem State.succeed_treeValid (s : State) (n : Nat) :
    (s.succeed n).treeValid = s.treeValid := rfl
@[simp] theorem State.succeed_codeValid (s : State) (n : Nat) :
    (s.succeed n).codeValid = s.codeValid := rfl
@[simp] theorem State.succeed_cmdOvr (s : State) (n : Nat) :
    (s.succeed n).cmdOvr = s.cmdOvr := rfl
@[simp] theorem State.succeed_accErr (s : State) (n : Nat) :
    (s.succeed n).accErr = s.accErr := rfl
@[simp] theorem State.succeed_errCode (s : State) (n : Nat) :
    (s.succeed n).errCode = .noError := rfl
@[simp] theorem State.succeed_cmd (s : State) (n : Nat) :
    (s.succeed n).cmd = s.cmd := rfl
@[simp] theorem State.succeed_inLen (s : State) (n : Nat) :
    (s.succeed n).inLen = s.inLen := rfl
@[simp] theorem State.succeed_outLen (s : State) (n : Nat) :
    (s.succeed n).outLen = BitVec.ofNat 32 n := rfl
@[simp] theorem State.succeed_errInfo (s : State) (n : Nat) :
    (s.succeed n).errInfo = { reason := 0#4, value := 0#28 } := rfl
@[simp] theorem State.succeed_symCount (s : State) (n : Nat) :
    (s.succeed n).symCount = s.symCount := rfl
@[simp] theorem State.succeed_root (s : State) (n : Nat) :
    (s.succeed n).root = s.root := rfl
@[simp] theorem State.succeed_totalBits (s : State) (n : Nat) :
    (s.succeed n).totalBits = s.totalBits := rfl
@[simp] theorem State.succeed_padCount (s : State) (n : Nat) :
    (s.succeed n).padCount = s.padCount := rfl
@[simp] theorem State.succeed_totalWeight (s : State) (n : Nat) :
    (s.succeed n).totalWeight = s.totalWeight := rfl
@[simp] theorem State.succeed_freq (s : State) (n : Nat) :
    (s.succeed n).freq = s.freq := rfl
@[simp] theorem State.succeed_codeLen (s : State) (n : Nat) :
    (s.succeed n).codeLen = s.codeLen := rfl
@[simp] theorem State.succeed_codeBits (s : State) (n : Nat) :
    (s.succeed n).codeBits = s.codeBits := rfl
@[simp] theorem State.succeed_node (s : State) (n : Nat) :
    (s.succeed n).node = s.node := rfl
@[simp] theorem State.succeed_ibuf (s : State) (n : Nat) :
    (s.succeed n).ibuf = s.ibuf := rfl
@[simp] theorem State.succeed_obuf (s : State) (n : Nat) :
    (s.succeed n).obuf = s.obuf := rfl
@[simp] theorem State.succeed_program (s : State) (n : Nat) :
    (s.succeed n).program = s.program := rfl
@[simp] theorem State.succeed_schedule (s : State) (n : Nat) :
    (s.succeed n).schedule = s.schedule := rfl
@[simp] theorem State.succeed_replies (s : State) (n : Nat) :
    (s.succeed n).replies = s.replies := rfl
@[simp] theorem State.succeed_draws (s : State) (n : Nat) :
    (s.succeed n).draws = s.draws := rfl

/-! ### raise -/

@[simp] theorem State.raise_params (s : State) (n : Nat) (e : CmdError) :
    (s.raise n e).params = s.params := rfl
@[simp] theorem State.raise_phase (s : State) (n : Nat) (e : CmdError) :
    (s.raise n e).phase = .idle := rfl
@[simp] theorem State.raise_ie (s : State) (n : Nat) (e : CmdError) :
    (s.raise n e).ie = s.ie := rfl
@[simp] theorem State.raise_done (s : State) (n : Nat) (e : CmdError) :
    (s.raise n e).done = true := rfl
@[simp] theorem State.raise_treeValid (s : State) (n : Nat) (e : CmdError) :
    (s.raise n e).treeValid = s.treeValid := rfl
@[simp] theorem State.raise_codeValid (s : State) (n : Nat) (e : CmdError) :
    (s.raise n e).codeValid = s.codeValid := rfl
@[simp] theorem State.raise_cmdOvr (s : State) (n : Nat) (e : CmdError) :
    (s.raise n e).cmdOvr = s.cmdOvr := rfl
@[simp] theorem State.raise_accErr (s : State) (n : Nat) (e : CmdError) :
    (s.raise n e).accErr = s.accErr := rfl
@[simp] theorem State.raise_errCode (s : State) (n : Nat) (e : CmdError) :
    (s.raise n e).errCode = e.code := rfl
@[simp] theorem State.raise_cmd (s : State) (n : Nat) (e : CmdError) :
    (s.raise n e).cmd = s.cmd := rfl
@[simp] theorem State.raise_inLen (s : State) (n : Nat) (e : CmdError) :
    (s.raise n e).inLen = s.inLen := rfl
@[simp] theorem State.raise_outLen (s : State) (n : Nat) (e : CmdError) :
    (s.raise n e).outLen = BitVec.ofNat 32 n := rfl
@[simp] theorem State.raise_errInfo (s : State) (n : Nat) (e : CmdError) :
    (s.raise n e).errInfo = { reason := e.reason, value := BitVec.ofNat 28 (min e.value (2 ^ 28 - 1)) } := rfl
@[simp] theorem State.raise_symCount (s : State) (n : Nat) (e : CmdError) :
    (s.raise n e).symCount = s.symCount := rfl
@[simp] theorem State.raise_root (s : State) (n : Nat) (e : CmdError) :
    (s.raise n e).root = s.root := rfl
@[simp] theorem State.raise_totalBits (s : State) (n : Nat) (e : CmdError) :
    (s.raise n e).totalBits = s.totalBits := rfl
@[simp] theorem State.raise_padCount (s : State) (n : Nat) (e : CmdError) :
    (s.raise n e).padCount = s.padCount := rfl
@[simp] theorem State.raise_totalWeight (s : State) (n : Nat) (e : CmdError) :
    (s.raise n e).totalWeight = s.totalWeight := rfl
@[simp] theorem State.raise_freq (s : State) (n : Nat) (e : CmdError) :
    (s.raise n e).freq = s.freq := rfl
@[simp] theorem State.raise_codeLen (s : State) (n : Nat) (e : CmdError) :
    (s.raise n e).codeLen = s.codeLen := rfl
@[simp] theorem State.raise_codeBits (s : State) (n : Nat) (e : CmdError) :
    (s.raise n e).codeBits = s.codeBits := rfl
@[simp] theorem State.raise_node (s : State) (n : Nat) (e : CmdError) :
    (s.raise n e).node = s.node := rfl
@[simp] theorem State.raise_ibuf (s : State) (n : Nat) (e : CmdError) :
    (s.raise n e).ibuf = s.ibuf := rfl
@[simp] theorem State.raise_obuf (s : State) (n : Nat) (e : CmdError) :
    (s.raise n e).obuf = s.obuf := rfl
@[simp] theorem State.raise_program (s : State) (n : Nat) (e : CmdError) :
    (s.raise n e).program = s.program := rfl
@[simp] theorem State.raise_schedule (s : State) (n : Nat) (e : CmdError) :
    (s.raise n e).schedule = s.schedule := rfl
@[simp] theorem State.raise_replies (s : State) (n : Nat) (e : CmdError) :
    (s.raise n e).replies = s.replies := rfl
@[simp] theorem State.raise_draws (s : State) (n : Nat) (e : CmdError) :
    (s.raise n e).draws = s.draws := rfl

/-! ### clearTables -/

@[simp] theorem State.clearTables_params (s : State) :
    (s.clearTables).params = s.params := rfl
@[simp] theorem State.clearTables_phase (s : State) :
    (s.clearTables).phase = s.phase := rfl
@[simp] theorem State.clearTables_ie (s : State) :
    (s.clearTables).ie = s.ie := rfl
@[simp] theorem State.clearTables_done (s : State) :
    (s.clearTables).done = s.done := rfl
@[simp] theorem State.clearTables_treeValid (s : State) :
    (s.clearTables).treeValid = false := rfl
@[simp] theorem State.clearTables_codeValid (s : State) :
    (s.clearTables).codeValid = false := rfl
@[simp] theorem State.clearTables_cmdOvr (s : State) :
    (s.clearTables).cmdOvr = s.cmdOvr := rfl
@[simp] theorem State.clearTables_accErr (s : State) :
    (s.clearTables).accErr = s.accErr := rfl
@[simp] theorem State.clearTables_errCode (s : State) :
    (s.clearTables).errCode = s.errCode := rfl
@[simp] theorem State.clearTables_cmd (s : State) :
    (s.clearTables).cmd = s.cmd := rfl
@[simp] theorem State.clearTables_inLen (s : State) :
    (s.clearTables).inLen = s.inLen := rfl
@[simp] theorem State.clearTables_outLen (s : State) :
    (s.clearTables).outLen = s.outLen := rfl
@[simp] theorem State.clearTables_errInfo (s : State) :
    (s.clearTables).errInfo = s.errInfo := rfl
@[simp] theorem State.clearTables_symCount (s : State) :
    (s.clearTables).symCount = 0#9 := rfl
@[simp] theorem State.clearTables_root (s : State) :
    (s.clearTables).root = { valid := false, index := 0#9 } := rfl
@[simp] theorem State.clearTables_totalBits (s : State) :
    (s.clearTables).totalBits = 0#32 := rfl
@[simp] theorem State.clearTables_padCount (s : State) :
    (s.clearTables).padCount = 0#3 := rfl
@[simp] theorem State.clearTables_totalWeight (s : State) :
    (s.clearTables).totalWeight = 0#32 := rfl
@[simp] theorem State.clearTables_freq (s : State) :
    (s.clearTables).freq = Table.fill 256 0#32 := rfl
@[simp] theorem State.clearTables_codeLen (s : State) :
    (s.clearTables).codeLen = Table.fill 256 0#8 := rfl
@[simp] theorem State.clearTables_codeBits (s : State) :
    (s.clearTables).codeBits = Table.fill 256 0#256 := rfl
@[simp] theorem State.clearTables_node (s : State) :
    (s.clearTables).node = Table.fill 511 Node.absent := rfl
@[simp] theorem State.clearTables_ibuf (s : State) :
    (s.clearTables).ibuf = s.ibuf := rfl
@[simp] theorem State.clearTables_obuf (s : State) :
    (s.clearTables).obuf = s.obuf := rfl
@[simp] theorem State.clearTables_program (s : State) :
    (s.clearTables).program = s.program := rfl
@[simp] theorem State.clearTables_schedule (s : State) :
    (s.clearTables).schedule = s.schedule := rfl
@[simp] theorem State.clearTables_replies (s : State) :
    (s.clearTables).replies = s.replies := rfl
@[simp] theorem State.clearTables_draws (s : State) :
    (s.clearTables).draws = s.draws := rfl

/-! ### loadFreq -/

@[simp] theorem State.loadFreq_params (s : State) (f : Table Word 256) :
    (s.loadFreq f).params = s.params := rfl
@[simp] theorem State.loadFreq_phase (s : State) (f : Table Word 256) :
    (s.loadFreq f).phase = s.phase := rfl
@[simp] theorem State.loadFreq_ie (s : State) (f : Table Word 256) :
    (s.loadFreq f).ie = s.ie := rfl
@[simp] theorem State.loadFreq_done (s : State) (f : Table Word 256) :
    (s.loadFreq f).done = s.done := rfl
@[simp] theorem State.loadFreq_treeValid (s : State) (f : Table Word 256) :
    (s.loadFreq f).treeValid = false := rfl
@[simp] theorem State.loadFreq_codeValid (s : State) (f : Table Word 256) :
    (s.loadFreq f).codeValid = false := rfl
@[simp] theorem State.loadFreq_cmdOvr (s : State) (f : Table Word 256) :
    (s.loadFreq f).cmdOvr = s.cmdOvr := rfl
@[simp] theorem State.loadFreq_accErr (s : State) (f : Table Word 256) :
    (s.loadFreq f).accErr = s.accErr := rfl
@[simp] theorem State.loadFreq_errCode (s : State) (f : Table Word 256) :
    (s.loadFreq f).errCode = s.errCode := rfl
@[simp] theorem State.loadFreq_cmd (s : State) (f : Table Word 256) :
    (s.loadFreq f).cmd = s.cmd := rfl
@[simp] theorem State.loadFreq_inLen (s : State) (f : Table Word 256) :
    (s.loadFreq f).inLen = s.inLen := rfl
@[simp] theorem State.loadFreq_outLen (s : State) (f : Table Word 256) :
    (s.loadFreq f).outLen = s.outLen := rfl
@[simp] theorem State.loadFreq_errInfo (s : State) (f : Table Word 256) :
    (s.loadFreq f).errInfo = s.errInfo := rfl
@[simp] theorem State.loadFreq_symCount (s : State) (f : Table Word 256) :
    (s.loadFreq f).symCount = s.symCount := rfl
@[simp] theorem State.loadFreq_root (s : State) (f : Table Word 256) :
    (s.loadFreq f).root = s.root := rfl
@[simp] theorem State.loadFreq_totalBits (s : State) (f : Table Word 256) :
    (s.loadFreq f).totalBits = s.totalBits := rfl
@[simp] theorem State.loadFreq_padCount (s : State) (f : Table Word 256) :
    (s.loadFreq f).padCount = s.padCount := rfl
@[simp] theorem State.loadFreq_totalWeight (s : State) (f : Table Word 256) :
    (s.loadFreq f).totalWeight = s.totalWeight := rfl
@[simp] theorem State.loadFreq_freq (s : State) (f : Table Word 256) :
    (s.loadFreq f).freq = f := rfl
@[simp] theorem State.loadFreq_codeLen (s : State) (f : Table Word 256) :
    (s.loadFreq f).codeLen = s.codeLen := rfl
@[simp] theorem State.loadFreq_codeBits (s : State) (f : Table Word 256) :
    (s.loadFreq f).codeBits = s.codeBits := rfl
@[simp] theorem State.loadFreq_node (s : State) (f : Table Word 256) :
    (s.loadFreq f).node = s.node := rfl
@[simp] theorem State.loadFreq_ibuf (s : State) (f : Table Word 256) :
    (s.loadFreq f).ibuf = s.ibuf := rfl
@[simp] theorem State.loadFreq_obuf (s : State) (f : Table Word 256) :
    (s.loadFreq f).obuf = s.obuf := rfl
@[simp] theorem State.loadFreq_program (s : State) (f : Table Word 256) :
    (s.loadFreq f).program = s.program := rfl
@[simp] theorem State.loadFreq_schedule (s : State) (f : Table Word 256) :
    (s.loadFreq f).schedule = s.schedule := rfl
@[simp] theorem State.loadFreq_replies (s : State) (f : Table Word 256) :
    (s.loadFreq f).replies = s.replies := rfl
@[simp] theorem State.loadFreq_draws (s : State) (f : Table Word 256) :
    (s.loadFreq f).draws = s.draws := rfl

/-! ### treeStep -/

@[simp] theorem State.treeStep_params (s : State) :
    (s.treeStep).params = s.params := rfl
@[simp] theorem State.treeStep_phase (s : State) :
    (s.treeStep).phase = s.phase := rfl
@[simp] theorem State.treeStep_ie (s : State) :
    (s.treeStep).ie = s.ie := rfl
@[simp] theorem State.treeStep_done (s : State) :
    (s.treeStep).done = s.done := rfl
@[simp] theorem State.treeStep_treeValid (s : State) :
    (s.treeStep).treeValid = true := rfl
@[simp] theorem State.treeStep_codeValid (s : State) :
    (s.treeStep).codeValid = false := rfl
@[simp] theorem State.treeStep_cmdOvr (s : State) :
    (s.treeStep).cmdOvr = s.cmdOvr := rfl
@[simp] theorem State.treeStep_accErr (s : State) :
    (s.treeStep).accErr = s.accErr := rfl
@[simp] theorem State.treeStep_errCode (s : State) :
    (s.treeStep).errCode = s.errCode := rfl
@[simp] theorem State.treeStep_cmd (s : State) :
    (s.treeStep).cmd = s.cmd := rfl
@[simp] theorem State.treeStep_inLen (s : State) :
    (s.treeStep).inLen = s.inLen := rfl
@[simp] theorem State.treeStep_outLen (s : State) :
    (s.treeStep).outLen = s.outLen := rfl
@[simp] theorem State.treeStep_errInfo (s : State) :
    (s.treeStep).errInfo = s.errInfo := rfl
@[simp] theorem State.treeStep_symCount (s : State) :
    (s.treeStep).symCount = BitVec.ofNat 9 (alphabetSize s.freq) := rfl
@[simp] theorem State.treeStep_root (s : State) :
    (s.treeStep).root = rootOf (alphabetSize s.freq) := rfl
@[simp] theorem State.treeStep_totalBits (s : State) :
    (s.treeStep).totalBits = s.totalBits := rfl
@[simp] theorem State.treeStep_padCount (s : State) :
    (s.treeStep).padCount = s.padCount := rfl
@[simp] theorem State.treeStep_totalWeight (s : State) :
    (s.treeStep).totalWeight = BitVec.ofNat 32 (weightSum s.freq) := rfl
@[simp] theorem State.treeStep_freq (s : State) :
    (s.treeStep).freq = s.freq := rfl
@[simp] theorem State.treeStep_codeLen (s : State) :
    (s.treeStep).codeLen = s.codeLen := rfl
@[simp] theorem State.treeStep_codeBits (s : State) :
    (s.treeStep).codeBits = s.codeBits := rfl
@[simp] theorem State.treeStep_node (s : State) :
    (s.treeStep).node = arenaTable (buildTree s.freq) := rfl
@[simp] theorem State.treeStep_ibuf (s : State) :
    (s.treeStep).ibuf = s.ibuf := rfl
@[simp] theorem State.treeStep_obuf (s : State) :
    (s.treeStep).obuf = s.obuf := rfl
@[simp] theorem State.treeStep_program (s : State) :
    (s.treeStep).program = s.program := rfl
@[simp] theorem State.treeStep_schedule (s : State) :
    (s.treeStep).schedule = s.schedule := rfl
@[simp] theorem State.treeStep_replies (s : State) :
    (s.treeStep).replies = s.replies := rfl
@[simp] theorem State.treeStep_draws (s : State) :
    (s.treeStep).draws = s.draws := rfl

/-! ### codeStep -/

@[simp] theorem State.codeStep_params (s : State) :
    (s.codeStep).params = s.params := rfl
@[simp] theorem State.codeStep_phase (s : State) :
    (s.codeStep).phase = s.phase := rfl
@[simp] theorem State.codeStep_ie (s : State) :
    (s.codeStep).ie = s.ie := rfl
@[simp] theorem State.codeStep_done (s : State) :
    (s.codeStep).done = s.done := rfl
@[simp] theorem State.codeStep_treeValid (s : State) :
    (s.codeStep).treeValid = s.treeValid := rfl
@[simp] theorem State.codeStep_codeValid (s : State) :
    (s.codeStep).codeValid = true := rfl
@[simp] theorem State.codeStep_cmdOvr (s : State) :
    (s.codeStep).cmdOvr = s.cmdOvr := rfl
@[simp] theorem State.codeStep_accErr (s : State) :
    (s.codeStep).accErr = s.accErr := rfl
@[simp] theorem State.codeStep_errCode (s : State) :
    (s.codeStep).errCode = s.errCode := rfl
@[simp] theorem State.codeStep_cmd (s : State) :
    (s.codeStep).cmd = s.cmd := rfl
@[simp] theorem State.codeStep_inLen (s : State) :
    (s.codeStep).inLen = s.inLen := rfl
@[simp] theorem State.codeStep_outLen (s : State) :
    (s.codeStep).outLen = s.outLen := rfl
@[simp] theorem State.codeStep_errInfo (s : State) :
    (s.codeStep).errInfo = s.errInfo := rfl
@[simp] theorem State.codeStep_symCount (s : State) :
    (s.codeStep).symCount = s.symCount := rfl
@[simp] theorem State.codeStep_root (s : State) :
    (s.codeStep).root = s.root := rfl
@[simp] theorem State.codeStep_totalBits (s : State) :
    (s.codeStep).totalBits = s.totalBits := rfl
@[simp] theorem State.codeStep_padCount (s : State) :
    (s.codeStep).padCount = s.padCount := rfl
@[simp] theorem State.codeStep_totalWeight (s : State) :
    (s.codeStep).totalWeight = s.totalWeight := rfl
@[simp] theorem State.codeStep_freq (s : State) :
    (s.codeStep).freq = s.freq := rfl
@[simp] theorem State.codeStep_codeLen (s : State) :
    (s.codeStep).codeLen = codeLenTable s.genCodes := rfl
@[simp] theorem State.codeStep_codeBits (s : State) :
    (s.codeStep).codeBits = codeBitsTable s.genCodes := rfl
@[simp] theorem State.codeStep_node (s : State) :
    (s.codeStep).node = s.node := rfl
@[simp] theorem State.codeStep_ibuf (s : State) :
    (s.codeStep).ibuf = s.ibuf := rfl
@[simp] theorem State.codeStep_obuf (s : State) :
    (s.codeStep).obuf = s.obuf := rfl
@[simp] theorem State.codeStep_program (s : State) :
    (s.codeStep).program = s.program := rfl
@[simp] theorem State.codeStep_schedule (s : State) :
    (s.codeStep).schedule = s.schedule := rfl
@[simp] theorem State.codeStep_replies (s : State) :
    (s.codeStep).replies = s.replies := rfl
@[simp] theorem State.codeStep_draws (s : State) :
    (s.codeStep).draws = s.draws := rfl

/-! ### packStep -/

@[simp] theorem State.packStep_params (s : State) (o : Nat) (b : List Byte) :
    (s.packStep o b).params = s.params := rfl
@[simp] theorem State.packStep_phase (s : State) (o : Nat) (b : List Byte) :
    (s.packStep o b).phase = s.phase := rfl
@[simp] theorem State.packStep_ie (s : State) (o : Nat) (b : List Byte) :
    (s.packStep o b).ie = s.ie := rfl
@[simp] theorem State.packStep_done (s : State) (o : Nat) (b : List Byte) :
    (s.packStep o b).done = s.done := rfl
@[simp] theorem State.packStep_treeValid (s : State) (o : Nat) (b : List Byte) :
    (s.packStep o b).treeValid = s.treeValid := rfl
@[simp] theorem State.packStep_codeValid (s : State) (o : Nat) (b : List Byte) :
    (s.packStep o b).codeValid = s.codeValid := rfl
@[simp] theorem State.packStep_cmdOvr (s : State) (o : Nat) (b : List Byte) :
    (s.packStep o b).cmdOvr = s.cmdOvr := rfl
@[simp] theorem State.packStep_accErr (s : State) (o : Nat) (b : List Byte) :
    (s.packStep o b).accErr = s.accErr := rfl
@[simp] theorem State.packStep_errCode (s : State) (o : Nat) (b : List Byte) :
    (s.packStep o b).errCode = s.errCode := rfl
@[simp] theorem State.packStep_cmd (s : State) (o : Nat) (b : List Byte) :
    (s.packStep o b).cmd = s.cmd := rfl
@[simp] theorem State.packStep_inLen (s : State) (o : Nat) (b : List Byte) :
    (s.packStep o b).inLen = s.inLen := rfl
@[simp] theorem State.packStep_outLen (s : State) (o : Nat) (b : List Byte) :
    (s.packStep o b).outLen = s.outLen := rfl
@[simp] theorem State.packStep_errInfo (s : State) (o : Nat) (b : List Byte) :
    (s.packStep o b).errInfo = s.errInfo := rfl
@[simp] theorem State.packStep_symCount (s : State) (o : Nat) (b : List Byte) :
    (s.packStep o b).symCount = s.symCount := rfl
@[simp] theorem State.packStep_root (s : State) (o : Nat) (b : List Byte) :
    (s.packStep o b).root = s.root := rfl
@[simp] theorem State.packStep_totalBits (s : State) (o : Nat) (b : List Byte) :
    (s.packStep o b).totalBits = BitVec.ofNat 32 (s.stream b).length := rfl
@[simp] theorem State.packStep_padCount (s : State) (o : Nat) (b : List Byte) :
    (s.packStep o b).padCount = BitVec.ofNat 3 (padOf (s.stream b).length) := rfl
@[simp] theorem State.packStep_totalWeight (s : State) (o : Nat) (b : List Byte) :
    (s.packStep o b).totalWeight = s.totalWeight := rfl
@[simp] theorem State.packStep_freq (s : State) (o : Nat) (b : List Byte) :
    (s.packStep o b).freq = s.freq := rfl
@[simp] theorem State.packStep_codeLen (s : State) (o : Nat) (b : List Byte) :
    (s.packStep o b).codeLen = s.codeLen := rfl
@[simp] theorem State.packStep_codeBits (s : State) (o : Nat) (b : List Byte) :
    (s.packStep o b).codeBits = s.codeBits := rfl
@[simp] theorem State.packStep_node (s : State) (o : Nat) (b : List Byte) :
    (s.packStep o b).node = s.node := rfl
@[simp] theorem State.packStep_ibuf (s : State) (o : Nat) (b : List Byte) :
    (s.packStep o b).ibuf = s.ibuf := rfl
@[simp] theorem State.packStep_obuf (s : State) (o : Nat) (b : List Byte) :
    (s.packStep o b).obuf = Memory.writeBytes s.obuf o (payload (s.stream b)) := rfl
@[simp] theorem State.packStep_program (s : State) (o : Nat) (b : List Byte) :
    (s.packStep o b).program = s.program := rfl
@[simp] theorem State.packStep_schedule (s : State) (o : Nat) (b : List Byte) :
    (s.packStep o b).schedule = s.schedule := rfl
@[simp] theorem State.packStep_replies (s : State) (o : Nat) (b : List Byte) :
    (s.packStep o b).replies = s.replies := rfl
@[simp] theorem State.packStep_draws (s : State) (o : Nat) (b : List Byte) :
    (s.packStep o b).draws = s.draws := rfl

/-! ### presentStream -/

@[simp] theorem State.presentStream_params (s : State) (k : Nat) (p : Byte) :
    (s.presentStream k p).params = s.params := rfl
@[simp] theorem State.presentStream_phase (s : State) (k : Nat) (p : Byte) :
    (s.presentStream k p).phase = s.phase := rfl
@[simp] theorem State.presentStream_ie (s : State) (k : Nat) (p : Byte) :
    (s.presentStream k p).ie = s.ie := rfl
@[simp] theorem State.presentStream_done (s : State) (k : Nat) (p : Byte) :
    (s.presentStream k p).done = s.done := rfl
@[simp] theorem State.presentStream_treeValid (s : State) (k : Nat) (p : Byte) :
    (s.presentStream k p).treeValid = s.treeValid := rfl
@[simp] theorem State.presentStream_codeValid (s : State) (k : Nat) (p : Byte) :
    (s.presentStream k p).codeValid = s.codeValid := rfl
@[simp] theorem State.presentStream_cmdOvr (s : State) (k : Nat) (p : Byte) :
    (s.presentStream k p).cmdOvr = s.cmdOvr := rfl
@[simp] theorem State.presentStream_accErr (s : State) (k : Nat) (p : Byte) :
    (s.presentStream k p).accErr = s.accErr := rfl
@[simp] theorem State.presentStream_errCode (s : State) (k : Nat) (p : Byte) :
    (s.presentStream k p).errCode = s.errCode := rfl
@[simp] theorem State.presentStream_cmd (s : State) (k : Nat) (p : Byte) :
    (s.presentStream k p).cmd = s.cmd := rfl
@[simp] theorem State.presentStream_inLen (s : State) (k : Nat) (p : Byte) :
    (s.presentStream k p).inLen = s.inLen := rfl
@[simp] theorem State.presentStream_outLen (s : State) (k : Nat) (p : Byte) :
    (s.presentStream k p).outLen = s.outLen := rfl
@[simp] theorem State.presentStream_errInfo (s : State) (k : Nat) (p : Byte) :
    (s.presentStream k p).errInfo = s.errInfo := rfl
@[simp] theorem State.presentStream_symCount (s : State) (k : Nat) (p : Byte) :
    (s.presentStream k p).symCount = s.symCount := rfl
@[simp] theorem State.presentStream_root (s : State) (k : Nat) (p : Byte) :
    (s.presentStream k p).root = s.root := rfl
@[simp] theorem State.presentStream_totalBits (s : State) (k : Nat) (p : Byte) :
    (s.presentStream k p).totalBits = BitVec.ofNat 32 k := rfl
@[simp] theorem State.presentStream_padCount (s : State) (k : Nat) (p : Byte) :
    (s.presentStream k p).padCount = BitVec.ofNat 3 p.toNat := rfl
@[simp] theorem State.presentStream_totalWeight (s : State) (k : Nat) (p : Byte) :
    (s.presentStream k p).totalWeight = s.totalWeight := rfl
@[simp] theorem State.presentStream_freq (s : State) (k : Nat) (p : Byte) :
    (s.presentStream k p).freq = s.freq := rfl
@[simp] theorem State.presentStream_codeLen (s : State) (k : Nat) (p : Byte) :
    (s.presentStream k p).codeLen = s.codeLen := rfl
@[simp] theorem State.presentStream_codeBits (s : State) (k : Nat) (p : Byte) :
    (s.presentStream k p).codeBits = s.codeBits := rfl
@[simp] theorem State.presentStream_node (s : State) (k : Nat) (p : Byte) :
    (s.presentStream k p).node = s.node := rfl
@[simp] theorem State.presentStream_ibuf (s : State) (k : Nat) (p : Byte) :
    (s.presentStream k p).ibuf = s.ibuf := rfl
@[simp] theorem State.presentStream_obuf (s : State) (k : Nat) (p : Byte) :
    (s.presentStream k p).obuf = s.obuf := rfl
@[simp] theorem State.presentStream_program (s : State) (k : Nat) (p : Byte) :
    (s.presentStream k p).program = s.program := rfl
@[simp] theorem State.presentStream_schedule (s : State) (k : Nat) (p : Byte) :
    (s.presentStream k p).schedule = s.schedule := rfl
@[simp] theorem State.presentStream_replies (s : State) (k : Nat) (p : Byte) :
    (s.presentStream k p).replies = s.replies := rfl
@[simp] theorem State.presentStream_draws (s : State) (k : Nat) (p : Byte) :
    (s.presentStream k p).draws = s.draws := rfl

/-! ### storeOutput -/

@[simp] theorem State.storeOutput_params (s : State) (b : List Byte) :
    (s.storeOutput b).params = s.params := rfl
@[simp] theorem State.storeOutput_phase (s : State) (b : List Byte) :
    (s.storeOutput b).phase = s.phase := rfl
@[simp] theorem State.storeOutput_ie (s : State) (b : List Byte) :
    (s.storeOutput b).ie = s.ie := rfl
@[simp] theorem State.storeOutput_done (s : State) (b : List Byte) :
    (s.storeOutput b).done = s.done := rfl
@[simp] theorem State.storeOutput_treeValid (s : State) (b : List Byte) :
    (s.storeOutput b).treeValid = s.treeValid := rfl
@[simp] theorem State.storeOutput_codeValid (s : State) (b : List Byte) :
    (s.storeOutput b).codeValid = s.codeValid := rfl
@[simp] theorem State.storeOutput_cmdOvr (s : State) (b : List Byte) :
    (s.storeOutput b).cmdOvr = s.cmdOvr := rfl
@[simp] theorem State.storeOutput_accErr (s : State) (b : List Byte) :
    (s.storeOutput b).accErr = s.accErr := rfl
@[simp] theorem State.storeOutput_errCode (s : State) (b : List Byte) :
    (s.storeOutput b).errCode = s.errCode := rfl
@[simp] theorem State.storeOutput_cmd (s : State) (b : List Byte) :
    (s.storeOutput b).cmd = s.cmd := rfl
@[simp] theorem State.storeOutput_inLen (s : State) (b : List Byte) :
    (s.storeOutput b).inLen = s.inLen := rfl
@[simp] theorem State.storeOutput_outLen (s : State) (b : List Byte) :
    (s.storeOutput b).outLen = s.outLen := rfl
@[simp] theorem State.storeOutput_errInfo (s : State) (b : List Byte) :
    (s.storeOutput b).errInfo = s.errInfo := rfl
@[simp] theorem State.storeOutput_symCount (s : State) (b : List Byte) :
    (s.storeOutput b).symCount = s.symCount := rfl
@[simp] theorem State.storeOutput_root (s : State) (b : List Byte) :
    (s.storeOutput b).root = s.root := rfl
@[simp] theorem State.storeOutput_totalBits (s : State) (b : List Byte) :
    (s.storeOutput b).totalBits = s.totalBits := rfl
@[simp] theorem State.storeOutput_padCount (s : State) (b : List Byte) :
    (s.storeOutput b).padCount = s.padCount := rfl
@[simp] theorem State.storeOutput_totalWeight (s : State) (b : List Byte) :
    (s.storeOutput b).totalWeight = s.totalWeight := rfl
@[simp] theorem State.storeOutput_freq (s : State) (b : List Byte) :
    (s.storeOutput b).freq = s.freq := rfl
@[simp] theorem State.storeOutput_codeLen (s : State) (b : List Byte) :
    (s.storeOutput b).codeLen = s.codeLen := rfl
@[simp] theorem State.storeOutput_codeBits (s : State) (b : List Byte) :
    (s.storeOutput b).codeBits = s.codeBits := rfl
@[simp] theorem State.storeOutput_node (s : State) (b : List Byte) :
    (s.storeOutput b).node = s.node := rfl
@[simp] theorem State.storeOutput_ibuf (s : State) (b : List Byte) :
    (s.storeOutput b).ibuf = s.ibuf := rfl
@[simp] theorem State.storeOutput_obuf (s : State) (b : List Byte) :
    (s.storeOutput b).obuf = Memory.writeBytes s.obuf 0 b := rfl
@[simp] theorem State.storeOutput_program (s : State) (b : List Byte) :
    (s.storeOutput b).program = s.program := rfl
@[simp] theorem State.storeOutput_schedule (s : State) (b : List Byte) :
    (s.storeOutput b).schedule = s.schedule := rfl
@[simp] theorem State.storeOutput_replies (s : State) (b : List Byte) :
    (s.storeOutput b).replies = s.replies := rfl
@[simp] theorem State.storeOutput_draws (s : State) (b : List Byte) :
    (s.storeOutput b).draws = s.draws := rfl

/-! ### pendWord -/

@[simp] theorem State.pendWord_params (s : State) (v : Word) :
    (s.pendWord v).params = s.params := rfl
@[simp] theorem State.pendWord_phase (s : State) (v : Word) :
    (s.pendWord v).phase = .busy v := rfl
@[simp] theorem State.pendWord_ie (s : State) (v : Word) :
    (s.pendWord v).ie = s.ie := rfl
@[simp] theorem State.pendWord_done (s : State) (v : Word) :
    (s.pendWord v).done = false := rfl
@[simp] theorem State.pendWord_treeValid (s : State) (v : Word) :
    (s.pendWord v).treeValid = s.treeValid := rfl
@[simp] theorem State.pendWord_codeValid (s : State) (v : Word) :
    (s.pendWord v).codeValid = s.codeValid := rfl
@[simp] theorem State.pendWord_cmdOvr (s : State) (v : Word) :
    (s.pendWord v).cmdOvr = s.cmdOvr := rfl
@[simp] theorem State.pendWord_accErr (s : State) (v : Word) :
    (s.pendWord v).accErr = s.accErr := rfl
@[simp] theorem State.pendWord_errCode (s : State) (v : Word) :
    (s.pendWord v).errCode = .noError := rfl
@[simp] theorem State.pendWord_cmd (s : State) (v : Word) :
    (s.pendWord v).cmd = v := rfl
@[simp] theorem State.pendWord_inLen (s : State) (v : Word) :
    (s.pendWord v).inLen = s.inLen := rfl
@[simp] theorem State.pendWord_outLen (s : State) (v : Word) :
    (s.pendWord v).outLen = s.outLen := rfl
@[simp] theorem State.pendWord_errInfo (s : State) (v : Word) :
    (s.pendWord v).errInfo = s.errInfo := rfl
@[simp] theorem State.pendWord_symCount (s : State) (v : Word) :
    (s.pendWord v).symCount = s.symCount := rfl
@[simp] theorem State.pendWord_root (s : State) (v : Word) :
    (s.pendWord v).root = s.root := rfl
@[simp] theorem State.pendWord_totalBits (s : State) (v : Word) :
    (s.pendWord v).totalBits = s.totalBits := rfl
@[simp] theorem State.pendWord_padCount (s : State) (v : Word) :
    (s.pendWord v).padCount = s.padCount := rfl
@[simp] theorem State.pendWord_totalWeight (s : State) (v : Word) :
    (s.pendWord v).totalWeight = s.totalWeight := rfl
@[simp] theorem State.pendWord_freq (s : State) (v : Word) :
    (s.pendWord v).freq = s.freq := rfl
@[simp] theorem State.pendWord_codeLen (s : State) (v : Word) :
    (s.pendWord v).codeLen = s.codeLen := rfl
@[simp] theorem State.pendWord_codeBits (s : State) (v : Word) :
    (s.pendWord v).codeBits = s.codeBits := rfl
@[simp] theorem State.pendWord_node (s : State) (v : Word) :
    (s.pendWord v).node = s.node := rfl
@[simp] theorem State.pendWord_ibuf (s : State) (v : Word) :
    (s.pendWord v).ibuf = s.ibuf := rfl
@[simp] theorem State.pendWord_obuf (s : State) (v : Word) :
    (s.pendWord v).obuf = s.obuf := rfl
@[simp] theorem State.pendWord_program (s : State) (v : Word) :
    (s.pendWord v).program = s.program := rfl
@[simp] theorem State.pendWord_schedule (s : State) (v : Word) :
    (s.pendWord v).schedule = .core :: s.schedule := rfl
@[simp] theorem State.pendWord_replies (s : State) (v : Word) :
    (s.pendWord v).replies = s.replies := rfl
@[simp] theorem State.pendWord_draws (s : State) (v : Word) :
    (s.pendWord v).draws = s.draws := rfl

/-! ### hardReset -/

@[simp] theorem State.hardReset_params (s : State) (d : Draws) :
    (s.hardReset d).params = s.params := rfl
@[simp] theorem State.hardReset_phase (s : State) (d : Draws) :
    (s.hardReset d).phase = .idle := rfl
@[simp] theorem State.hardReset_ie (s : State) (d : Draws) :
    (s.hardReset d).ie = false := rfl
@[simp] theorem State.hardReset_done (s : State) (d : Draws) :
    (s.hardReset d).done = false := rfl
@[simp] theorem State.hardReset_treeValid (s : State) (d : Draws) :
    (s.hardReset d).treeValid = false := rfl
@[simp] theorem State.hardReset_codeValid (s : State) (d : Draws) :
    (s.hardReset d).codeValid = false := rfl
@[simp] theorem State.hardReset_cmdOvr (s : State) (d : Draws) :
    (s.hardReset d).cmdOvr = false := rfl
@[simp] theorem State.hardReset_accErr (s : State) (d : Draws) :
    (s.hardReset d).accErr = false := rfl
@[simp] theorem State.hardReset_errCode (s : State) (d : Draws) :
    (s.hardReset d).errCode = .noError := rfl
@[simp] theorem State.hardReset_cmd (s : State) (d : Draws) :
    (s.hardReset d).cmd = 0#32 := rfl
@[simp] theorem State.hardReset_inLen (s : State) (d : Draws) :
    (s.hardReset d).inLen = 0#32 := rfl
@[simp] theorem State.hardReset_outLen (s : State) (d : Draws) :
    (s.hardReset d).outLen = 0#32 := rfl
@[simp] theorem State.hardReset_errInfo (s : State) (d : Draws) :
    (s.hardReset d).errInfo = { reason := 0#4, value := 0#28 } := rfl
@[simp] theorem State.hardReset_symCount (s : State) (d : Draws) :
    (s.hardReset d).symCount = 0#9 := rfl
@[simp] theorem State.hardReset_root (s : State) (d : Draws) :
    (s.hardReset d).root = { valid := false, index := 0#9 } := rfl
@[simp] theorem State.hardReset_totalBits (s : State) (d : Draws) :
    (s.hardReset d).totalBits = 0#32 := rfl
@[simp] theorem State.hardReset_padCount (s : State) (d : Draws) :
    (s.hardReset d).padCount = 0#3 := rfl
@[simp] theorem State.hardReset_totalWeight (s : State) (d : Draws) :
    (s.hardReset d).totalWeight = 0#32 := rfl
@[simp] theorem State.hardReset_freq (s : State) (d : Draws) :
    (s.hardReset d).freq = d.freq := rfl
@[simp] theorem State.hardReset_codeLen (s : State) (d : Draws) :
    (s.hardReset d).codeLen = d.codeLen := rfl
@[simp] theorem State.hardReset_codeBits (s : State) (d : Draws) :
    (s.hardReset d).codeBits = d.codeBits := rfl
@[simp] theorem State.hardReset_node (s : State) (d : Draws) :
    (s.hardReset d).node = d.node := rfl
@[simp] theorem State.hardReset_ibuf (s : State) (d : Draws) :
    (s.hardReset d).ibuf = Memory.writeBytes [] 0 (d.ibuf.take s.params.bufBytes) := rfl
@[simp] theorem State.hardReset_obuf (s : State) (d : Draws) :
    (s.hardReset d).obuf = Memory.writeBytes [] 0 (d.obuf.take s.params.bufBytes) := rfl
@[simp] theorem State.hardReset_program (s : State) (d : Draws) :
    (s.hardReset d).program = s.program := rfl
@[simp] theorem State.hardReset_schedule (s : State) (d : Draws) :
    (s.hardReset d).schedule = s.schedule := rfl
@[simp] theorem State.hardReset_replies (s : State) (d : Draws) :
    (s.hardReset d).replies = s.replies := rfl
@[simp] theorem State.hardReset_draws (s : State) (d : Draws) :
    (s.hardReset d).draws = s.draws := rfl

end Sys2Proof.Machine
end

