-- ==== Sys2Proof/Laws/Table.lean ====
section
/-! SUPPORT. Reading a table after each way of making one. -/

namespace Sys2Proof.Machine

variable {α : Type} {n : Nat}

theorem Table.ext_at {t u : Table α n} (h : ∀ i (hi : i < n), t.at i hi = u.at i hi) : t = u := by
  obtain ⟨l, hl⟩ := t
  obtain ⟨m, hm⟩ := u
  have : l = m := List.ext_getElem (hl.trans hm.symm) fun i hi _ => h i (hl ▸ hi)
  subst this
  rfl

@[simp] theorem Table.at_ofFn (f : Nat → α) (i : Nat) (h : i < n) : (Table.ofFn n f).at i h = f i := by
  simp [Table.at, Table.ofFn]

@[simp] theorem Table.at_fill (a : α) (i : Nat) (h : i < n) : (Table.fill n a).at i h = a := by
  simp [Table.at, Table.fill]

theorem Table.at_set (t : Table α n) (k : Nat) (a : α) (i : Nat) (h : i < n) :
    (t.set k a).at i h = if k = i then a else t.at i h := by
  simp [Table.at, Table.set, List.getElem_set]

@[simp] theorem Table.bySymbol_fill (a : α) (c : Byte) : (Table.fill 256 a).bySymbol c = a :=
  Table.at_fill a c.toNat c.isLt

@[simp] theorem Table.bySymbol_ofSymbols (f : Byte → α) (c : Byte) :
    (Table.ofSymbols f).bySymbol c = f c := by
  simp [Table.bySymbol, Table.ofSymbols]

@[simp] theorem Table.bySymbol_set_same (t : Table α 256) (c : Byte) (a : α) :
    (t.set c.toNat a).bySymbol c = a := by
  simp [Table.bySymbol, Table.at_set]

theorem Table.bySymbol_set_other (t : Table α 256) {c d : Byte} (a : α) (h : c ≠ d) :
    (t.set c.toNat a).bySymbol d = t.bySymbol d := by
  have : c.toNat ≠ d.toNat := fun e => h (BitVec.eq_of_toNat_eq e)
  simp [Table.bySymbol, Table.at_set, this]

theorem Table.length_entries (t : Table α n) : t.entries.length = n := t.len

theorem Table.getElem_entries (t : Table α n) (i : Nat) (h : i < n) :
    t.entries[i]'(by rw [t.len]; exact h) = t.at i h := rfl

theorem Table.ext_bySymbol {t u : Table α 256} (h : ∀ c, t.bySymbol c = u.bySymbol c) : t = u := by
  refine Table.ext_at fun i hi => ?_
  have hc := h (BitVec.ofNat 8 i)
  have hm : i % 256 = i := Nat.mod_eq_of_lt hi
  simpa [Table.bySymbol, hm] using hc

end Sys2Proof.Machine
end

