-- ==== Sys2Proof/Laws/Exec.lean ====
section
/-! SUPPORT. Inversion lemmas: what each check lets pass, what a command, a Host access and a step
can do. Later proofs cite these instead of unfolding the definitions. -/

namespace Sys2Proof.Machine

/-! ### Checks -/

@[simp] theorem rangeCheck_eq_none (s : State) :
    s.rangeCheck = none ↔ s.inputLen ≤ s.params.bufBytes := by
  simp [State.rangeCheck]

@[simp] theorem weightCheck_eq_none (s : State) :
    s.weightCheck = none ↔ weightSum s.freq ≤ 0xFFFFFFFF := by
  simp [State.weightCheck]

@[simp] theorem treeCheck_eq_none (s : State) : s.treeCheck = none ↔ s.treeValid = true := by
  simp [State.treeCheck]

@[simp] theorem codesCheck_eq_none (s : State) : s.codesCheck = none ↔ s.codeValid = true := by
  simp [State.codesCheck]

@[simp] theorem headerCheck_eq_none (s : State) : s.headerCheck = none ↔ s.inputLen ≠ 0 := by
  simp [State.headerCheck]

@[simp] theorem containerCheck_eq_none (s : State) :
    s.containerCheck = none ↔ 1025 ≤ s.inputLen := by
  simp [State.containerCheck]

@[simp] theorem countCheck_eq_none (s : State) :
    s.countCheck = none ↔ weightSum s.containerFreq ≤ s.params.bufBytes := by
  simp [State.countCheck]

@[simp] theorem padCheck_eq_none (s : State) (o m : Nat) :
    s.padCheck o m = none
      ↔ (Memory.read s.ibuf o).toNat ≤ 7 ∧ (Memory.read s.ibuf o).toNat ≤ 8 * m := by
  by_cases h : (Memory.read s.ibuf o).toNat ≤ 7
  · simp [State.padCheck, h, Nat.not_lt.mpr h]
  · simp [State.padCheck, h, Nat.lt_of_not_le h]

theorem firstMissing_eq_none (s : State) (k : Nat) (b : List Byte) :
    s.firstMissing k b = none ↔ ∀ c ∈ b, s.codeLenOf c ≠ 0 := by
  induction b generalizing k with
  | nil => simp [State.firstMissing]
  | cons c b ih => by_cases h : s.codeLenOf c = 0 <;> simp [State.firstMissing, h, ih]

@[simp] theorem integrityCheck_eq_none (s : State) :
    s.integrityCheck = none ↔ ∀ c ∈ s.inputBytes, s.codeLenOf c ≠ 0 := by
  simp [State.integrityCheck, firstMissing_eq_none]

@[simp] theorem packCapacityCheck_eq_none (s : State) :
    s.packCapacityCheck = none
      ↔ 1 + packedLen (s.streamLen s.inputBytes) ≤ s.params.bufBytes := by
  simp [State.packCapacityCheck]

/-- When PACK's checks pass (R185). -/
theorem packCheck_eq_none (s : State) :
    s.packCheck = none ↔ s.codeValid = true ∧ s.inputLen ≤ s.params.bufBytes
      ∧ (∀ c ∈ s.inputBytes, s.codeLenOf c ≠ 0)
      ∧ 1 + packedLen (s.streamLen s.inputBytes) ≤ s.params.bufBytes := by
  rw [← codesCheck_eq_none, ← rangeCheck_eq_none, ← integrityCheck_eq_none,
    ← packCapacityCheck_eq_none, State.packCheck]
  cases s.codesCheck <;> cases s.rangeCheck <;> cases s.integrityCheck <;> simp

/-- When UNPACK's checks pass (R200). -/
theorem unpackCheck_eq_none (s : State) :
    s.unpackCheck = none ↔ s.codeValid = true ∧ s.inputLen ≤ s.params.bufBytes
      ∧ s.inputLen ≠ 0 ∧ (Memory.read s.ibuf 0).toNat ≤ 7
      ∧ (Memory.read s.ibuf 0).toNat ≤ 8 * (s.inputLen - 1) := by
  rw [← codesCheck_eq_none, ← rangeCheck_eq_none, ← headerCheck_eq_none, ← padCheck_eq_none,
    State.unpackCheck]
  cases s.codesCheck <;> cases s.rangeCheck <;> cases s.headerCheck <;> simp

/-- When DECODE's checks pass (R226). -/
theorem decodeCheck_eq_none (s : State) :
    s.decodeCheck = none ↔ s.inputLen ≤ s.params.bufBytes ∧ 1025 ≤ s.inputLen
      ∧ ((Memory.read s.ibuf 1024).toNat ≤ 7
        ∧ (Memory.read s.ibuf 1024).toNat ≤ 8 * (s.inputLen - 1025))
      ∧ weightSum s.containerFreq ≤ s.params.bufBytes := by
  rw [← rangeCheck_eq_none, ← containerCheck_eq_none, ← padCheck_eq_none, ← countCheck_eq_none,
    State.decodeCheck]
  cases s.rangeCheck <;> cases s.containerCheck <;> cases s.padCheck 1024 (s.inputLen - 1025)
    <;> simp

/-! ### Commands -/

/-- The state a command leaves. -/
def after (i : Instr) (s : State) : State :=
  match exec i s with
  | .next t => t
  | .fault _ => s
  | .refused _ => s

/-- Every command answers a next state. -/
theorem exec_eq_next (i : Instr) (s : State) : exec i s = .next (after i s) := by
  cases i <;> simp only [after, exec]
  · rfl
  · rfl
  · rw [execFreqCount]; split <;> rfl
  · rw [execTreeBuild]; split <;> rfl
  · rw [execCodeGen]; split <;> rfl
  · rw [execPack]; split <;> rfl
  · rw [execUnpack]; split <;> rfl
  · rw [execEncode]; split
    · rfl
    · split <;> rfl
  · rw [execDecode]; split <;> rfl

/-- A walk's end writes only OBUF and completion state (R203). -/
theorem finishWalk_eq (s : State) (r : WalkResult) :
    s.finishWalk r
      = match r.error with
        | some e => (s.storeOutput r.out).raise r.out.length e
        | none => (s.storeOutput r.out).succeed r.out.length := rfl

theorem mem_inputBytes (s : State) (c : Byte) :
    c ∈ s.inputBytes ↔ ∃ k < s.inputLen, Memory.read s.ibuf k = c := by
  simp [State.inputBytes, Memory.readBytes, List.mem_range']

theorem length_inputBytes (s : State) : s.inputBytes.length = s.inputLen := by
  simp [State.inputBytes, Memory.readBytes]

@[simp] theorem length_codeOf (s : State) (c : Byte) : (s.codeOf c).length = s.codeLenOf c := by
  simp [State.codeOf]

theorem length_stream (s : State) (b : List Byte) : (s.stream b).length = s.streamLen b := by
  induction b with
  | nil => rfl
  | cons c b ih => simp_all [State.stream, State.streamLen]

/-- The sum over the present symbols is the sum over all. -/
theorem weightSum_eq (f : Table Word 256) : weightSum f = (f.entries.map BitVec.toNat).sum := by
  unfold weightSum
  induction f.entries with
  | nil => rfl
  | cons w ws ih => by_cases h : w = 0#32 <;> simp_all

/-! ### The parameters -/

/-- What every configuration satisfies (R7, R60). -/
theorem params_legal (p : Config.Params) :
    p.bufBytes % 4 = 0 ∧ 1028 ≤ p.bufBytes ∧ p.bufBytes ≤ 0x01000000
      ∧ p.base % 0x04000000 = 0 := by
  have h := p.ok
  simp only [Config.legal, Bool.and_eq_true, beq_iff_eq, decide_eq_true_eq] at h
  exact ⟨h.1.1.1, h.1.1.2, h.1.2, h.2⟩

/-! ### The tables a tree-building and a code-generation step leave -/

theorem genCodes_codeStep (s : State) : s.codeStep.genCodes = s.genCodes := rfl

/-! ### Steps -/

/-- What a Host access can do to the state (R110). -/
theorem hostAccess_cases (s : State) (a : Access) :
    (s.hostAccess a).1 = s ∨ (s.hostAccess a).1 = { s with draws := s.draws + 1 }
      ∨ ∃ l v, s.target a = some l ∧ a.dir = .write v ∧ l.readOnly = false
        ∧ ((s.busy = true ∧ (s.hostAccess a).1 = s.busyWrite l v)
          ∨ (s.busy = false ∧ (s.hostAccess a).1 = s.idleWrite l v)) := by
  simp only [State.hostAccess]
  cases ht : s.target a with
  | none => exact .inl rfl
  | some l =>
    cases hd : a.dir with
    | read =>
      simp only [State.readLoc, State.busyRead]
      split
      · split
        · exact .inl rfl
        · exact .inr (.inl rfl)
      · exact .inl rfl
    | write v =>
      simp only [State.writeLoc]
      cases hr : l.readOnly with
      | true => exact .inl rfl
      | false =>
        cases hb : s.busy with
        | true => exact .inr (.inr ⟨l, v, rfl, rfl, hr, .inl ⟨rfl, rfl⟩⟩)
        | false => exact .inr (.inr ⟨l, v, rfl, rfl, hr, .inr ⟨rfl, rfl⟩⟩)

/-- The Core's step (R31): it stays when IDLE, completes a command, or completes an illegal word. -/
theorem coreTurn_cases {s t : State} (h : s.coreTurn = .next t) :
    (s.phase = .idle ∧ t = s)
      ∨ (∃ v i, s.phase = .busy v ∧ decode v = .ok i ∧ exec i s = .next t)
      ∨ ∃ v e, s.phase = .busy v ∧ decode v = .error e ∧ t = s.raise 0 (badCommand e) := by
  simp only [State.coreTurn] at h
  cases hp : s.phase with
  | idle =>
    rw [hp] at h
    cases h
    exact .inl ⟨rfl, rfl⟩
  | busy v =>
    rw [hp] at h
    simp only [execWord] at h
    cases hd : decode v with
    | ok i =>
      rw [hd] at h
      exact .inr (.inl ⟨v, i, rfl, hd, h⟩)
    | error e =>
      rw [hd] at h
      cases h
      exact .inr (.inr ⟨v, e, rfl, hd, rfl⟩)

/-- A step is one turn: the Host's, the Core's, or the hardware reset (R15). -/
theorem step_cases {s t : State} (h : step s = .next t) :
    (∃ rest, s.schedule = .host :: rest ∧ t = { s with schedule := rest }.hostTurn)
      ∨ (∃ rest, s.schedule = .core :: rest ∧ State.coreTurn { s with schedule := rest } = .next t)
      ∨ (∃ d rest, s.schedule = .reset d :: rest ∧ t = { s with schedule := rest }.hardReset d)
      ∨ (s.schedule = [] ∧ s.busy = true ∧ s.coreTurn = .next t)
      ∨ (s.schedule = [] ∧ s.busy = false ∧ t = s.hostTurn) := by
  simp only [step, State.takeTurn] at h
  cases hs : s.schedule with
  | nil =>
    rw [hs] at h
    cases hb : s.busy with
    | true => exact .inr (.inr (.inr (.inl ⟨rfl, rfl, by simpa [hb] using h⟩)))
    | false =>
      simp only [hb, Bool.false_eq_true, if_false] at h
      cases h
      exact .inr (.inr (.inr (.inr ⟨rfl, rfl, rfl⟩)))
  | cons u rest =>
    rw [hs] at h
    cases u with
    | host =>
      cases h
      exact .inl ⟨rest, rfl, rfl⟩
    | core => exact .inr (.inl ⟨rest, rfl, h⟩)
    | reset d =>
      cases h
      exact .inr (.inr (.inl ⟨d, rest, rfl, rfl⟩))

end Sys2Proof.Machine
end

