-- ==== Sys2Proof/Laws/Memory.lean ====
section
/-! SUPPORT. The buffers: reading after a write, and the canonical form, which every memory
operation keeps. -/

namespace Sys2Proof.Machine

theorem Memory.read_write (m : Memory) (k : Nat) (b : Byte) (a : Nat) (lo : Nat)
    (h : Memory.wfFrom lo m = true) :
    Memory.read (Memory.write m k b) a = if a = k then b else Memory.read m a := by
  induction m generalizing lo with
  | nil =>
    by_cases hb : b = Config.unwrittenByte
    · by_cases ha : a = k <;> simp [Memory.write, Memory.read, hb, ha]
    · by_cases ha : a = k
      · simp [Memory.write, Memory.read, hb, ha]
      · simp [Memory.write, Memory.read, hb, ha, Ne.symm ha]
  | cons c m ih =>
    obtain ⟨x, y⟩ := c
    simp only [Memory.wfFrom, Bool.and_eq_true, decide_eq_true_eq, bne_iff_ne] at h
    obtain ⟨⟨-, hy⟩, hm⟩ := h
    have low : ∀ (m : Memory) (lo a : Nat), Memory.wfFrom lo m = true → a < lo →
        Memory.read m a = Config.unwrittenByte := by
      intro m
      induction m with
      | nil => intros; rfl
      | cons c m ih =>
        intro lo a h ha
        obtain ⟨x, y⟩ := c
        simp only [Memory.wfFrom, Bool.and_eq_true, decide_eq_true_eq] at h
        have hx : x ≠ a := by omega
        simpa [Memory.read, hx] using ih _ a h.2 (by omega)
    simp only [Memory.write]
    split
    · rename_i hk
      split
      · rename_i hb
        by_cases ha : a = k
        · subst ha
          have hx : x ≠ a := by omega
          simp [Memory.read, hx, hb, low m (x + 1) a hm (by omega)]
        · simp [ha]
      · by_cases ha : a = k
        · simp [Memory.read, ha]
        · simp [Memory.read, ha, Ne.symm ha]
    · split
      · rename_i hk
        subst hk
        split
        · rename_i hb
          by_cases ha : a = k
          · subst ha
            simp [hb, low m (a + 1) a hm (by omega)]
          · simp [Memory.read, ha, Ne.symm ha]
        · by_cases ha : a = k
          · simp [Memory.read, ha]
          · simp [Memory.read, ha, Ne.symm ha]
      · rename_i hk
        by_cases hx : x = a
        · subst hx
          simp [Memory.read, Ne.symm hk]
        · simp [Memory.read, hx, ih _ hm]

theorem Memory.read_write_same (m : Memory) (k : Nat) (b : Byte) (h : Memory.wf m = true) :
    Memory.read (Memory.write m k b) k = b := by
  simp [Memory.read_write m k b k 0 h]

theorem Memory.read_write_other (m : Memory) {k a : Nat} (b : Byte) (h : Memory.wf m = true)
    (ne : a ≠ k) : Memory.read (Memory.write m k b) a = Memory.read m a := by
  simp [Memory.read_write m k b a 0 h, ne]

theorem Memory.wfFrom_mono {m : Memory} {lo lo' : Nat} (h : Memory.wfFrom lo m = true)
    (hl : lo' ≤ lo) : Memory.wfFrom lo' m = true := by
  cases m with
  | nil => rfl
  | cons c m =>
    simp only [Memory.wfFrom, Bool.and_eq_true, decide_eq_true_eq] at h ⊢
    exact ⟨⟨by omega, h.1.2⟩, h.2⟩

theorem Memory.wfFrom_write (m : Memory) (k : Nat) (b : Byte) (lo : Nat) (hk : lo ≤ k)
    (h : Memory.wfFrom lo m = true) : Memory.wfFrom lo (Memory.write m k b) = true := by
  induction m generalizing lo with
  | nil => by_cases hb : b = Config.unwrittenByte <;> simp [Memory.write, Memory.wfFrom, hb, hk]
  | cons c m ih =>
    obtain ⟨x, y⟩ := c
    have h' := h
    simp only [Memory.wfFrom, Bool.and_eq_true, decide_eq_true_eq, bne_iff_ne] at h
    obtain ⟨⟨hx, hy⟩, hm⟩ := h
    simp only [Memory.write]
    split
    · rename_i hkx
      split
      · exact h'
      · rename_i hb
        simp only [Memory.wfFrom, Bool.and_eq_true, decide_eq_true_eq, bne_iff_ne]
        exact ⟨⟨hk, hb⟩, ⟨by omega, hy⟩, hm⟩
    · split
      · split
        · exact Memory.wfFrom_mono hm (by omega)
        · rename_i hkx hb
          subst hkx
          simp only [Memory.wfFrom, Bool.and_eq_true, decide_eq_true_eq, bne_iff_ne]
          exact ⟨⟨hx, hb⟩, hm⟩
      · simp only [Memory.wfFrom, Bool.and_eq_true, decide_eq_true_eq, bne_iff_ne]
        exact ⟨⟨hx, hy⟩, ih (x + 1) (by omega) hm⟩

theorem Memory.wf_nil : Memory.wf [] = true := rfl

/-- Every write of a byte keeps the canonical form. -/
theorem Memory.wf_write (m : Memory) (k : Nat) (b : Byte) (h : Memory.wf m = true) :
    Memory.wf (Memory.write m k b) = true :=
  Memory.wfFrom_write m k b 0 (Nat.zero_le k) h

/-- Every write of bytes keeps the canonical form. -/
theorem Memory.wf_writeBytes (m : Memory) (k : Nat) (bs : List Byte) (h : Memory.wf m = true) :
    Memory.wf (Memory.writeBytes m k bs) = true := by
  induction bs generalizing m k with
  | nil => exact h
  | cons b bs ih => exact ih _ _ (Memory.wf_write m k b h)

theorem Memory.wf_writeWord (m : Memory) (k : Nat) (v : Word) (h : Memory.wf m = true) :
    Memory.wf (Memory.writeWord m k v) = true :=
  Memory.wf_writeBytes m k _ h

/-- What a byte reads as after `MemWrite(buffer, k, bytes)`. -/
theorem Memory.read_writeBytes (m : Memory) (k : Nat) (bs : List Byte) (a : Nat)
    (h : Memory.wf m = true) :
    Memory.read (Memory.writeBytes m k bs) a
      = if k ≤ a ∧ a < k + bs.length then bs.getD (a - k) 0#8 else Memory.read m a := by
  induction bs generalizing m k with
  | nil =>
    rw [Memory.writeBytes, if_neg (by simp)]
  | cons b bs ih =>
    rw [Memory.writeBytes, ih _ _ (Memory.wf_write m k b h)]
    by_cases h1 : k + 1 ≤ a ∧ a < k + 1 + bs.length
    · have h2 : k ≤ a ∧ a < k + (b :: bs).length := by simp only [List.length_cons]; omega
      have h3 : a - k = (a - (k + 1)) + 1 := by omega
      rw [if_pos h1, if_pos h2, h3, List.getD_cons_succ]
    · rw [if_neg h1]
      by_cases h4 : a = k
      · subst h4
        have h2 : a ≤ a ∧ a < a + (b :: bs).length := by simp only [List.length_cons]; omega
        rw [if_pos h2, Memory.read_write_same m a b h]
        simp
      · have h2 : ¬ (k ≤ a ∧ a < k + (b :: bs).length) := by simp only [List.length_cons]; omega
        rw [if_neg h2, Memory.read_write_other m b h h4]

@[simp] theorem Memory.length_readBytes (m : Memory) (k n : Nat) :
    (Memory.readBytes m k n).length = n := by simp [Memory.readBytes]

@[simp] theorem Memory.getElem_readBytes (m : Memory) (k n i : Nat)
    (h : i < (Memory.readBytes m k n).length) :
    (Memory.readBytes m k n)[i] = Memory.read m (k + i) := by simp [Memory.readBytes]

theorem Memory.below_write (n : Nat) (m : Memory) (k : Nat) (b : Byte) (hk : k < n)
    (h : Memory.below n m = true) : Memory.below n (Memory.write m k b) = true := by
  induction m with
  | nil => by_cases hb : b = Config.unwrittenByte <;> simp [Memory.write, Memory.below, hb, hk]
  | cons c m ih =>
    obtain ⟨x, y⟩ := c
    simp only [Memory.below, List.all_cons, Bool.and_eq_true, decide_eq_true_eq] at h
    simp only [Memory.write]
    split
    · split <;> simp [Memory.below, hk, h.1, h.2]
    · split
      · split <;> simp [Memory.below, hk] <;> simpa [Memory.below] using h.2
      · simp only [Memory.below, List.all_cons, Bool.and_eq_true, decide_eq_true_eq]
        exact ⟨h.1, ih h.2⟩

/-- A write of bytes inside a buffer of n bytes keeps every listed offset inside it. -/
theorem Memory.below_writeBytes (n : Nat) (m : Memory) (k : Nat) (bs : List Byte)
    (hk : k + bs.length ≤ n) (h : Memory.below n m = true) :
    Memory.below n (Memory.writeBytes m k bs) = true := by
  induction bs generalizing m k with
  | nil => exact h
  | cons b bs ih =>
    simp only [List.length_cons] at hk
    exact ih _ _ (by omega) (Memory.below_write n m k b (by omega) h)

end Sys2Proof.Machine
end

