-- ==== Sys2Proof/Laws/PerInstr.lean ====
section
/-! SUPPORT. Per-command statements: the one word of a command (spec/30_encoding.md R91, R94). -/

namespace Sys2Proof.Laws.OneWord

/-- The command's word is legal, with its opcode in [7:0] and 0 in [31:8]. -/
def Statement (i : Instr) : Prop :=
  commandWordWf (encode i) = true ∧ opcodeField (encode i) = opcode i ∧ rsvdField (encode i) = 0#24
    ∧ i.wf = true

theorem nop : Statement .nop := ⟨rfl, rfl, rfl, rfl⟩
theorem clear : Statement .clear := ⟨rfl, rfl, rfl, rfl⟩
theorem freqCount : Statement .freqCount := ⟨rfl, rfl, rfl, rfl⟩
theorem treeBuild : Statement .treeBuild := ⟨rfl, rfl, rfl, rfl⟩
theorem codeGen : Statement .codeGen := ⟨rfl, rfl, rfl, rfl⟩
theorem pack : Statement .pack := ⟨rfl, rfl, rfl, rfl⟩
theorem unpack : Statement .unpack := ⟨rfl, rfl, rfl, rfl⟩
theorem encode : Statement .encode := ⟨rfl, rfl, rfl, rfl⟩
theorem decode : Statement .decode := ⟨rfl, rfl, rfl, rfl⟩

end Sys2Proof.Laws.OneWord
end

