-- ==== Sys2Proof/Laws/Streams.lean ====
section
/-! SUPPORT. Bit sequences: their values, packing and expanding them, the codes the tables hold, and
what one stretch of the decoder's walk does. -/

namespace Sys2Proof.Machine

/-! ### Values of bit sequences (00_scope.md R11) -/

theorem bitsVal_append (c d : Bits) : bitsVal (c ++ d) = bitsVal c * 2 ^ d.length + bitsVal d := by
  have h : ∀ (d : Bits) (v : Nat), d.foldl (fun v b => 2 * v + b.toNat) v
      = v * 2 ^ d.length + d.foldl (fun v b => 2 * v + b.toNat) 0 := by
    intro d
    induction d with
    | nil => simp
    | cons b d ih =>
      intro v
      rw [List.foldl_cons, List.foldl_cons, ih, ih (2 * 0 + b.toNat), List.length_cons, pow_succ]
      ring
  rw [bitsVal, List.foldl_append, h]
  rfl

theorem bitsVal_lt (c : Bits) : bitsVal c < 2 ^ c.length := by
  induction c using List.reverseRecOn with
  | nil => simp [bitsVal]
  | append_singleton c b ih =>
    rw [bitsVal_append, List.length_append, pow_add]
    have : bitsVal [b] < 2 := by cases b <;> simp [bitsVal]
    simp only [List.length_singleton, pow_one] at *
    omega

/-- Bit j from the right of the value is bit len − 1 − j from the left of the sequence. -/
theorem testBit_bitsVal (p : Bits) (j : Nat) (h : j < p.length) :
    (bitsVal p).testBit j = p[p.length - 1 - j]'(by omega) := by
  induction p using List.reverseRecOn generalizing j with
  | nil => simp at h
  | append_singleton p b ih =>
    have hb : bitsVal [b] = b.toNat := by cases b <;> rfl
    rw [bitsVal_append, hb, List.length_singleton, pow_one]
    rw [List.length_append, List.length_singleton] at h
    cases j with
    | zero =>
      have : (bitsVal p * 2 + b.toNat).testBit 0 = b := by
        rw [Nat.testBit_zero]
        cases b <;> simp
      rw [this, List.getElem_append_right (by simp)]
      simp
    | succ j =>
      have e : (bitsVal p * 2 + b.toNat) / 2 = bitsVal p := by cases b <;> (simp; try omega)
      rw [Nat.testBit_succ, e, ih j (by omega), List.getElem_append_left (by simp; omega)]
      congr 1
      simp
      omega

/-! ### Packing and expanding (R187, R202) -/

@[simp] theorem length_packBits (t : Bits) : (packBits t).length = packedLen t.length := by
  simp [packBits]

@[simp] theorem length_payload (t : Bits) : (payload t).length = 1 + packedLen t.length := by
  simp [payload, Nat.add_comm]

theorem padOf_le (m : Nat) : padOf m ≤ 7 := by
  simp only [padOf, packedLen]
  omega

/-- "8·nbytes − pad = m" (R190). -/
theorem padOf_add (m : Nat) : m + padOf m = 8 * packedLen m := by
  simp only [padOf, packedLen]
  omega

theorem getD_pad (t : Bits) (n k : Nat) : (t ++ List.replicate n false).getD k false = t.getD k false := by
  rw [List.getD_eq_getElem?_getD, List.getD_eq_getElem?_getD]
  by_cases h : k < t.length
  · rw [List.getElem?_append_left h]
  · rw [List.getElem?_append_right (by omega), List.getElem?_eq_none (by omega : t.length ≤ k),
      List.getElem?_replicate]
    split <;> rfl

/-- Stream bit 8j + i is bit 7 − i of packed byte j (R63, R187). -/
theorem getLsbD_packBits (t : Bits) (j i : Nat) (hj : j < packedLen t.length) (hi : i < 8) :
    ((packBits t)[j]'(by simpa using hj)).getLsbD (7 - i) = t.getD (8 * j + i) false := by
  have hl : (((t ++ List.replicate (padOf t.length) false).drop (8 * j)).take 8).length = 8 := by
    have := padOf_add t.length
    simp
    omega
  simp only [packBits, List.getElem_map, List.getElem_range', Nat.zero_add, Nat.one_mul]
  rw [BitVec.getLsbD_ofNat, testBit_bitsVal _ _ (by omega)]
  simp only [hl]
  rw [List.getElem_take, List.getElem_drop, ← getD_pad t (padOf t.length),
    List.getD_eq_getElem?_getD, List.getElem?_eq_getElem (by have := padOf_add t.length; simp; omega)]
  have e : 8 * j + (8 - 1 - (7 - i)) = 8 * j + i := by omega
  simp [e]
  omega

@[simp] theorem length_byteBits (b : Byte) : (byteBits b).length = 8 := by simp [byteBits]

theorem length_flatMap_byteBits (bs : List Byte) : (bs.flatMap byteBits).length = 8 * bs.length := by
  induction bs with
  | nil => rfl
  | cons b bs ih => simp [ih]; omega

/-- Bit k of the expanded sequence is bit 7 − (k mod 8) of byte k div 8 (R202). -/
theorem getElem_flatMap_byteBits (bs : List Byte) (k : Nat) (h : k < 8 * bs.length) :
    (bs.flatMap byteBits)[k]'(by rwa [length_flatMap_byteBits])
      = (bs[k / 8]'(by omega)).getLsbD (7 - k % 8) := by
  induction bs generalizing k with
  | nil => simp at h
  | cons b bs ih =>
    simp only [List.flatMap_cons]
    by_cases hk : k < 8
    · rw [List.getElem_append_left (by simpa using hk)]
      simp [byteBits, Nat.div_eq_of_lt hk, Nat.mod_eq_of_lt hk]
    · rw [List.getElem_append_right (by simpa using hk)]
      simp only [List.length_cons] at h
      simp only [length_byteBits]
      rw [ih (k - 8) (by omega)]
      have e1 : k / 8 = (k - 8) / 8 + 1 := by omega
      have e2 : k % 8 = (k - 8) % 8 := by omega
      simp [e1, e2]

/-- Expanding what was packed, less the pad bits, gives the stream back (R187, R202). -/
theorem expand_packBits (t : Bits) : expand (packBits t) t.length = t := by
  have hp := padOf_add t.length
  apply List.ext_getElem
  · simp [expand]
    omega
  · intro k h h'
    have hk : k / 8 < packedLen t.length := by omega
    simp only [expand, List.getElem_take]
    rw [getElem_flatMap_byteBits _ _ (by simp; omega),
      getLsbD_packBits t (k / 8) (k % 8) hk (by omega)]
    have e : 8 * (k / 8) + k % 8 = k := by omega
    rw [e, List.getD_eq_getElem?_getD, List.getElem?_eq_getElem h']
    rfl

/-! ### The codes the tables hold (R43, R172) -/

theorem codeStep_codeLenOf (s : State) (c : Byte) :
    s.codeStep.codeLenOf c
      = match CodeMap.find s.genCodes c with
        | none => 0
        | some p => p.length % 256 := by
  simp only [State.codeLenOf, State.codeStep, codeLenTable, Table.bySymbol_ofSymbols]
  cases CodeMap.find s.genCodes c <;> simp

/-- A symbol with no code has the empty bit sequence. -/
theorem codeStep_codeOf_none (s : State) (c : Byte) (h : CodeMap.find s.genCodes c = none) :
    s.codeStep.codeOf c = [] := by
  rw [← List.length_eq_zero_iff, length_codeOf, codeStep_codeLenOf, h]

/-- The tables hold a code of at most 255 bits exactly (R43). -/
theorem codeStep_codeOf_some (s : State) (c : Byte) (p : Bits)
    (h : CodeMap.find s.genCodes c = some p) (hp : p.length ≤ 255) : s.codeStep.codeOf c = p := by
  have hl : s.codeStep.codeLenOf c = p.length := by
    rw [codeStep_codeLenOf, h]
    exact Nat.mod_eq_of_lt (by omega)
  apply List.ext_getElem
  · rw [length_codeOf, hl]
  · intro k h1 h2
    simp only [State.codeOf, List.getElem_map, List.getElem_range', hl]
    simp only [State.codeStep, codeBitsTable, Table.bySymbol_ofSymbols, h]
    rw [BitVec.getLsbD_ofNat, testBit_bitsVal _ _ (by omega)]
    have e : p.length - 1 - (p.length - 1 - (0 + 1 * k)) = k := by omega
    have e' : p.length - 1 - (0 + 1 * k) < 256 := by omega
    simp only [e, e', decide_true, Bool.true_and]

/-! ### The decoder's walk (45_bitstream_decoder.md R203) -/

/-- The walk reads the tree only: NODE, ROOT and SYM_COUNT. -/
theorem walk_congr {s t : State} (hn : t.node = s.node) (hr : t.root = s.root)
    (hc : t.symCount = s.symCount) (n : Option Nat) (cap : Nat) (b : Bits) (k : Nat)
    (cur : Option (BitVec 9)) (d : Nat) (out : List Byte) :
    t.walk n cap b k cur d out = s.walk n cap b k cur d out := by
  have h : t.nodeAt = s.nodeAt := by
    funext i
    simp only [State.nodeAt, hn]
  induction b generalizing k cur d out with
  | nil => rfl
  | cons x b ih => simp only [State.walk, h, hr, hc, ih]

/-- With two or more symbols, the bits of a path from the candidate's node to a leaf emit that leaf's
symbol and start a new candidate. -/
theorem walk_path (s : State) (n : Option Nat) (cap : Nat) (hL : 2 ≤ s.symCount.toNat)
    (p t : Bits) (k : Nat) (cur : Option (BitVec 9)) (d : Nat) (out : List Byte) (j : BitVec 9)
    (hn : n ≠ some out.length) (hcap : out.length ≠ cap) (hp : p ≠ [])
    (hj : (s.nodeAt j).internal = false) (h : PathTo s.nodeAt (cur.getD s.root.index) p j) :
    s.walk n cap (p ++ t) k cur d out
      = s.walk n cap t (k + p.length) none 0 (out ++ [(s.nodeAt j).symbol]) := by
  induction p generalizing k cur d with
  | nil => exact absurd rfl hp
  | cons b p ih =>
    have h0 : s.symCount.toNat ≠ 0 := by omega
    have h1 : s.symCount.toNat ≠ 1 := by omega
    simp only [PathTo] at h
    simp only [List.cons_append, State.walk, hn, h0, h1, if_false]
    cases p with
    | nil =>
      simp only [PathTo] at h
      rw [h.2]
      simp [hj, hcap]
    | cons b' p =>
      have hi : (s.nodeAt (if b then (s.nodeAt (cur.getD s.root.index)).right
          else (s.nodeAt (cur.getD s.root.index)).left)).internal = true := h.2.1
      refine (if_pos hi).trans ((ih (k + 1) (some _) (d + 1) (by simp) h.2).trans ?_)
      congr 1
      simp only [List.length_cons]
      omega

/-- A path that stops inside the tree only lengthens the candidate. -/
theorem walk_inside (s : State) (n : Option Nat) (cap : Nat) (hL : 2 ≤ s.symCount.toNat)
    (p t : Bits) (k : Nat) (cur : Option (BitVec 9)) (d : Nat) (out : List Byte) (j : BitVec 9)
    (hn : n ≠ some out.length) (hp : p ≠ []) (hj : (s.nodeAt j).internal = true)
    (h : PathTo s.nodeAt (cur.getD s.root.index) p j) :
    s.walk n cap (p ++ t) k cur d out
      = s.walk n cap t (k + p.length) (some j) (d + p.length) out := by
  induction p generalizing k cur d with
  | nil => exact absurd rfl hp
  | cons b p ih =>
    have h0 : s.symCount.toNat ≠ 0 := by omega
    have h1 : s.symCount.toNat ≠ 1 := by omega
    simp only [PathTo] at h
    simp only [List.cons_append, State.walk, hn, h0, h1, if_false]
    cases p with
    | nil =>
      simp only [PathTo] at h
      rw [h.2]
      simp [hj]
    | cons b' p =>
      have hi : (s.nodeAt (if b then (s.nodeAt (cur.getD s.root.index)).right
          else (s.nodeAt (cur.getD s.root.index)).left)).internal = true := h.2.1
      refine (if_pos hi).trans ((ih (k + 1) (some _) (d + 1) (by simp) h.2).trans ?_)
      congr 1 <;> simp only [List.length_cons] <;> omega

/-- With one symbol, a 0 bit emits it (R203). -/
theorem walk_single (s : State) (n : Option Nat) (cap : Nat) (hL : s.symCount.toNat = 1)
    (t : Bits) (k : Nat) (cur : Option (BitVec 9)) (d : Nat) (out : List Byte)
    (hn : n ≠ some out.length) (hcap : out.length ≠ cap) :
    s.walk n cap (false :: t) k cur d out
      = s.walk n cap t (k + 1) none 0 (out ++ [(s.nodeAt s.root.index).symbol]) := by
  simp [State.walk, hn, hL, hcap]

end Sys2Proof.Machine
end

