-- ==== Sys2Proof/Laws/Tree.lean ====
section
/-! SUPPORT. What the priority order, the merge loop and the leaves of the tree builder can do. Later
proofs cite these instead of unfolding the definitions. -/

namespace Sys2Proof.Machine

/-! ### The priority order (42_tree_builder.md R155) -/

theorem keyLt_iff (x y : Key) : keyLt x y = true ↔ x.1 < y.1 ∨ (x.1 = y.1 ∧ x.2 < y.2) := by
  simp [keyLt]

theorem keyLt_trans {x y z : Key} (h : keyLt x y = true) (h' : keyLt y z = true) :
    keyLt x z = true := by
  rw [keyLt_iff] at *
  omega

theorem keyLt_irrefl (x : Key) : keyLt x x = false := by
  simp [keyLt]

/-- The order is total: a key that does not come before k is k or comes after it. -/
theorem keyLt_of_not {x k : Key} (h : keyLt x k = false) : x = k ∨ keyLt k x = true := by
  have h' : ¬ (x.1 < k.1 ∨ (x.1 = k.1 ∧ x.2 < k.2)) := by rw [← keyLt_iff, h]; simp
  by_cases e : x = k
  · exact .inl e
  · refine .inr ((keyLt_iff _ _).mpr ?_)
    have : ¬ (x.1 = k.1 ∧ x.2 = k.2) := fun e' => e (Prod.ext e'.1 e'.2)
    omega

/-- `lowest` is one of the keys, and none comes before it. -/
theorem lowest_spec (x : Key) (ks : List Key) :
    lowest x ks ∈ x :: ks ∧ ∀ y ∈ x :: ks, keyLt y (lowest x ks) = false := by
  unfold lowest
  induction ks generalizing x with
  | nil => simp [keyLt_irrefl]
  | cons k ks ih =>
    rw [List.foldl_cons]
    obtain ⟨hm, hl⟩ := ih (if keyLt k x = true then k else x)
    refine ⟨?_, ?_⟩
    · rcases List.mem_cons.mp hm with h | h
      · rw [h]
        split <;> simp
      · exact List.mem_cons_of_mem _ (List.mem_cons_of_mem _ h)
    · have hx := hl _ (List.mem_cons_self ..)
      intro y hy
      rcases List.mem_cons.mp hy with rfl | hy
      · by_contra hc
        rw [Bool.not_eq_false] at hc
        split at hx
        · rename_i hk
          exact absurd (keyLt_trans hk (by simpa [hk] using hc)) (by simp_all)
        · simp_all
      · rcases List.mem_cons.mp hy with rfl | hy
        · by_contra hc
          rw [Bool.not_eq_false] at hc
          split at hx
          · simp_all
          · rename_i hk
            rw [Bool.not_eq_true] at hk
            simp only [hk, Bool.false_eq_true, if_false] at hc hx
            rcases keyLt_of_not hk with e | e
            · rw [e] at hc; simp_all
            · exact absurd (keyLt_trans e hc) (by simp [hx])
        · exact hl y (List.mem_cons_of_mem _ hy)

theorem takeLowest_eq_none (ks : List Key) : takeLowest ks = none ↔ ks = [] := by
  cases ks <;> simp [takeLowest]

/-- What `takeLowest` removes and what it leaves. -/
theorem takeLowest_spec {ks rest : List Key} {k : Key} (h : takeLowest ks = some (k, rest)) :
    k ∈ ks ∧ rest = ks.erase k ∧ ∀ y ∈ ks, keyLt y k = false := by
  cases ks with
  | nil => simp [takeLowest] at h
  | cons x ks =>
    simp only [takeLowest, Option.some.injEq, Prod.mk.injEq] at h
    obtain ⟨rfl, rfl⟩ := h
    exact ⟨(lowest_spec x ks).1, rfl, (lowest_spec x ks).2⟩

theorem takeLowest_length {ks rest : List Key} {k : Key} (h : takeLowest ks = some (k, rest)) :
    rest.length + 1 = ks.length := by
  obtain ⟨hm, rfl, -⟩ := takeLowest_spec h
  rw [List.length_erase_of_mem hm]
  have := List.length_pos_of_mem hm
  omega

/-! ### The merge loop (R152, R156) -/

/-- One merge: with two or more nodes in the collection the two lowest are removed. -/
theorem mergeLoop_succ (fuel : Nat) (nodes : List TreeNode) {active : List Key}
    (h : 2 ≤ active.length) :
    ∃ a rest b rest', takeLowest active = some (a, rest) ∧ takeLowest rest = some (b, rest')
      ∧ mergeLoop (fuel + 1) nodes active
          = mergeLoop fuel (nodes ++ [.internal (a.1 + b.1) a.2 b.2])
              (rest' ++ [(a.1 + b.1, nodes.length)]) := by
  cases ha : takeLowest active with
  | none => rw [takeLowest_eq_none] at ha; simp [ha] at h
  | some r =>
    obtain ⟨a, rest⟩ := r
    have hr := takeLowest_length ha
    cases hb : takeLowest rest with
    | none => rw [takeLowest_eq_none] at hb; simp [hb] at hr; omega
    | some r' => exact ⟨a, rest, r'.1, r'.2, rfl, hb, by simp [mergeLoop, ha, hb]⟩

/-- What every merge keeps holds when the loop ends, with one node left in the collection. -/
theorem mergeLoop_induct (P : List TreeNode → List Key → Prop)
    (merge : ∀ nodes active a rest b rest', P nodes active → takeLowest active = some (a, rest) →
      takeLowest rest = some (b, rest') →
      P (nodes ++ [.internal (a.1 + b.1) a.2 b.2]) (rest' ++ [(a.1 + b.1, nodes.length)]))
    (fuel : Nat) (nodes : List TreeNode) (active : List Key) (h : active.length = fuel + 1)
    (base : P nodes active) : ∃ k, P (mergeLoop fuel nodes active) [k] := by
  induction fuel generalizing nodes active with
  | zero =>
    obtain ⟨k, rfl⟩ := List.length_eq_one_iff.mp h
    exact ⟨k, base⟩
  | succ fuel ih =>
    obtain ⟨a, rest, b, rest', ha, hb, he⟩ := mergeLoop_succ fuel nodes (active := active) (by omega)
    rw [he]
    refine ih _ _ ?_ (merge _ _ _ _ _ _ base ha hb)
    have := takeLowest_length ha
    have := takeLowest_length hb
    simp
    omega

/-- Each merge adds one node after the others. -/
theorem mergeLoop_prefix (fuel : Nat) (nodes : List TreeNode) (active : List Key)
    (h : active.length = fuel + 1) :
    ∃ new, mergeLoop fuel nodes active = nodes ++ new ∧ new.length = fuel := by
  induction fuel generalizing nodes active with
  | zero => exact ⟨[], by simp [mergeLoop], rfl⟩
  | succ fuel ih =>
    obtain ⟨a, rest, b, rest', ha, hb, he⟩ := mergeLoop_succ fuel nodes (active := active) (by omega)
    have h1 := takeLowest_length ha
    have h2 := takeLowest_length hb
    obtain ⟨new, hn, hl⟩ := ih (nodes ++ [.internal (a.1 + b.1) a.2 b.2])
      (rest' ++ [(a.1 + b.1, nodes.length)]) (by simp; omega)
    exact ⟨.internal (a.1 + b.1) a.2 b.2 :: new, by rw [he, hn]; simp, by simp [hl]⟩

@[simp] theorem length_leafKeys (ls : List TreeNode) : (leafKeys ls).length = ls.length := by
  simp [leafKeys]

/-! ### The leaves and the arena (R151, R156) -/

theorem mem_alphabet (f : Table Word 256) (c : Byte) : c ∈ alphabet f ↔ f.bySymbol c ≠ 0#32 := by
  simp only [alphabet, symbols, List.mem_filter, List.mem_map, List.mem_range, decide_eq_true_eq]
  exact ⟨fun h => h.2, fun h => ⟨⟨c.toNat, c.isLt, by simp⟩, h⟩⟩

theorem nodup_symbols : symbols.Nodup := by
  unfold symbols
  refine List.Nodup.map_on ?_ List.nodup_range
  intro x hx y hy h
  rw [List.mem_range] at hx hy
  simpa [BitVec.toNat_ofNat, Nat.mod_eq_of_lt hx, Nat.mod_eq_of_lt hy]
    using congrArg BitVec.toNat h

theorem nodup_alphabet (f : Table Word 256) : (alphabet f).Nodup := nodup_symbols.filter _

theorem length_alphabet_le (f : Table Word 256) : (alphabet f).length ≤ 256 :=
  (List.length_filter_le _ _).trans (by simp [symbols])

/-- The leaves are the alphabet, ascending, each with its count. -/
theorem leaves_eq (f : Table Word 256) :
    leaves f = (alphabet f).map fun c => .leaf c (f.bySymbol c).toNat := by
  have hz : f.entries.zipIdx = (List.range 256).map fun i =>
      (f.bySymbol (BitVec.ofNat 8 i), i) := by
    apply List.ext_getElem
    · simp [f.len]
    · intro i h h'
      have hi : i < 256 := by simpa [f.len] using h
      simp [Table.bySymbol, Table.at, Nat.mod_eq_of_lt hi]
  have h : ∀ l : List Nat,
      (l.map fun i => (f.bySymbol (BitVec.ofNat 8 i), i)).filterMap (fun (w, i) =>
          if w = 0#32 then none else some (TreeNode.leaf (BitVec.ofNat 8 i) w.toNat))
        = ((l.map (BitVec.ofNat 8)).filter fun c => decide (f.bySymbol c ≠ 0#32)).map fun c =>
            .leaf c (f.bySymbol c).toNat := by
    intro l
    induction l with
    | nil => rfl
    | cons i l ih =>
      simp only [List.map_cons, List.filterMap_cons, List.filter_cons]
      by_cases hw : f.bySymbol (BitVec.ofNat 8 i) = 0#32
      · simp only [hw, if_true, ne_eq, not_true, decide_false, Bool.false_eq_true, if_false]
        exact ih
      · simp only [hw, if_false, ne_eq, not_false_eq_true, decide_true, if_true, List.map_cons]
        exact congrArg _ ih
  rw [leaves, hz]
  exact h _

theorem alphabetSize_eq (f : Table Word 256) : alphabetSize f = (alphabet f).length := by
  simp [alphabetSize, leaves_eq]

theorem alphabetSize_le (f : Table Word 256) : alphabetSize f ≤ 256 :=
  alphabetSize_eq f ▸ length_alphabet_le f

/-- The arena has the leaves first, then max(L − 1, 0) internal nodes. -/
theorem buildTree_eq (f : Table Word 256) :
    ∃ new, buildTree f = leaves f ++ new ∧ new.length = alphabetSize f - 1 := by
  by_cases h : (leaves f).length = 0
  · exact ⟨[], by simp [buildTree, h, mergeLoop], by simp [alphabetSize, h]⟩
  · exact mergeLoop_prefix _ _ _ (by simp; omega)

theorem length_buildTree (f : Table Word 256) : (buildTree f).length = 2 * alphabetSize f - 1 := by
  obtain ⟨new, h, hl⟩ := buildTree_eq f
  rw [h, List.length_append, hl, ← alphabetSize]
  omega

/-- What the leaves have and every merge keeps, the arena has; one key is left (R152). -/
theorem buildTree_induct (f : Table Word 256) (P : List TreeNode → List Key → Prop)
    (hL : 1 ≤ alphabetSize f) (base : P (leaves f) (leafKeys (leaves f)))
    (merge : ∀ nodes active a rest b rest', P nodes active → takeLowest active = some (a, rest) →
      takeLowest rest = some (b, rest') →
      P (nodes ++ [.internal (a.1 + b.1) a.2 b.2]) (rest' ++ [(a.1 + b.1, nodes.length)])) :
    ∃ k, P (buildTree f) [k] :=
  mergeLoop_induct P merge _ _ _ (by rw [alphabetSize] at hL; simp; omega) base

/-- Node i of the table is node i of the arena, or absent (R154). -/
theorem at_arenaTable (nodes : List TreeNode) (i : Nat) (h : i < 511) :
    (arenaTable nodes).at i h
      = match nodes[i]? with
        | some n => n.encode
        | none => Node.absent := Table.at_ofFn _ i h

/-! ### The cost of the merges (R159, R191) -/

/-- The sum of the weights of some keys. -/
def keySum (ks : List Key) : Nat := (ks.map Prod.fst).sum

@[simp] theorem keySum_cons (k : Key) (ks : List Key) : keySum (k :: ks) = k.1 + keySum ks := rfl

@[simp] theorem keySum_append (ks js : List Key) : keySum (ks ++ js) = keySum ks + keySum js := by
  simp [keySum]

theorem keySum_erase {k : Key} {ks : List Key} (h : k ∈ ks) :
    k.1 + keySum (ks.erase k) = keySum ks :=
  (List.Perm.sum_eq (((List.perm_cons_erase h).symm.map Prod.fst)))

theorem keySum_subperm {o ks : List Key} (h : o.Subperm ks) : keySum o ≤ keySum ks := by
  obtain ⟨l, hp, hs⟩ := h
  rw [keySum, ← List.Perm.sum_eq (hp.map Prod.fst)]
  exact List.Sublist.sum_le_sum (hs.map Prod.fst) (fun _ _ => Nat.zero_le _)

/-- When the lowest key leaves the collection, some key at least as heavy leaves any chosen part. -/
theorem takeLowest_part {ks rest o : List Key} {a : Key} (h : takeLowest ks = some (a, rest))
    (ho : o.Subperm ks) (hne : o ≠ []) : ∃ x ∈ o, (o.erase x).Subperm rest ∧ a.1 ≤ x.1 := by
  obtain ⟨-, rfl, hl⟩ := takeLowest_spec h
  by_cases ha : a ∈ o
  · exact ⟨a, ha, ho.erase a, le_refl _⟩
  · obtain ⟨x, hx⟩ := List.exists_mem_of_ne_nil o hne
    refine ⟨x, hx, ?_, ?_⟩
    · have := ho.erase a
      rw [List.erase_of_not_mem ha] at this
      exact (List.erase_sublist ..).subperm.trans this
    · have := hl x (ho.subset hx)
      rw [← Bool.not_eq_true, keyLt_iff] at this
      omega

/-- j merges cost at most the weight of any 2j keys of the collection. -/
theorem mergeLoop_part (j fuel : Nat) (nodes : List TreeNode) (active o : List Key)
    (h : active.length = j + fuel + 1) (ho : o.Subperm active) (hj : o.length = 2 * j) :
    ∃ new active', mergeLoop (j + fuel) nodes active = mergeLoop fuel (nodes ++ new) active'
      ∧ active'.length = fuel + 1 ∧ keySum active' = keySum active
      ∧ (new.map TreeNode.weight).sum ≤ keySum o := by
  induction j generalizing nodes active o with
  | zero => exact ⟨[], active, by simp, by omega, rfl, by simp⟩
  | succ j ih =>
    obtain ⟨a, rest, b, rest', ha, hb, he⟩ :=
      mergeLoop_succ (j + fuel) nodes (active := active) (by omega)
    obtain ⟨x, hx, hox, hax⟩ := takeLowest_part ha ho (by rintro rfl; simp at hj)
    have hlx := List.length_erase_of_mem hx
    obtain ⟨y, hy, hoy, hby⟩ := takeLowest_part hb hox
      (by intro e; rw [e] at hlx; simp at hlx; omega)
    have hly := List.length_erase_of_mem hy
    have h1 := takeLowest_length ha
    have h2 := takeLowest_length hb
    obtain ⟨new, act, hm, hl, hs, hc⟩ := ih (nodes ++ [.internal (a.1 + b.1) a.2 b.2])
      (rest' ++ [(a.1 + b.1, nodes.length)]) ((o.erase x).erase y) (by simp; omega)
      (hoy.trans (List.sublist_append_left ..).subperm) (by omega)
    refine ⟨.internal (a.1 + b.1) a.2 b.2 :: new, act, ?_, hl, ?_, ?_⟩
    · rw [Nat.add_right_comm, he, hm]
      simp
    · obtain ⟨ma, ra, -⟩ := takeLowest_spec ha
      obtain ⟨mb, rb, -⟩ := takeLowest_spec hb
      have e1 := keySum_erase ma
      have e2 := keySum_erase mb
      rw [← ra] at e1
      rw [← rb] at e2
      rw [hs]
      simp [keySum] at *
      omega
    · have e1 := keySum_erase hx
      have e2 := keySum_erase hy
      simp only [List.map_cons, List.sum_cons, TreeNode.weight]
      omega

/-- With at most 2^n nodes the merges of the whole loop cost at most n times the total weight. -/
theorem mergeLoop_cost (n fuel : Nat) (nodes : List TreeNode) (active : List Key)
    (h : active.length = fuel + 1) (hn : active.length ≤ 2 ^ n) :
    ∃ new, mergeLoop fuel nodes active = nodes ++ new
      ∧ (new.map TreeNode.weight).sum ≤ n * keySum active := by
  induction n generalizing fuel nodes active with
  | zero =>
    obtain rfl : fuel = 0 := by simp at hn; omega
    exact ⟨[], by simp [mergeLoop], by simp⟩
  | succ n ih =>
    rw [pow_succ] at hn
    obtain ⟨new, act, hm, hl, hs, hc⟩ := mergeLoop_part (active.length / 2)
      (fuel - active.length / 2) nodes active (active.take (2 * (active.length / 2))) (by omega)
      (List.take_sublist ..).subperm (by simp; omega)
    obtain ⟨new', hm', hc'⟩ := ih _ (nodes ++ new) act hl (by omega)
    have hf : active.length / 2 + (fuel - active.length / 2) = fuel := by omega
    have ht : keySum (active.take (2 * (active.length / 2))) ≤ keySum active :=
      keySum_subperm (List.take_sublist ..).subperm
    refine ⟨new ++ new', by rw [hf] at hm; rw [hm, hm']; simp, ?_⟩
    rw [List.map_append, List.sum_append, Nat.succ_mul, ← hs]
    omega

theorem keySum_leafKeys (f : Table Word 256) : keySum (leafKeys (leaves f)) = weightSum f := by
  have h : ∀ (ls : List TreeNode) (k : Nat),
      (((ls.zipIdx k).map fun (n, i) => ((n.weight, i) : Key)).map Prod.fst).sum
        = (ls.map TreeNode.weight).sum := by
    intro ls
    induction ls with
    | nil => intro; rfl
    | cons n ls ih => intro k; simpa using ih (k + 1)
  rw [keySum, leafKeys, h, leaves, weightSum]
  have h' : ∀ (ws : List Word) (k : Nat),
      (((ws.zipIdx k).filterMap fun (w, i) =>
          if w = 0#32 then none else some (TreeNode.leaf (BitVec.ofNat 8 i) w.toNat)).map
            TreeNode.weight).sum
        = ((ws.filter fun w => decide (w ≠ 0#32)).map BitVec.toNat).sum := by
    intro ws
    induction ws with
    | nil => intro; rfl
    | cons w ws ih =>
      intro k
      by_cases hw : w = 0#32
      · simpa [hw] using ih (k + 1)
      · simpa [hw, TreeNode.weight] using ih (k + 1)
  exact h' _ 0

/-- The internal nodes weigh at most eight times the total: the alphabet has at most 2^8 symbols. -/
theorem internal_weight_le (f : Table Word 256) :
    (((buildTree f).drop (alphabetSize f)).map TreeNode.weight).sum ≤ 8 * weightSum f := by
  by_cases h : (leaves f).length = 0
  · have e : buildTree f = leaves f := by simp [buildTree, h, mergeLoop]
    rw [e, List.drop_eq_nil_of_le (by simp [alphabetSize])]
    simp
  · have hl := alphabetSize_le f
    rw [alphabetSize] at hl ⊢
    obtain ⟨new, hm, hc⟩ := mergeLoop_cost 8 ((leaves f).length - 1) (leaves f)
      (leafKeys (leaves f)) (by simp; omega) (by simpa using hl)
    rw [buildTree, hm, List.drop_left, ← keySum_leafKeys]
    exact hc

end Sys2Proof.Machine
end

