-- ==== Sys2Proof/Tests/Slice0.lean ====
section
/-! SUPPORT. Tests, each with its expected result from the spec's encodings and vectors
(spec/95_test_vectors.md), and one witness per statement that has hypotheses. -/

namespace Sys2Proof.Tests

open Sys2Proof.Machine

/-! ### Small states -/

/-- AAABBC, the source's worked example (S1). -/
def abc : List Byte := [0x41#8, 0x41#8, 0x41#8, 0x42#8, 0x42#8, 0x43#8]

/-- The input bs in IBUF and IN_LEN. -/
def input (bs : List Byte) (s : State) : State :=
  { s with ibuf := Memory.writeBytes [] 0 bs, inLen := BitVec.ofNat 32 bs.length }

/-- IN_LEN alone. -/
def inLen (n : Nat) (s : State) : State := { s with inLen := BitVec.ofNat 32 n }

/-- The tree and codes of bs. -/
def coded (bs : List Byte) : State := (State.reset.loadFreq (freqTable bs)).treeStep.codeStep

/-- FREQ[c] = v for the pairs given, else 0. -/
def counts (l : List (Byte × Word)) : State :=
  { State.reset with freq := l.foldl (fun f p => f.set p.1.toNat p.2) State.reset.freq }

/-- The smallest buffers. -/
def small (s : State) : State := { s with params := { bufBytes := 1028, base := 0, irqLine := 0, ok := by decide } }

/-- The pending command word v. -/
def pending (v : Word) (s : State) : State := { s with phase := .busy v, cmd := v }

/-- The next state has t's input from s's output. -/
def copied (t : State) (n : Nat) : State := { State.reset with ibuf := t.obuf, inLen := BitVec.ofNat 32 n }

theorem step_pending {s : State} {v : Word} {i : Instr} (h : s.schedule = []) (hd : decode v = .ok i) :
    step (pending v s) = exec i (pending v s) := by
  simp [step, State.takeTurn, pending, h, State.busy, State.coreTurn, execWord, hd]

theorem coded_tablesOk (bs : List Byte) (h : weightSum (freqTable bs) ≤ 0xFFFFFFFF) :
    TablesOk (coded bs) :=
  { tree := fun _ => ⟨h, rfl, rfl, rfl, rfl⟩
    codes := fun _ => ⟨rfl, rfl, rfl⟩ }

theorem memoryOk_reset : MemoryOk State.reset := ⟨by decide, by decide, by decide, by decide⟩

theorem memoryOk_input : MemoryOk (input abc State.reset) :=
  ⟨by decide, by decide, by decide, by decide⟩

/-! ### Decoding: the words of R90 and R91, bit by bit -/

theorem test_decode_nop : decode 0b00000000000000000000000000000000#32 = .ok .nop := by decide
theorem test_decode_clear : decode 0b00000000000000000000000000000001#32 = .ok .clear := by decide
theorem test_decode_freqCount :
    decode 0b00000000000000000000000000000010#32 = .ok .freqCount := by decide
theorem test_decode_treeBuild :
    decode 0b00000000000000000000000000000011#32 = .ok .treeBuild := by decide
theorem test_decode_codeGen :
    decode 0b00000000000000000000000000000100#32 = .ok .codeGen := by decide
theorem test_decode_pack : decode 0b00000000000000000000000000000101#32 = .ok .pack := by decide
theorem test_decode_unpack : decode 0b00000000000000000000000000000110#32 = .ok .unpack := by decide
theorem test_decode_encode : decode 0b00000000000000000000000000000111#32 = .ok .encode := by decide
theorem test_decode_decode : decode 0b00000000000000000000000000001000#32 = .ok .decode := by decide

/-- NC4, NC5, NC6: the two BAD_CMD causes, reserved bits first. -/
theorem test_decode_rejects :
    decode 0x00000100#32 = .error (.reservedBits 1#24)
      ∧ decode 0x00000009#32 = .error (.reservedOpcode 9#8)
      ∧ decode 0x000001FF#32 = .error (.reservedBits 1#24) := by decide

theorem test_tableWord : decodeTableWord 32 7 = some .encode ∧ decodeTableWord 32 9 = none := by
  decide

/-! ### Ill-formed terms are refused -/

theorem test_wf_word_reserved_bits : commandWordWf 0x00000100#32 = false := by decide
theorem test_wf_word_reserved_opcode : commandWordWf 0x00000009#32 = false := by decide
theorem test_wf_params_too_small : paramsWf 1024 0 = false := by decide
theorem test_wf_params_not_multiple_of_4 : paramsWf 1030 0 = false := by decide
theorem test_wf_params_too_big : paramsWf 0x01000004 0 = false := by decide
theorem test_wf_params_base : paramsWf 65536 0x02000000 = false := by decide
theorem test_wf_memory_order : Memory.wf [(4, 1#8), (3, 1#8)] = false := by decide
theorem test_wf_memory_unwritten : Memory.wf [(4, 0#8)] = false := by decide

/-! ### Vectors -/

/-- NC1. -/
theorem test_nop : (after .nop { State.reset with ie := true }).statusWord = 0x00000082#32 := by
  decide +kernel

/-- NC3. -/
theorem test_clear :
    (after .clear (coded abc)).statusWord = 0x002#32
      ∧ (after .clear (coded abc)).idleRead .root = 0#32 := by decide +kernel

/-- FC1. -/
theorem test_freqCount :
    [0x41#8, 0x42#8, 0x43#8, 0x44#8].map (after .freqCount (input abc State.reset)).freqOf
      = [3#32, 2#32, 1#32, 0#32] := by decide +kernel

/-- H16. -/
theorem test_freqCount_range :
    (after .freqCount (inLen 0xFFFFFFFF State.reset)).idleRead .errInfo = 0x1FFFFFFF#32 := by
  decide +kernel

/-- TB2: the tie goes to the lower index. -/
theorem test_treeBuild :
    [2, 3, 4].map (fun i => (after .treeBuild (counts [(0x41#8, 2#32), (0x42#8, 1#32), (0x43#8, 1#32)])).idleRead
      (.node i 1#1)) = [0x80000043#32, 0xC0080200#32, 0xC00C0000#32] := by decide +kernel

/-- TB7. -/
theorem test_treeBuild_capacity :
    (after .treeBuild (counts [(0#8, 0xFFFFFFFF#32), (1#8, 1#32)])).idleRead .errInfo
      = 0x20000000#32 := by decide +kernel

/-- CG1. -/
theorem test_codeGen :
    [0x41#8, 0x42#8, 0x43#8].map
      (after .codeGen (State.reset.loadFreq (freqTable abc)).treeStep).codeOf
      = [[false], [true, true], [true, false]] := by decide +kernel

/-- CG8. -/
theorem test_codeGen_sequence : (after .codeGen State.reset).statusWord = 0x706#32 := by
  decide +kernel

/-- PK1. -/
theorem test_pack :
    Memory.readBytes (after .pack (input abc (coded abc))).obuf 0 3 = [0x07#8, 0x1F#8, 0x00#8] := by
  decide +kernel

/-- PK9. -/
theorem test_pack_integrity :
    (after .pack (input [0x44#8, 0x45#8, 0x41#8] (coded abc))).idleRead .errInfo
      = 0x10000000#32 := by decide +kernel

/-- UP1. -/
theorem test_unpack :
    Memory.readBytes (after .unpack (input [0x07#8, 0x1F#8, 0x00#8] (coded abc))).obuf 0 6 = abc := by
  decide +kernel

/-- UP10. -/
theorem test_unpack_dead_end :
    (after .unpack (input [0x00#8, 0x20#8] (coded [7#8, 7#8, 7#8]))).idleRead .errInfo
      = 0x40000002#32 := by decide +kernel

/-- EN1. -/
theorem test_encode :
    [260, 264, 268, 1024, 1025, 1026].map (Memory.read (after .encode (input abc State.reset)).obuf)
      = [3#8, 2#8, 1#8, 0x07#8, 0x1F#8, 0x00#8] := by decide +kernel

/-- EN7. -/
theorem test_encode_range :
    (after .encode (inLen 65537 State.reset)).idleRead .errInfo = 0x10010001#32 := by decide +kernel

/-- The Container of S1. -/
def container : State :=
  { State.reset with
    ibuf := [(260, 3#8), (264, 2#8), (268, 1#8), (1024, 7#8), (1025, 0x1F#8)], inLen := 1027#32 }

/-- DC1. -/
theorem test_decode : Memory.readBytes (after .decode container).obuf 0 6 = abc := by decide +kernel

/-- DC2. -/
theorem test_decode_short :
    (after .decode (inLen 1026 container)).idleRead .errInfo = 0x50000001#32
      ∧ (after .decode (inLen 1026 container)).statusWord = 0x21E#32 := by decide +kernel

/-- H3, H4, H5, H7, H8. -/
theorem test_bus_errors :
    [(⟨.bits32, 0x002, .read⟩ : Access), ⟨.bits32, 0x03C, .read⟩, ⟨.bits32, 0x000, .write 0#32⟩,
      ⟨.bits32, 0x01010000, .read⟩, ⟨.bits16, 0x000, .read⟩].map
      (fun a => (State.reset.hostAccess a).2) = List.replicate 5 .busError := by decide +kernel

/-- H11. -/
theorem test_status_write :
    ({ State.reset with
        errCode := .corrupt, done := true, treeValid := true, codeValid := true, cmdOvr := true
        accErr := true }.writeStatus 0xFFFFFFFF#32).statusWord = 0x21C#32 := by decide

/-- H13: both end states, by the schedule. -/
theorem test_overrun :
    (Host.Core.run core 2 { State.reset with
        program := [issue .encode, issue .nop], schedule := [.host, .host] } = .next { State.reset with
        cmd := 7#32, phase := .busy 7#32, cmdOvr := true, replies := [.written, .written] })
      ∧ ∃ t, Host.Core.run core 3 { State.reset with program := [issue .encode, issue .nop] } = .next t
        ∧ t.cmd = 0#32 ∧ t.cmdOvr = false := by
  exact ⟨rfl, _, rfl, rfl, rfl⟩

/-- The encoding of `wr FREQ+0x41, 3` in R97's notation (H12). -/
theorem test_text :
    Access.text ⟨.bits32, Loc.offset (.freq 0x41#8), .write 3#32⟩
      = ['W', ' ', '0', '0', '0', '0', '1', '1', '0', '4', ' ', '0', '0', '0', '0', '0', '0', '0', '3'] := by
  decide

/-! ### Witnesses: the hypotheses of each statement are met -/

theorem witness_IllegalWordCompletesWithBadCmd :
    ∀ v ∈ [0x00000100#32, 0xFFFFFF00#32, 0x00000009#32, 0x000000FF#32, 0x00000008#32],
      ∃ (s : State) (prog : List Stmt) (rest : List Turn), s.phase = .idle
        ∧ s.program = wr .cmd v :: prog ∧ s.schedule = .host :: .core :: rest :=
  fun v _ => ⟨{ State.reset with program := [wr .cmd v], schedule := [.host, .core] }, [], [], rfl,
    rfl, rfl⟩

/-- Each clause's condition on the word, at the ends of its range. -/
theorem witness_IllegalWord_clauses :
    (0x00000100#32).extractLsb' 8 24 ≠ 0#24 ∧ (0xFFFFFF00#32).extractLsb' 8 24 ≠ 0#24
      ∧ ((0x00000009#32).extractLsb' 8 24 = 0#24 ∧ 8 < ((0x00000009#32).extractLsb' 0 8).toNat)
      ∧ ((0x000000FF#32).extractLsb' 8 24 = 0#24 ∧ 8 < ((0x000000FF#32).extractLsb' 0 8).toNat)
      ∧ ((0x00000008#32).extractLsb' 8 24 = 0#24 ∧ ((0x00000008#32).extractLsb' 0 8).toNat ≤ 8) := by
  decide

theorem witness_StepRunsDecodedCommand :
    ∃ (s s' : State), s.phase = .busy 7#32 ∧ decode 7#32 = .ok .encode ∧ s.schedule = [.core]
      ∧ s'.phase = .busy 7#32 ∧ s'.schedule = [] :=
  ⟨{ pending 7#32 State.reset with schedule := [.core] }, pending 7#32 State.reset, rfl, by decide,
    rfl, rfl, rfl⟩

theorem witness_CmdWriteAcceptsCommand :
    ∃ (s s' : State), s.phase = .idle ∧ s.program = [wr .cmd 7#32] ∧ s.schedule = [.host]
      ∧ s'.phase = .idle ∧ s'.schedule = [.core] :=
  ⟨{ State.reset with program := [wr .cmd 7#32], schedule := [.host] },
    { State.reset with schedule := [.core] }, rfl, rfl, rfl, rfl, rfl⟩

theorem witness_WaitEndsOnceTheCoreMoves :
    ∃ s : State, s.phase = .busy 7#32 ∧ s.program = [.waitIdle]
      ∧ s.schedule = List.replicate 2 .host ++ [.core, .host] :=
  ⟨{ pending 7#32 State.reset with
      program := [.waitIdle], schedule := [.host, .host, .core, .host] }, rfl, rfl, rfl⟩

theorem witness_HostCannotDisturbARunningCommand : ∃ s : State, s.phase = .busy 7#32 :=
  ⟨pending 7#32 State.reset, rfl⟩

theorem witness_ErrorReasonsPerCommand :
    ∃ s t : State, exec .pack s = .next t ∧ t.errCode ≠ .noError :=
  ⟨State.reset, _, exec_eq_next _ _, by decide +kernel⟩

/-- One state per error of the hypothesis. -/
theorem witness_CheckPhaseErrorsChangeNothing :
    (after .pack (input [0x44#8] (coded abc))).errCode = .integrity
      ∧ (after .decode State.reset).errCode = .schema
      ∧ (after .encode (inLen 65537 State.reset)).errCode = .range
      ∧ (after .codeGen State.reset).errCode = .sequence
      ∧ ((after .treeBuild (counts [(0#8, 0xFFFFFFFF#32), (1#8, 1#32)])).errCode = .capacity
        ∧ (after .treeBuild (counts [(0#8, 0xFFFFFFFF#32), (1#8, 1#32)])).errInfo.reason ≠ 1#4)
      ∧ (after .unpack (input [9#8, 0#8] (coded abc))).errInfo.reason = 1#4
      ∧ (after .unpack (input [3#8] (coded abc))).errInfo.reason = 2#4 := by decide +kernel

theorem witness_NopCompletesWithNoEffect :
    ((0x00000100#32).extractLsb' 0 8 = 0x00#8 ∧ (0x00000100#32).extractLsb' 8 24 ≠ 0#24)
      ∧ (∃ s : State, s.phase = .busy 0#32)
      ∧ ∃ s : State, s.ie = true ∧ s.treeValid = false ∧ s.codeValid = false ∧ s.cmdOvr = false
        ∧ s.accErr = false :=
  ⟨by decide, ⟨pending 0#32 State.reset, rfl⟩, { State.reset with ie := true }, rfl, rfl, rfl, rfl, rfl⟩

theorem witness_FreqCountCountsEverySymbol :
    (inLen 65536 State.reset).inputLen ≤ (inLen 65536 State.reset).params.bufBytes
      ∧ (inLen 65537 State.reset).params.bufBytes < (inLen 65537 State.reset).inputLen := by decide

theorem witness_TreeBuildChecksThenWritesTheTree :
    0xFFFFFFFF < sumSymbols (fun c => ((counts [(0#8, 0xFFFFFFFF#32), (1#8, 1#32)]).freqOf c).toNat)
      ∧ sumSymbols (fun c => ((counts [(0#8, 0xFFFFFFFE#32), (1#8, 1#32)]).freqOf c).toNat)
        ≤ 0xFFFFFFFF := by decide +kernel

theorem witness_ArenaIsATree :
    ∃ (s t : State) (L : Nat), exec .treeBuild s = .next t ∧ t.errCode = .noError
      ∧ L = (alphabet s.freq).length ∧ L = 2 :=
  ⟨counts [(0#8, 5#32), (255#8, 1#32)], _, 2, exec_eq_next _ _, by decide +kernel, by decide +kernel,
    rfl⟩

theorem witness_EachMergeTakesTheTwoLowest :
    (buildTree (freqTable abc))[3]? = some (.internal 3 2 1) := by decide +kernel

theorem witness_EmptyAlphabetIsValid : ∃ s : State, ∀ c, s.freqOf c = 0#32 :=
  ⟨State.reset, fun c => Table.bySymbol_fill _ c⟩

theorem witness_SingleSymbolGetsOneBit :
    ∃ (s : State) (c : Byte), s.freqOf c ≠ 0#32 ∧ ∀ d, d ≠ c → s.freqOf d = 0#32 := by
  refine ⟨counts [(255#8, 0xFFFFFFFF#32)], 255#8, by decide +kernel, fun d h => ?_⟩
  have := Table.bySymbol_set_other (Table.fill 256 0#32) 0xFFFFFFFF#32 (Ne.symm h)
  exact this.trans (Table.bySymbol_fill _ d)

theorem witness_CodeGenNeedsAValidTree :
    State.reset.treeValid = false ∧ (coded abc).treeValid = true := ⟨rfl, rfl⟩

theorem witness_CodesAreTreePaths :
    ∃ (s t : State) (i : BitVec 9), TablesOk s ∧ s.treeValid = true ∧ 2 ≤ s.symCount.toNat
      ∧ exec .codeGen s = .next t ∧ (s.nodeAt i).valid = true ∧ (s.nodeAt i).internal = false :=
  ⟨coded abc, _, 1#9, coded_tablesOk _ (by decide +kernel), rfl, by decide +kernel, exec_eq_next _ _,
    by decide +kernel, by decide +kernel⟩

/-- Alphabets of three, one and no symbols, for the statements about valid code tables
(CodeTableIsPrefixFree, CodeIsComplete, WeightedPathLengthIsInternalWeight). -/
theorem witness_valid_code_tables :
    (TablesOk (coded abc) ∧ (coded abc).codeValid = true ∧ 2 ≤ (alphabet (coded abc).freq).length
        ∧ (coded abc).freqOf 0x41#8 ≠ 0#32)
      ∧ (TablesOk (coded [7#8]) ∧ (coded [7#8]).codeValid = true
        ∧ alphabet (coded [7#8]).freq = [7#8])
      ∧ (TablesOk (coded []) ∧ (coded []).codeValid = true ∧ alphabet (coded []).freq = []) :=
  ⟨⟨coded_tablesOk _ (by decide +kernel), rfl, by decide +kernel, by decide +kernel⟩,
    ⟨coded_tablesOk _ (by decide +kernel), rfl, by decide +kernel⟩,
    coded_tablesOk _ (by decide +kernel), rfl, by decide +kernel⟩

/-- A table giving every symbol eight bits. -/
def eightBits : State := { State.reset with codeValid := true, codeLen := Table.fill 256 8#8 }

theorem witness_PackChecksInOrder :
    State.reset.codeValid = false
      ∧ (eightBits.codeValid = true ∧ eightBits.params.bufBytes < (inLen 65537 eightBits).inputLen)
      ∧ ((coded abc).codeValid = true ∧ (input [0x41#8, 0x44#8] (coded abc)).inputLen ≤ 65536
        ∧ (input [0x41#8, 0x44#8] (coded abc)).codeLenOf 0x44#8 = 0
        ∧ (input [0x41#8, 0x44#8] (coded abc)).codeLenOf 0x41#8 ≠ 0)
      ∧ ∃ (s : State) (m : Nat), m = ((List.range s.inputLen).map fun k => s.codeLenOf (s.inByte k)).sum
        ∧ s.codeValid = true ∧ s.inputLen ≤ s.params.bufBytes
        ∧ (∀ k < s.inputLen, s.codeLenOf (s.inByte k) ≠ 0) ∧ s.params.bufBytes < 1 + (m + 7) / 8 := by
  refine ⟨rfl, by decide +kernel, by decide +kernel, small (inLen 1028 eightBits), _, rfl, rfl, by decide,
    fun k _ => ?_, ?_⟩
  · have : (small (inLen 1028 eightBits)).codeLenOf ((small (inLen 1028 eightBits)).inByte k) = 8 :=
      congrArg BitVec.toNat (Table.bySymbol_fill 8#8 _)
    omega
  · decide +kernel

theorem witness_PackWritesThePaddedStream :
    ∃ (s : State) (t' : Bits) (nbytes : Nat), MemoryOk s ∧ s.codeValid = true
      ∧ s.inputLen ≤ s.params.bufBytes ∧ (∀ k < s.inputLen, s.codeLenOf (s.inByte k) ≠ 0)
      ∧ t' = (List.range s.inputLen).flatMap (fun k => s.codeOf (s.inByte k))
      ∧ nbytes = (t'.length + 7) / 8 ∧ 1 + nbytes ≤ s.params.bufBytes :=
  ⟨input abc (coded abc), _, _, ⟨by decide, by decide, by decide, by decide⟩, rfl, by decide +kernel,
    by decide +kernel, rfl, rfl, by decide +kernel⟩

theorem witness_UnpackChecksInOrder :
    State.reset.codeValid = false ∧ eightBits.codeValid = true
      ∧ eightBits.params.bufBytes < (inLen 65537 eightBits).inputLen ∧ eightBits.inputLen = 0
      ∧ (0 < (input [8#8] eightBits).inputLen ∧ 7 < ((input [8#8] eightBits).inByte 0).toNat)
      ∧ (0 < (input [1#8] eightBits).inputLen ∧ ((input [1#8] eightBits).inByte 0).toNat ≤ 7
        ∧ 8 * ((input [1#8] eightBits).inputLen - 1) < ((input [1#8] eightBits).inByte 0).toNat) := by
  decide +kernel

/-- The hypotheses of UnpackFrame and UnpackDecodesTheStream, with a stream that is codes of present
symbols, and with streams that end in LEFTOVER (DC10's stream), DEAD_END (UP10) and CAPACITY (UP11). -/
theorem witness_UnpackDecodesTheStream :
    (∃ (s : State) (nbits : Nat) (b : List Byte), MemoryOk s ∧ TablesOk s ∧ s.codeValid = true
      ∧ 0 < s.inputLen ∧ s.inputLen ≤ s.params.bufBytes ∧ (s.inByte 0).toNat ≤ 7
      ∧ nbits + (s.inByte 0).toNat = 8 * (s.inputLen - 1) ∧ (∀ c ∈ b, s.freqOf c ≠ 0#32)
      ∧ b.length ≤ s.params.bufBytes ∧ s.codesOf b = s.inBits 1 nbits)
      ∧ (after .unpack (input [0#8, 0x1F#8] (coded abc))).errInfo.reason = 3#4
      ∧ (after .unpack (input [0#8, 0x20#8] (coded [7#8]))).errInfo.reason = 4#4
      ∧ (after .unpack (inLen 1028 (small (coded [0#8])))).errCode = .capacity :=
  ⟨⟨input [0x07#8, 0x1F#8, 0x00#8] (coded abc), 9, abc, ⟨by decide, by decide, by decide, by decide⟩,
    { tree := (coded_tablesOk abc (by decide +kernel)).tree
      codes := (coded_tablesOk abc (by decide +kernel)).codes },
    rfl, by decide, by decide, by decide, by decide, by decide +kernel, by decide, by decide +kernel⟩,
    by decide +kernel, by decide +kernel, by decide +kernel⟩

/-- PACK's example state, and UNPACK's with its output. -/
def packed : State := input abc (coded abc)

theorem packed_tablesOk : TablesOk packed :=
  { tree := (coded_tablesOk abc (by decide +kernel)).tree
    codes := (coded_tablesOk abc (by decide +kernel)).codes }

theorem packed_memoryOk : MemoryOk packed := ⟨by decide, by decide, by decide, by decide⟩

theorem witness_UnpackInvertsPack :
    ∃ s t u : State, MemoryOk s ∧ MemoryOk u ∧ TablesOk s ∧ s.codeValid = true
      ∧ exec .pack s = .next t ∧ t.errCode = .noError ∧ SameTables s u
      ∧ CopiedInput t u t.outLen.toNat :=
  ⟨packed, after .pack packed, { packed with ibuf := (after .pack packed).obuf, inLen := 3#32 },
    packed_memoryOk, ⟨by decide +kernel, by decide, by decide +kernel, by decide⟩, packed_tablesOk,
    rfl, exec_eq_next _ _, by decide +kernel, ⟨rfl, rfl, rfl, rfl, rfl⟩, rfl, by decide +kernel,
    fun _ _ => rfl⟩

/-- One state per clause: RANGE, CAPACITY (25 bytes of one symbol pack into 4 bytes, 1 too many) and
success, by the length R221 gives. -/
theorem witness_EncodeErrors :
    (inLen 65537 State.reset).params.bufBytes < (inLen 65537 State.reset).inputLen
      ∧ ((small (inLen 25 State.reset)).inputLen ≤ (small (inLen 25 State.reset)).params.bufBytes
        ∧ 1025 + (sumSymbols (fun c => ((after .encode (small (inLen 25 State.reset))).freqOf c).toNat
            * (after .encode (small (inLen 25 State.reset))).codeLenOf c) + 7) / 8 = 1029)
      ∧ 1025 + (sumSymbols (fun c => ((after .encode (small (inLen 24 State.reset))).freqOf c).toNat
          * (after .encode (small (inLen 24 State.reset))).codeLenOf c) + 7) / 8 = 1028 := by
  decide +kernel

theorem witness_EncodeIsThePipeline :
    ∃ s : State, MemoryOk s ∧ s.inputLen ≤ s.params.bufBytes ∧ s.containerLen ≤ s.params.bufBytes
      ∧ s.inputLen = 6 :=
  ⟨input abc State.reset, memoryOk_input, by decide, by decide +kernel, by decide⟩

/-- For PACK and for ENCODE. -/
theorem witness_EncodedBitLengthLaw :
    (∃ s t : State, TablesOk s ∧ exec .pack s = .next t ∧ t.errCode = .noError
      ∧ ∀ c ∈ symbols, (s.freqOf c).toNat
        = ((List.range s.inputLen).filter fun k => s.inByte k = c).length)
      ∧ ∃ s t : State, TablesOk s ∧ exec .encode s = .next t ∧ t.errCode = .noError :=
  ⟨⟨packed, _, packed_tablesOk, exec_eq_next _ _, by decide +kernel, by decide +kernel⟩,
    input abc State.reset, _, ⟨fun h => absurd h (by decide), fun h => absurd h (by decide)⟩,
    exec_eq_next _ _, by decide +kernel⟩

/-- IN_LEN at the ends of the three ranges. -/
theorem witness_EncodeGuaranteedDomain :
    (inLen 64511 State.reset).inputLen + 1025 ≤ (inLen 64511 State.reset).params.bufBytes
      ∧ (inLen 65536 State.reset).inputLen ≤ (inLen 65536 State.reset).params.bufBytes
      ∧ (inLen 65537 State.reset).params.bufBytes < (inLen 65537 State.reset).inputLen := by decide

/-- One state per check. -/
theorem witness_DecodeChecksInOrder :
    (inLen 65537 State.reset).params.bufBytes < (inLen 65537 State.reset).inputLen
      ∧ (inLen 1024 State.reset).inputLen < 1025
      ∧ (∃ s : State, 1025 ≤ s.inputLen ∧ s.inputLen ≤ s.params.bufBytes ∧ 7 < (s.inByte 1024).toNat)
      ∧ (∃ s : State, 1025 ≤ s.inputLen ∧ s.inputLen ≤ s.params.bufBytes
        ∧ (s.inByte 1024).toNat ≤ 7 ∧ 8 * (s.inputLen - 1025) < (s.inByte 1024).toNat)
      ∧ ∃ (s : State) (n : Nat),
        n = ((List.range 256).map fun c => (Memory.readWord s.ibuf (4 * c)).toNat).sum
        ∧ 1025 ≤ s.inputLen ∧ s.inputLen ≤ s.params.bufBytes ∧ (s.inByte 1024).toNat ≤ 7
        ∧ (s.inByte 1024).toNat ≤ 8 * (s.inputLen - 1025) ∧ s.params.bufBytes < n :=
  ⟨by decide, by decide, ⟨{ inLen 1025 State.reset with ibuf := [(1024, 8#8)] }, by decide⟩,
    ⟨{ inLen 1025 State.reset with ibuf := [(1024, 1#8)] }, by decide⟩,
    { inLen 1025 State.reset with ibuf := [(0, 0x70#8), (1, 0x11#8), (2, 0x01#8)] }, _, rfl,
    by decide +kernel⟩

theorem witness_DecodeRebuildsAndDecodes :
    ∃ (s : State) (n nbits : Nat), MemoryOk s
      ∧ n = ((List.range 256).map fun c => (Memory.readWord s.ibuf (4 * c)).toNat).sum
      ∧ 1025 ≤ s.inputLen ∧ s.inputLen ≤ s.params.bufBytes ∧ (s.inByte 1024).toNat ≤ 7
      ∧ nbits + (s.inByte 1024).toNat = 8 * (s.inputLen - 1025) ∧ n ≤ s.params.bufBytes
      ∧ (after .decode s).errCode = .noError
      ∧ ∃ b : List Byte, b.length = n ∧ (∀ c ∈ b, (after .decode s).freqOf c ≠ 0#32)
        ∧ (after .decode s).codesOf b = s.inBits 1025 nbits :=
  ⟨container, _, 9, ⟨by decide, by decide, by decide, by decide⟩, rfl, by decide, by decide, by decide,
    by decide, by decide +kernel, by decide +kernel, abc, by decide +kernel, by decide +kernel,
    by decide +kernel⟩

/-- DECODE's four ends in error: TRAILING at bit 9 (the container's pad made 6), LEFTOVER of length 1
and DEAD_END at bit 0 (the payload one 1 bit, with three symbols and with one) and SHORT after 1 symbol. -/
theorem witness_DecodeRebuildsAndDecodes_errors :
    (after .decode { container with ibuf := Memory.write container.ibuf 1024 6#8 }).errInfo
        = infoOf 6#4 9
      ∧ (after .decode { inLen 1026 container with
          ibuf := Memory.write container.ibuf 1025 0x80#8 }).errInfo = infoOf 3#4 1
      ∧ (after .decode { inLen 1026 State.reset with
          ibuf := [(28, 1#8), (1024, 7#8), (1025, 0x80#8)] }).errInfo = infoOf 4#4 0
      ∧ (after .decode (inLen 1026 container)).errInfo = infoOf 5#4 1 := by decide +kernel

/-- ENCODE of one byte, and of nothing. -/
def encoded (bs : List Byte) : State := after .encode (input bs State.reset)

theorem encoded_memoryOk (bs : List Byte) (n : Nat) (h : Memory.wf (encoded bs).obuf = true)
    (h' : Memory.below 65536 (encoded bs).obuf = true) : MemoryOk (copied (encoded bs) n) :=
  ⟨h, rfl, h', rfl⟩

theorem copiedInput {t : State} {n m : Nat} (h : State.reset.params = t.params)
    (h' : (copied t n).inputLen = m) : CopiedInput t (copied t n) m := ⟨h, h', fun _ _ => rfl⟩

theorem encoded_params (bs : List Byte) : State.reset.params = (encoded bs).params := by
  simp only [encoded, after, exec, execEncode]
  cases (input bs State.reset).rangeCheck with
  | some e => rfl
  | none =>
    by_cases h : (input bs State.reset).containerLen > (input bs State.reset).params.bufBytes
    · simp only [h, if_true]; rfl
    · simp only [h, if_false]; rfl

theorem witness_DecodeInvertsEncode :
    ∃ s t u : State, MemoryOk s ∧ MemoryOk u ∧ exec .encode s = .next t ∧ t.errCode = .noError
      ∧ CopiedInput t u t.outLen.toNat ∧ s.inputLen = 1 :=
  ⟨input [7#8] State.reset, encoded [7#8], copied (encoded [7#8]) 1026,
    ⟨by decide, by decide, by decide, by decide⟩,
    encoded_memoryOk _ _ (by decide +kernel) (by decide +kernel), exec_eq_next _ _, by decide +kernel,
    copiedInput (encoded_params _) (by decide +kernel), by decide⟩

/-- A non-empty input and the empty one. -/
theorem witness_TruncatedContainerIsRefused :
    (∃ s t u : State, MemoryOk s ∧ MemoryOk u ∧ exec .encode s = .next t ∧ t.errCode = .noError
      ∧ CopiedInput t u (t.outLen.toNat - 1) ∧ 0 < s.inputLen)
      ∧ ∃ s t u : State, MemoryOk s ∧ MemoryOk u ∧ exec .encode s = .next t ∧ t.errCode = .noError
        ∧ CopiedInput t u (t.outLen.toNat - 1) ∧ s.inputLen = 0 :=
  ⟨⟨input [7#8] State.reset, encoded [7#8], copied (encoded [7#8]) 1025,
      ⟨by decide, by decide, by decide, by decide⟩,
      encoded_memoryOk _ _ (by decide +kernel) (by decide +kernel), exec_eq_next _ _,
      by decide +kernel, copiedInput (encoded_params _) (by decide +kernel), by decide⟩,
    input [] State.reset, encoded [], copied (encoded []) 1024,
    ⟨by decide, by decide, by decide, by decide⟩,
    encoded_memoryOk _ _ (by decide +kernel) (by decide +kernel), exec_eq_next _ _, by decide +kernel,
    copiedInput (encoded_params _) (by decide +kernel), by decide⟩

theorem witness_EncodeAndDecodeDependOnTheInputOnly :
    ∃ s t s' t' : State, MemoryOk s ∧ MemoryOk s' ∧ SameInput s s' ∧ s'.freq ≠ s.freq
      ∧ exec .encode s = .next t ∧ exec .encode s' = .next t' :=
  ⟨input abc State.reset, _, packed, _, memoryOk_input, packed_memoryOk, ⟨rfl, rfl, fun _ _ => rfl⟩,
    by decide +kernel, exec_eq_next _ _, exec_eq_next _ _⟩

/-- Invariants with a step each (EveryStepKeepsMemoryOk, EveryStepKeepsTablesOk,
EveryStepKeepsControlOk, ParametersNeverChange): a completion of PACK under valid tables. -/
theorem witness_invariant_steps :
    ∃ s t : State, MemoryOk s ∧ TablesOk s ∧ ControlOk s ∧ step s = .next t ∧ t.outLen = 3#32 := by
  refine ⟨pending 5#32 packed, after .pack (pending 5#32 packed),
    ⟨packed_memoryOk.1, packed_memoryOk.2, packed_memoryOk.3, packed_memoryOk.4⟩,
    ⟨packed_tablesOk.tree, packed_tablesOk.codes⟩, ⟨?_, ?_, ?_⟩,
    (step_pending rfl rfl).trans (exec_eq_next _ _),
    by decide +kernel⟩
  · intro v h
    exact ⟨by simpa [pending] using h, rfl, rfl⟩
  · intro h
    simp [pending] at h
  · decide

theorem witness_ReachableStatesAreOk (p : Config.Params) (d : Draws) :
    Reachable (State.start p d [] []) := .start p d [] []

/-- By a clearing command, and by a pipeline. -/
theorem witness_WhatChangesFreq :
    (∃ s t : State, step s = .next t ∧ t.freq ≠ s.freq ∧ t.treeValid = false)
      ∧ ∃ s t : State, step s = .next t ∧ t.freq ≠ s.freq ∧ t.treeValid = true :=
  ⟨⟨pending 1#32 packed, after .clear (pending 1#32 packed),
      (step_pending rfl rfl).trans (exec_eq_next _ _), by decide +kernel,
      by decide +kernel⟩,
    pending 7#32 (input abc State.reset), after .encode (pending 7#32 (input abc State.reset)),
    (step_pending rfl rfl).trans (exec_eq_next _ _), by decide +kernel, by decide +kernel⟩

theorem witness_WhatChangesTheInput :
    ∃ s t : State, step s = .next t ∧ (t.ibuf ≠ s.ibuf ∨ t.inLen ≠ s.inLen) :=
  ⟨{ State.reset with program := [wr .inLen 6#32] }, _, rfl, .inr (by decide)⟩

/-- The last word of each table and buffer, and the first offset past each. -/
theorem witness_AddressMapRoundTrip :
    (∀ l ∈ [Loc.totalWeight, .freq 255#8, .codeLen 255#8, .codeBits 255#8 7#3, .node 510 1#1,
        .ibuf 16383, .obuf 16383], l.mapped 65536 = true ∧ Loc.ofOffset 65536 l.offset = some l)
      ∧ ∀ a ∈ [0x00C, 0x03C, 0x1800, 0x4FF8, 0x01010000, 0x02010000],
        Loc.ofOffset 65536 a = none := by decide

theorem witness_BusErrorsExactlyWhenIllegal :
    ∃ (s : State) (a : Access), (s.hostAccess a).2 = .busError ∧ s.program = [.access a] :=
  ⟨{ State.reset with program := [.access ⟨.bits32, 0x03C, .read⟩] }, ⟨.bits32, 0x03C, .read⟩,
    by decide, rfl⟩

theorem witness_IdleReadsReturnTheRegisters :
    ∃ (s : State) (l : Loc), s.phase = .idle ∧ l.mapped s.params.bufBytes = true ∧ l = .obuf 16383 :=
  ⟨State.reset, .obuf 16383, rfl, by decide, rfl⟩

/-- The last word of a buffer. -/
theorem witness_BufferWordsAreLittleEndian :
    ∃ (s : State) (j : Nat), MemoryOk s ∧ s.phase = .idle ∧ 4 * j < s.params.bufBytes ∧ j = 16383 :=
  ⟨State.reset, 16383, memoryOk_reset, rfl, by decide, rfl⟩

theorem witness_HostWritesCtrlInLenAndFreq : ∃ s : State, s.phase = .idle := ⟨State.reset, rfl⟩

/-- For BusyWritesAreDropped and BusyReadsAreExactOrDraws: a location of each kind. -/
theorem witness_busy_accesses :
    ∃ s : State, s.phase = .busy 7#32
      ∧ ∀ l ∈ [Loc.ctrl, .status, .cmd, .inLen, .freq 255#8, .ibuf 16383, .obuf 16383, .id, .outLen,
          .codeLen 0#8, .codeBits 255#8 7#3, .node 510 1#1],
        l.mapped s.params.bufBytes = true :=
  ⟨pending 7#32 State.reset, rfl, by decide⟩

theorem witness_InterruptLine :
    (∃ s t : State, s.phase = .busy 0#32 ∧ s.ie = true ∧ s.coreTurn = .next t)
      ∧ (0x00000002#32).getLsbD 1 = true ∧ (0#32).getLsbD 0 = false
      ∧ ∃ s : State, s.phase = .idle ∧ s.irq = true :=
  ⟨⟨pending 0#32 { State.reset with ie := true }, _, rfl, rfl, exec_eq_next .nop _⟩, by decide,
    by decide, { State.reset with ie := true, done := true }, rfl, rfl⟩

theorem witness_ErrorStateOutlivesTheAcknowledgement :
    (∃ s : State, s.program = [ackDone] ∧ s.done = true)
      ∧ (∃ s : State, s.phase = .idle ∧ s.program = [wr .cmd 0#32] ∧ s.errCode = .range
        ∧ s.hostTurn.errCode ≠ s.errCode)
      ∧ ∃ s t : State, s.phase = .busy 0#32 ∧ s.coreTurn = .next t :=
  ⟨⟨{ State.reset with program := [ackDone], done := true }, rfl, rfl⟩,
    ⟨{ State.reset with program := [wr .cmd 0#32], errCode := .range }, rfl, rfl, rfl, by decide⟩,
    pending 0#32 State.reset, _, rfl, exec_eq_next .nop _⟩

theorem witness_HardwareResetState :
    ∃ (s : State) (d : Draws), s.schedule = [.reset d] ∧ d.ibuf.length = s.params.bufBytes
      ∧ d.obuf.length = s.params.bufBytes :=
  ⟨{ small (pending 7#32 State.reset) with
      schedule := [.reset
        { freq := Table.fill 256 9#32, codeLen := Table.fill 256 9#8
          codeBits := Table.fill 256 9#256, node := Table.fill 511 Node.absent
          ibuf := List.replicate 1028 5#8, obuf := List.replicate 1028 6#8 }] }, _, rfl,
    List.length_replicate, List.length_replicate⟩

end Sys2Proof.Tests
end

section
/-! SUPPORT. The parameters are constants (spec/00_scope.md R7, spec/10_state.md R23)

The named updates keep the parameters by their laws. The lemmas below carry that up through the
operations made of those updates: the runs of the commands, the Host's access, and the turns. -/

namespace Sys2Proof.Machine

/-! ### The composite updates of the commands -/

@[simp] theorem State.encodeTables_params (s : State) : s.encodeTables.params = s.params := by
  simp [State.encodeTables]

@[simp] theorem State.writeContainer_params (s : State) (b : List Byte) :
    (s.writeContainer b).params = s.params := by
  simp [State.writeContainer]

@[simp] theorem State.unpackReady_params (s : State) : s.unpackReady.params = s.params := by
  simp [State.unpackReady]

@[simp] theorem State.decodeReady_params (s : State) : s.decodeReady.params = s.params := by
  simp [State.decodeReady]

@[simp] theorem State.finishWalk_params (s : State) (r : WalkResult) :
    (s.finishWalk r).params = s.params := by
  rw [finishWalk_eq]
  cases r.error <;> simp

/-! ### Commands -/

/-- No command changes the parameters, whether its checks fail or it runs. -/
@[simp] theorem after_params (i : Instr) (s : State) : (after i s).params = s.params := by
  cases i <;> simp only [after, exec]
  case nop => simp [execNop]
  case clear => simp [execClear]
  case freqCount => cases h : s.rangeCheck <;> simp [execFreqCount, h]
  case treeBuild => cases h : s.weightCheck <;> simp [execTreeBuild, h]
  case codeGen => cases h : s.treeCheck <;> simp [execCodeGen, h]
  case pack => cases h : s.packCheck <;> simp [execPack, h]
  case unpack => cases h : s.unpackCheck <;> simp [execUnpack, h]
  case encode =>
    cases h : s.rangeCheck with
    | some e => simp [execEncode, h]
    | none =>
      by_cases hc : s.containerLen > s.params.bufBytes <;> simp [execEncode, h, hc]
  case decode => cases h : s.decodeCheck <;> simp [execDecode, h]

theorem exec_params {i : Instr} {s t : State} (h : exec i s = .next t) : t.params = s.params := by
  rw [exec_eq_next] at h
  cases h
  exact after_params i s

/-! ### The Host's access -/

@[simp] theorem State.idleWrite_params (s : State) (l : Loc) (v : Word) :
    (s.idleWrite l v).params = s.params := by
  cases l <;> simp [State.idleWrite]

@[simp] theorem State.busyWrite_params (s : State) (l : Loc) (v : Word) :
    (s.busyWrite l v).params = s.params := by
  cases l <;> simp [State.busyWrite]

@[simp] theorem State.hostAccess_params (s : State) (a : Access) :
    (s.hostAccess a).1.params = s.params := by
  obtain h | h | ⟨l, v, -, -, -, ⟨-, h⟩ | ⟨-, h⟩⟩ := hostAccess_cases s a <;> simp [h]

/-! ### Turns -/

@[simp] theorem State.hostTurn_params (s : State) : s.hostTurn.params = s.params := by
  cases h : s.program <;> simp [State.hostTurn, h]

theorem coreTurn_params {s t : State} (h : s.coreTurn = .next t) : t.params = s.params := by
  obtain ⟨-, rfl⟩ | ⟨v, i, -, -, hx⟩ | ⟨v, e, -, -, rfl⟩ := coreTurn_cases h
  · rfl
  · exact exec_params hx
  · exact State.raise_params s 0 (badCommand e)

/-- Settles O43: each of the turns of `step_cases` keeps the parameters. -/
theorem parametersNeverChange : Obligations.ParametersNeverChange := by
  intro s t h
  obtain ⟨rest, -, rfl⟩ | ⟨rest, -, hc⟩ | ⟨d, rest, -, rfl⟩ | ⟨-, -, hc⟩ | ⟨-, -, rfl⟩ :=
    step_cases h
  · exact State.hostTurn_params { s with schedule := rest }
  · exact coreTurn_params (s := { s with schedule := rest }) hc
  · exact State.hardReset_params { s with schedule := rest } d
  · exact coreTurn_params hc
  · exact State.hostTurn_params s

end Sys2Proof.Machine
end

section
/-! SUPPORT. The built arena is a tree (spec/10_state.md R46, spec/42_tree_builder.md R151, R156)

The merge loop keeps one permutation: the children of the internal nodes and the indices still in
the collection are, together, the indices of all nodes, each once. With one key left, every node but
that one has exactly one parent. -/

namespace Sys2Proof.Machine

/-! ### Nodes of an arena -/

/-- The arena indices of a node's children. -/
def TreeNode.children : TreeNode → List Nat
  | .leaf _ _ => []
  | .internal _ l r => [l, r]

theorem TreeNode.mem_children_iff (n : TreeNode) (j : Nat) :
    j ∈ n.children ↔ ∃ w l r, n = .internal w l r ∧ (l = j ∨ r = j) := by
  cases n <;> simp [TreeNode.children, eq_comm]

/-- Node i of an arena is a parent of j. -/
theorem parent_iff (nodes : List TreeNode) (i j : Nat) :
    (∃ w a b, nodes[i]? = some (.internal w a b) ∧ (a = j ∨ b = j))
      ↔ ∃ h : i < nodes.length, j ∈ nodes[i].children := by
  simp only [TreeNode.mem_children_iff, List.getElem?_eq_some_iff]
  constructor
  · rintro ⟨w, a, b, ⟨h, e⟩, hj⟩
    exact ⟨h, w, a, b, e, hj⟩
  · rintro ⟨h, w, a, b, e, hj⟩
    exact ⟨w, a, b, ⟨h, e⟩, hj⟩

/-- A child of some node is the child of a node at some index. -/
theorem mem_flatMap_children (nodes : List TreeNode) (j : Nat) :
    j ∈ nodes.flatMap TreeNode.children ↔ ∃ i, ∃ h : i < nodes.length, j ∈ nodes[i].children := by
  rw [List.mem_flatMap]
  constructor
  · rintro ⟨n, hn, hj⟩
    obtain ⟨i, h, rfl⟩ := List.mem_iff_getElem.mp hn
    exact ⟨i, h, hj⟩
  · rintro ⟨i, h, hj⟩
    exact ⟨_, List.getElem_mem h, hj⟩

theorem weightAt_of_some {nodes : List TreeNode} {i : Nat} {n : TreeNode} (h : nodes[i]? = some n) :
    weightAt nodes i = n.weight := by
  simp [weightAt, h]

/-- A node of an arena with one node added is an old one or the added one. -/
theorem getElem?_concat_eq_some {nodes : List TreeNode} {n m : TreeNode} {i : Nat}
    (h : (nodes ++ [n])[i]? = some m) :
    (i < nodes.length ∧ nodes[i]? = some m) ∨ (i = nodes.length ∧ m = n) := by
  rcases Nat.lt_trichotomy i nodes.length with hi | rfl | hi
  · rw [List.getElem?_append_left hi] at h
    exact .inl ⟨hi, h⟩
  · rw [List.getElem?_concat_length, Option.some.injEq] at h
    exact .inr ⟨rfl, h.symm⟩
  · rw [List.getElem?_eq_none (by simpa using hi)] at h
    cases h

theorem weightAt_append_left (nodes : List TreeNode) (n : TreeNode) {i : Nat}
    (h : i < nodes.length) : weightAt (nodes ++ [n]) i = weightAt nodes i := by
  simp [weightAt, List.getElem?_append_left h]

theorem weightAt_append_last (nodes : List TreeNode) (n : TreeNode) :
    weightAt (nodes ++ [n]) nodes.length = n.weight := by
  simp [weightAt]

/-! ### What every merge keeps -/

/-- What the merge loop keeps of its arena and its collection, W being the weight of all leaves. -/
structure MergeInv (W : Nat) (nodes : List TreeNode) (active : List Key) : Prop where
  /-- Every node is once the child of a node or once in the collection. -/
  perm : (nodes.flatMap TreeNode.children ++ active.map Prod.snd).Perm (List.range nodes.length)
  /-- A key in the collection holds its node's weight. -/
  keys : ∀ k ∈ active, weightAt nodes k.2 = k.1
  total : keySum active = W
  internal : ∀ i w a b, nodes[i]? = some (.internal w a b) →
    a < i ∧ b < i ∧ w = weightAt nodes a + weightAt nodes b ∧ w ≤ W

theorem MergeInv.active_lt {W : Nat} {nodes : List TreeNode} {active : List Key}
    (h : MergeInv W nodes active) {k : Key} (hk : k ∈ active) : k.2 < nodes.length :=
  List.mem_range.mp <| h.perm.subset <|
    List.mem_append_right _ (List.mem_map_of_mem (f := Prod.snd) hk)

theorem MergeInv.nodup_children {W : Nat} {nodes : List TreeNode} {active : List Key}
    (h : MergeInv W nodes active) : (nodes.flatMap TreeNode.children).Nodup :=
  List.Nodup.of_append_left (h.perm.nodup_iff.mpr List.nodup_range)

/-- The two lowest keys and the rest are the collection. -/
theorem takeLowest_twice_perm {active rest rest' : List Key} {a b : Key}
    (ha : takeLowest active = some (a, rest)) (hb : takeLowest rest = some (b, rest')) :
    active.Perm (a :: b :: rest') := by
  obtain ⟨ma, rfl, -⟩ := takeLowest_spec ha
  obtain ⟨mb, rfl, -⟩ := takeLowest_spec hb
  exact (List.perm_cons_erase ma).trans ((List.perm_cons_erase mb).cons a)

theorem MergeInv.merge {W : Nat} {nodes : List TreeNode} {active rest rest' : List Key} {a b : Key}
    (h : MergeInv W nodes active) (ha : takeLowest active = some (a, rest))
    (hb : takeLowest rest = some (b, rest')) :
    MergeInv W (nodes ++ [.internal (a.1 + b.1) a.2 b.2])
      (rest' ++ [(a.1 + b.1, nodes.length)]) := by
  have hp := takeLowest_twice_perm ha hb
  have ma : a ∈ active := hp.symm.subset (by simp)
  have mb : b ∈ active := hp.symm.subset (by simp)
  have total : a.1 + (b.1 + keySum rest') = W :=
    h.total ▸ (List.Perm.sum_eq (hp.map Prod.fst)).symm
  refine ⟨?_, ?_, ?_, ?_⟩
  · have := (h.perm.symm.trans ((hp.map Prod.snd).append_left _)).symm.append_right [nodes.length]
    simpa [TreeNode.children, List.range_succ] using this
  · intro k hk
    rcases List.mem_append.mp hk with hk | hk
    · have mk : k ∈ active := hp.symm.subset (by simp [hk])
      rw [weightAt_append_left _ _ (h.active_lt mk), h.keys k mk]
    · rw [List.mem_singleton.mp hk, weightAt_append_last]
      rfl
  · simp [keySum] at total ⊢
    omega
  · intro i w l r hi
    obtain ⟨hlt, hi⟩ | ⟨rfl, e⟩ := getElem?_concat_eq_some hi
    · obtain ⟨hl, hr, hw, hW⟩ := h.internal i w l r hi
      rw [weightAt_append_left _ _ (hl.trans hlt), weightAt_append_left _ _ (hr.trans hlt)]
      exact ⟨hl, hr, hw, hW⟩
    · obtain ⟨rfl, rfl, rfl⟩ : w = a.1 + b.1 ∧ l = a.2 ∧ r = b.2 := by simpa using e
      have la := h.active_lt ma
      have lb := h.active_lt mb
      rw [weightAt_append_left _ _ la, weightAt_append_left _ _ lb, h.keys a ma, h.keys b mb]
      exact ⟨la, lb, rfl, by omega⟩

theorem getElem?_leaves (f : Table Word 256) (i : Nat) :
    (leaves f)[i]? = ((alphabet f)[i]?).map fun c => .leaf c (f.bySymbol c).toNat := by
  simp [leaves_eq]

theorem mergeInv_leaves (f : Table Word 256) :
    MergeInv (weightSum f) (leaves f) (leafKeys (leaves f)) := by
  refine ⟨?_, ?_, keySum_leafKeys f, ?_⟩
  · have hc : (leaves f).flatMap TreeNode.children = [] := by
      simp [leaves_eq, TreeNode.children]
    have hk : (leafKeys (leaves f)).map Prod.snd = List.range (leaves f).length := by
      rw [leafKeys, List.map_map, List.range_eq_range']
      exact List.zipIdx_map_snd 0 _
    rw [hc, hk, List.nil_append]
  · intro k hk
    simp only [leafKeys, List.mem_map, Prod.exists] at hk
    obtain ⟨n, i, hn, rfl⟩ := hk
    exact weightAt_of_some (List.mk_mem_zipIdx_iff_getElem?.mp hn)
  · intro i w a b hi
    simp [getElem?_leaves] at hi

theorem mergeInv_buildTree (f : Table Word 256) (hL : 1 ≤ alphabetSize f) :
    ∃ k, MergeInv (weightSum f) (buildTree f) [k] :=
  buildTree_induct f (MergeInv (weightSum f)) hL (mergeInv_leaves f)
    fun _ _ _ _ _ _ h ha hb => h.merge ha hb

/-! ### The nodes of the built arena -/

theorem getElem?_buildTree_leaf (f : Table Word 256) (i : Nat) (h : i < (alphabet f).length) :
    (buildTree f)[i]? = some (.leaf (alphabet f)[i] (f.bySymbol (alphabet f)[i]).toNat) := by
  obtain ⟨new, hb, -⟩ := buildTree_eq f
  rw [hb, List.getElem?_append_left (by simpa [leaves_eq] using h), getElem?_leaves]
  simp [h]

theorem getElem?_buildTree_internal (f : Table Word 256) (i : Nat) (h : alphabetSize f ≤ i)
    (hi : i + 1 < 2 * alphabetSize f) :
    ∃ w a b, (buildTree f)[i]? = some (.internal w a b) := by
  obtain ⟨-, hP⟩ := buildTree_induct f
    (fun nodes _ => ∀ i, alphabetSize f ≤ i → i < nodes.length →
      ∃ w a b, nodes[i]? = some (.internal w a b)) (by omega)
    (fun i h h' => absurd h' (Nat.not_lt.mpr h))
    (fun nodes active a rest b rest' hP _ _ i h h' => by
      rcases Nat.lt_or_ge i nodes.length with hlt | hge
      · rw [List.getElem?_append_left hlt]
        exact hP i h hlt
      · obtain rfl : i = nodes.length := by simp at h'; omega
        exact ⟨_, _, _, List.getElem?_concat_length⟩)
  exact hP i h (by rw [length_buildTree]; omega)

theorem getElem?_buildTree_none (f : Table Word 256) (i : Nat) (h : 2 * alphabetSize f ≤ i + 1) :
    (buildTree f)[i]? = none := by
  rw [List.getElem?_eq_none_iff, length_buildTree]
  omega

theorem alphabetSize_pos_of_internal {f : Table Word 256} {i w a b : Nat}
    (h : (buildTree f)[i]? = some (.internal w a b)) : 1 ≤ alphabetSize f := by
  obtain ⟨hi, -⟩ := List.getElem?_eq_some_iff.mp h
  rw [length_buildTree] at hi
  omega

/-- The children of an internal node are different lower nodes, whose weights it adds up. -/
theorem buildTree_internal_spec {f : Table Word 256} {i w a b : Nat}
    (h : (buildTree f)[i]? = some (.internal w a b)) :
    a < i ∧ b < i ∧ a ≠ b ∧ w = weightAt (buildTree f) a + weightAt (buildTree f) b
      ∧ w ≤ weightSum f := by
  obtain ⟨k, inv⟩ := mergeInv_buildTree f (alphabetSize_pos_of_internal h)
  obtain ⟨ha, hb, hw, hW⟩ := inv.internal i w a b h
  have hab := (List.nodup_flatMap.mp inv.nodup_children).1 _ (List.mem_of_getElem? h)
  exact ⟨ha, hb, by simpa [TreeNode.children] using hab, hw, hW⟩

/-- Every node but the last one created is a child. -/
theorem mem_children_buildTree (f : Table Word 256) (j : Nat) (hj : j + 2 < 2 * alphabetSize f) :
    j ∈ (buildTree f).flatMap TreeNode.children := by
  obtain ⟨k, inv⟩ := mergeInv_buildTree f (by omega)
  have hlen := length_buildTree f
  have child_or_key : ∀ c, c < (buildTree f).length →
      c ∈ (buildTree f).flatMap TreeNode.children ∨ c = k.2 := fun c hc => by
    simpa using inv.perm.symm.subset (List.mem_range.mpr hc)
  have last : (buildTree f).length - 1 = k.2 := by
    refine (child_or_key _ (by omega)).resolve_left fun hc => ?_
    obtain ⟨i, hi⟩ := (mem_flatMap_children _ _).mp hc
    obtain ⟨w, a, b, hn, hab⟩ := (parent_iff _ _ _).mpr hi
    obtain ⟨ha, hb, -⟩ := buildTree_internal_spec hn
    obtain ⟨hi, -⟩ := hi
    omega
  exact (child_or_key j (by omega)).resolve_right (by omega)

/-- Every node but the last one created is the child of exactly one internal node. -/
theorem buildTree_existsUnique_parent (f : Table Word 256) (j : Nat)
    (hj : j + 2 < 2 * alphabetSize f) :
    ∃! i : Nat, ∃ w a b, (buildTree f)[i]? = some (.internal w a b) ∧ (a = j ∨ b = j) := by
  obtain ⟨k, inv⟩ := mergeInv_buildTree f (by omega)
  have disjoint := List.pairwise_iff_getElem.mp (List.nodup_flatMap.mp inv.nodup_children).2
  obtain ⟨i, hi, hc⟩ := (mem_flatMap_children _ _).mp (mem_children_buildTree f j hj)
  refine ⟨i, (parent_iff _ _ _).mpr ⟨hi, hc⟩, fun i' h' => ?_⟩
  obtain ⟨hi', hc'⟩ := (parent_iff _ _ _).mp h'
  rcases Nat.lt_trichotomy i' i with hlt | heq | hlt
  · exact absurd hc (disjoint _ _ hi' hi hlt hc')
  · exact heq
  · exact absurd hc' (disjoint _ _ hi hi' hlt hc)

/-! ### The stored arena (R154) -/

theorem at_arenaTable_of_some {nodes : List TreeNode} {i : Nat} {n : TreeNode} (h : i < 511)
    (hn : nodes[i]? = some n) : (arenaTable nodes).at i h = n.encode := by
  rw [at_arenaTable, hn]

theorem at_arenaTable_of_none {nodes : List TreeNode} {i : Nat} (h : i < 511)
    (hn : nodes[i]? = none) : (arenaTable nodes).at i h = Node.absent := by
  rw [at_arenaTable, hn]

theorem TreeNode.encode_weight (n : TreeNode) : n.encode.weight = BitVec.ofNat 32 n.weight := by
  cases n <;> rfl

theorem TreeNode.encode_valid (n : TreeNode) : n.encode.valid = true := by
  cases n <;> rfl

theorem at_arenaTable_weight (nodes : List TreeNode) (i : Nat) (h : i < 511) :
    ((arenaTable nodes).at i h).weight = BitVec.ofNat 32 (weightAt nodes i) := by
  cases hn : nodes[i]? with
  | none => rw [at_arenaTable_of_none h hn]; simp [weightAt, hn, Node.absent]
  | some n => rw [at_arenaTable_of_some h hn, n.encode_weight, weightAt_of_some hn]

/-- NODE[i] of the built arena is internal exactly from index L on (R46). -/
theorem arena_internal_iff (f : Table Word 256) (i : Nat) (h : i < 511) :
    ((arenaTable (buildTree f)).at i h).internal = true
      ↔ ∃ w a b, (buildTree f)[i]? = some (.internal w a b) := by
  cases hn : (buildTree f)[i]? with
  | none => simp [at_arenaTable_of_none h hn, Node.absent]
  | some n => cases n <;> simp [at_arenaTable_of_some h hn, TreeNode.encode]

theorem arena_valid (f : Table Word 256) (i : Nat) (h : i < 511) :
    ((arenaTable (buildTree f)).at i h).valid = decide (i + 1 < 2 * alphabetSize f) := by
  by_cases hi : i + 1 < 2 * alphabetSize f
  · have hlt : i < (buildTree f).length := by rw [length_buildTree]; omega
    rw [at_arenaTable_of_some h (List.getElem?_eq_getElem hlt), TreeNode.encode_valid]
    simp [hi]
  · rw [at_arenaTable_of_none h (getElem?_buildTree_none f i (by omega))]
    simp [hi, Node.absent]

theorem arena_internal (f : Table Word 256) (i : Nat) (h : i < 511)
    (hi : i + 1 < 2 * alphabetSize f) :
    ((arenaTable (buildTree f)).at i h).internal = decide (alphabetSize f ≤ i) := by
  by_cases hL : alphabetSize f ≤ i
  · rw [(arena_internal_iff f i h).mpr (getElem?_buildTree_internal f i hL hi)]
    simp [hL]
  · have hlt : i < (alphabet f).length := by rw [← alphabetSize_eq]; omega
    rw [at_arenaTable_of_some h (getElem?_buildTree_leaf f i hlt)]
    simp [hL, TreeNode.encode]

theorem arena_leaf (f : Table Word 256) (i : Nat) (h : i < 511) (hi : i < (alphabet f).length) :
    ((arenaTable (buildTree f)).at i h).symbol = (alphabet f)[i]
      ∧ ((arenaTable (buildTree f)).at i h).weight = f.bySymbol (alphabet f)[i] := by
  rw [at_arenaTable_of_some h (getElem?_buildTree_leaf f i hi)]
  simp [TreeNode.encode]

/-- The stored indices of the children are exact: an index has nine bits. -/
theorem arena_children {f : Table Word 256} {i w a b : Nat} (h : i < 511)
    (hn : (buildTree f)[i]? = some (.internal w a b)) :
    ((arenaTable (buildTree f)).at i h).left.toNat = a
      ∧ ((arenaTable (buildTree f)).at i h).right.toNat = b := by
  obtain ⟨ha, hb, -⟩ := buildTree_internal_spec hn
  rw [at_arenaTable_of_some h hn]
  simp only [TreeNode.encode, BitVec.toNat_ofNat]
  omega

/-- The stored weights are exact when the weight check has passed (R153). -/
theorem arena_weight {f : Table Word 256} {i w a b : Nat} (h : i < 511) (ha : a < 511) (hb : b < 511)
    (hW : weightSum f ≤ 0xFFFFFFFF) (hn : (buildTree f)[i]? = some (.internal w a b)) :
    ((arenaTable (buildTree f)).at i h).weight.toNat
      = ((arenaTable (buildTree f)).at a ha).weight.toNat
        + ((arenaTable (buildTree f)).at b hb).weight.toNat := by
  obtain ⟨-, -, -, hw, hle⟩ := buildTree_internal_spec hn
  simp only [at_arenaTable_weight, weightAt_of_some hn, TreeNode.weight, BitVec.toNat_ofNat]
  omega

theorem arena_existsUnique_parent (f : Table Word 256) (j : Nat)
    (hj : j + 2 < 2 * alphabetSize f) :
    ∃! i, ∃ h : i < 511, ((arenaTable (buildTree f)).at i h).internal = true
      ∧ (((arenaTable (buildTree f)).at i h).left.toNat = j
        ∨ ((arenaTable (buildTree f)).at i h).right.toNat = j) := by
  have unique := buildTree_existsUnique_parent f j hj
  refine (existsUnique_congr fun i => ⟨?_, ?_⟩).mpr unique
  · rintro ⟨h, hint, hc⟩
    obtain ⟨w, a, b, hn⟩ := (arena_internal_iff f i h).mp hint
    obtain ⟨hl, hr⟩ := arena_children h hn
    exact ⟨w, a, b, hn, by rwa [hl, hr] at hc⟩
  · rintro ⟨w, a, b, hn, hc⟩
    have hlt := (List.getElem?_eq_some_iff.mp hn).1
    have hle := alphabetSize_le f
    have h : i < 511 := by rw [length_buildTree] at hlt; omega
    obtain ⟨hl, hr⟩ := arena_children h hn
    exact ⟨h, (arena_internal_iff f i h).mpr ⟨w, a, b, hn⟩, by rwa [hl, hr]⟩

theorem nodeAt_of_lt (s : State) (i : BitVec 9) (h : i.toNat < 511) :
    s.nodeAt i = s.node.at i.toNat h := dif_pos h

/-- A successful TREE_BUILD has passed the weight check and runs the tree-building step. -/
theorem exec_treeBuild_noError {s t : State} (h : exec .treeBuild s = .next t)
    (he : t.errCode = .noError) : weightSum s.freq ≤ 0xFFFFFFFF ∧ t = s.treeStep.succeed 0 := by
  simp only [exec, execTreeBuild] at h
  cases hc : s.weightCheck with
  | none =>
    rw [hc] at h
    cases h
    exact ⟨(weightCheck_eq_none s).mp hc, rfl⟩
  | some e =>
    rw [hc] at h
    cases h
    simp only [State.weightCheck] at hc
    split at hc
    · cases hc; simp [weightOverflow] at he
    · cases hc

/-- Settles O15: the arena of the tree-building step, part by part. -/
theorem arenaIsATree : Obligations.ArenaIsATree := by
  intro s t L h he hL
  obtain ⟨hW, rfl⟩ := exec_treeBuild_noError h he
  rw [← alphabetSize_eq] at hL
  subst hL
  simp only [State.succeed_node, State.treeStep_node, State.succeed_root, State.treeStep_root]
  refine ⟨arena_valid s.freq, arena_internal s.freq, arena_leaf s.freq, ?_,
    arena_existsUnique_parent s.freq, fun h1 => ?_⟩
  · intro i h hL hi
    obtain ⟨w, a, b, hn⟩ := getElem?_buildTree_internal s.freq i hL hi
    obtain ⟨hl, hr⟩ := arena_children h hn
    obtain ⟨ha, hb, hab, -⟩ := buildTree_internal_spec hn
    refine ⟨hl ▸ ha, hr ▸ hb, fun e => hab ?_, ?_⟩
    · rw [← hl, ← hr, e]
    · rw [nodeAt_of_lt _ _ (by omega), nodeAt_of_lt _ _ (by omega)]
      simp only [State.succeed_node, State.treeStep_node, hl, hr]
      exact arena_weight h (by omega) (by omega) hW hn
  · simp [rootOf, Nat.ne_of_gt h1]

end Sys2Proof.Machine
end

section
/-! SUPPORT. The address map and one legal access (spec/20_memory.md R64, R66,
spec/40_host_interface.md R110)

Every location the configuration has is reached at its offset, and a mapped offset is the offset of
the location it reaches. So an access that reaches a location is known from the location. -/

namespace Sys2Proof.Machine

/-! ### The address map -/

theorem offset_mod_four (l : Loc) : l.offset % 4 = 0 := by
  cases l <;> simp only [Loc.offset] <;> omega

theorem registerAt_eq_some {a : Nat} {l : Loc} (h : registerAt a = some l) (cap : Nat) :
    l.offset = a ∧ l.mapped cap = true := by
  unfold registerAt at h
  split at h <;> cases h <;> exact ⟨rfl, rfl⟩

/-- A mapped word-aligned offset is the offset of the location it reaches: in each region of R64 the
index of the location is computed back from the offset. -/
theorem ofOffset_eq_some {cap a : Nat} {l : Loc} (ha : a % 4 = 0)
    (h : Loc.ofOffset cap a = some l) : l.offset = a ∧ l.mapped cap = true := by
  rw [Loc.ofOffset] at h
  by_cases hr : a < 0x1000
  · rw [if_pos hr] at h
    exact registerAt_eq_some h cap
  · rw [if_neg hr] at h
    split_ifs at h <;> cases h <;> simp [Loc.offset, Loc.mapped] <;> omega

/-- Every location the configuration has is reached at its offset: the regions of R64 in turn. -/
theorem ofOffset_of_eq {cap a : Nat} (hcap : cap ≤ 0x01000000) {l : Loc}
    (h : l.mapped cap = true) (ha : l.offset = a) : Loc.ofOffset cap a = some l := by
  cases l <;> simp only [Loc.offset] at ha
  case freq c =>
    have hc : (a - 0x1000) / 4 = c.toNat := by omega
    rw [Loc.ofOffset, if_neg (by omega), if_pos (by omega), hc]
    simp
  case codeLen c =>
    have hc : (a - 0x1400) / 4 = c.toNat := by omega
    rw [Loc.ofOffset, if_neg (by omega), if_neg (by omega), if_pos (by omega), hc]
    simp
  case codeBits c w =>
    have hc : (a - 0x2000) / 32 = c.toNat := by omega
    have hw : (a - 0x2000) / 4 % 8 = w.toNat := by omega
    rw [Loc.ofOffset, if_neg (by omega), if_neg (by omega), if_neg (by omega), if_neg (by omega),
      if_pos (by omega), hc, hw]
    simp
  case node i w =>
    have hi : (a - 0x4000) / 8 = i.val := by omega
    have hw : (a - 0x4000) / 4 % 2 = w.toNat := by omega
    rw [Loc.ofOffset, if_neg (by omega), if_neg (by omega), if_neg (by omega), if_neg (by omega),
      if_neg (by omega), if_pos (by omega), hi, hw]
    simp
  case ibuf j =>
    have hj : (a - 0x01000000) / 4 = j := by omega
    simp only [Loc.mapped, decide_eq_true_eq] at h
    rw [Loc.ofOffset, if_neg (by omega), if_neg (by omega), if_neg (by omega), if_neg (by omega),
      if_neg (by omega), if_neg (by omega), if_neg (by omega), if_pos (by omega), hj]
  case obuf j =>
    have hj : (a - 0x02000000) / 4 = j := by omega
    simp only [Loc.mapped, decide_eq_true_eq] at h
    rw [Loc.ofOffset, if_neg (by omega), if_neg (by omega), if_neg (by omega), if_neg (by omega),
      if_neg (by omega), if_neg (by omega), if_neg (by omega), if_neg (by omega),
      if_neg (by omega), if_pos (by omega), hj]
  all_goals
    subst ha
    rfl

/-! ### Accesses that reach a location -/

/-- What an access reaches is where it goes, and the location exists. -/
theorem target_eq_some {s : State} {a : Access} {l : Loc} (h : s.target a = some l) :
    a.size = .bits32 ∧ a.offset = l.offset ∧ l.mapped s.params.bufBytes = true := by
  simp only [State.target] at h
  split_ifs at h with ha
  obtain ⟨ho, hm⟩ := ofOffset_eq_some ha.2 h
  exact ⟨ha.1, ho.symm, hm⟩

theorem target_offset (s : State) {l : Loc} (h : l.mapped s.params.bufBytes = true) (d : Dir) :
    s.target { size := .bits32, offset := l.offset, dir := d } = some l := by
  obtain ⟨-, -, hcap, -⟩ := params_legal s.params
  rw [State.target, if_pos ⟨rfl, offset_mod_four l⟩]
  exact ofOffset_of_eq hcap h rfl

theorem hostAccess_read (s : State) {l : Loc} (h : l.mapped s.params.bufBytes = true) :
    s.hostAccess { size := .bits32, offset := l.offset, dir := .read } = s.readLoc l := by
  simp only [State.hostAccess, target_offset s h]

theorem hostAccess_write (s : State) {l : Loc} (h : l.mapped s.params.bufBytes = true) (v : Word) :
    s.hostAccess { size := .bits32, offset := l.offset, dir := .write v } = s.writeLoc l v := by
  simp only [State.hostAccess, target_offset s h]

theorem busy_eq_false {s : State} (h : s.phase = .idle) : s.busy = false := by
  simp [State.busy, h]

theorem busy_eq_true {s : State} {v : Word} (h : s.phase = .busy v) : s.busy = true := by
  simp [State.busy, h]

theorem phase_eq_idle {s : State} (h : s.busy = false) : s.phase = .idle := by
  cases hp : s.phase with
  | idle => rfl
  | busy v => rw [busy_eq_true hp] at h; cases h

/-- The statement whose access writes v to l is `wr l v` (R96). -/
theorem stmt_eq_wr {s : State} {st : Stmt} {l : Loc} {v : Word}
    (ht : s.target st.toAccess = some l) (hd : st.toAccess.dir = .write v) : st = wr l v := by
  obtain ⟨hs, ho, -⟩ := target_eq_some ht
  cases st with
  | waitIdle => cases hd
  | access a =>
    obtain ⟨size, offset, dir⟩ := a
    cases hs
    cases ho
    cases hd
    rfl

/-! ### Host turns -/

theorem hostTurn_of_nil {s : State} (h : s.program = []) : s.hostTurn = s := by
  simp only [State.hostTurn, h]

theorem hostTurn_of_cons {s : State} {st : Stmt} {prog : List Stmt} (h : s.program = st :: prog) :
    s.hostTurn = { (s.hostAccess st.toAccess).1 with
      program := continueAfter st prog (s.hostAccess st.toAccess).2
      replies := (s.hostAccess st.toAccess).2 :: s.replies } := by
  simp only [State.hostTurn, h]

end Sys2Proof.Machine
end

section
/-! SUPPORT. Statements of spec/10_state.md about one turn or one access: acceptance and dispatch
(R31, R120), reads while BUSY (R39), STATUS (R25, R245). -/

namespace Sys2Proof.Machine

/-- Settles O4: both schedules give the Core the turn, and the Core decodes PEND. -/
theorem stepRunsDecodedCommand : Obligations.StepRunsDecodedCommand := by
  intro s v i hp hd
  have core_turn : ∀ u : State, u.phase = .busy v → u.coreTurn = exec i u := fun u hu => by
    simp only [State.coreTurn, hu, execWord, hd]
  refine ⟨fun rest hs => ?_, fun hs => ?_⟩
  · simp only [step, State.takeTurn, hs]
    exact core_turn _ hp
  · simp only [step, State.takeTurn, hs, busy_eq_true hp, if_true]
    exact core_turn s hp

theorem hostAccess_cmd_idle {s : State} (h : s.phase = .idle) (v : Word) :
    s.hostAccess (wr .cmd v).toAccess = (s.accept v, .written) := by
  refine (hostAccess_write s rfl v).trans ?_
  simp [State.writeLoc, Loc.readOnly, busy_eq_false h, State.idleWrite]

/-- Settles O5: the Host's turn makes the CMD write, and the Core's turn finds nothing pending. -/
theorem cmdWriteAcceptsCommand : Obligations.CmdWriteAcceptsCommand := by
  intro s v prog rest hp
  refine ⟨fun hprog hs => ?_, fun hs => ?_⟩
  · have access : State.hostAccess { s with schedule := rest } (wr .cmd v).toAccess
        = (State.accept { s with schedule := rest } v, .written) :=
      hostAccess_cmd_idle (s := { s with schedule := rest }) hp v
    simp only [step, State.takeTurn, hs]
    rw [hostTurn_of_cons (s := { s with schedule := rest }) hprog, access]
    rfl
  · simp only [step, State.takeTurn, hs, State.coreTurn, hp]

/-- Settles O53: the two lists of R39 are the two values of `Loc.exactWhileBusy`. -/
theorem busyReadsAreExactOrDraws : Obligations.BusyReadsAreExactOrDraws := by
  intro s p l hp hm
  have read : s.hostAccess { size := .bits32, offset := l.offset, dir := .read } = s.busyRead l := by
    rw [hostAccess_read s hm, State.readLoc, busy_eq_true hp, if_pos rfl]
  rw [read, State.busyRead]
  refine ⟨fun h => if_pos ?_, fun h => if_neg ?_⟩
  · rcases h with h | ⟨j, rfl⟩
    · fin_cases h <;> rfl
    · rfl
  · rcases h with h | ⟨c, rfl | rfl | ⟨w, rfl⟩⟩ | ⟨i, w, rfl⟩ | ⟨j, rfl⟩
    · fin_cases h <;> decide
    all_goals simp [Loc.exactWhileBusy]

/-! ### STATUS -/

theorem busy_iff (s : State) : s.busy = true ↔ s.phase ≠ .idle := by
  cases h : s.phase <;> simp [State.busy, h]

theorem err_iff (s : State) : s.err = true ↔ s.errCode ≠ .noError := by
  cases h : s.errCode <;> simp [State.err, h, ErrCode.number]

/-- The flags of STATUS, bits 7 to 0 (R25). -/
theorem statusWord_flags (s : State) :
    s.statusWord.getLsbD 0 = s.busy ∧ s.statusWord.getLsbD 1 = s.done
      ∧ s.statusWord.getLsbD 2 = s.err ∧ s.statusWord.getLsbD 3 = s.treeValid
      ∧ s.statusWord.getLsbD 4 = s.codeValid ∧ s.statusWord.getLsbD 5 = s.cmdOvr
      ∧ s.statusWord.getLsbD 6 = s.accErr ∧ s.statusWord.getLsbD 7 = s.irq := by
  simp only [State.statusWord, BitVec.getLsbD_append]
  simp

/-- ERR_CODE and the zeros above it (R25). -/
theorem statusWord_errCode (s : State) :
    s.statusWord.extractLsb' 8 4 = s.errCode.number ∧ s.statusWord.extractLsb' 12 20 = 0#20 := by
  refine ⟨BitVec.eq_of_getLsbD_eq fun i hi => ?_, BitVec.eq_of_getLsbD_eq fun i hi => ?_⟩
  · have flags_below : ∀ k ≤ 8, ¬ 8 + i < k := by omega
    simp only [State.statusWord, BitVec.getLsbD_append, BitVec.getLsbD_extractLsb']
    simp [hi, flags_below]
  · simp only [State.statusWord, BitVec.getLsbD_append, BitVec.getLsbD_extractLsb']
    simp

theorem statusAccess_write (s : State) (w : Word) :
    s.hostAccess { size := .bits32, offset := 0x014, dir := .write w }
      = (s.writeStatus w, .written) := by
  refine (hostAccess_write s (l := .status) rfl w).trans ?_
  cases h : s.busy <;> simp [State.writeLoc, Loc.readOnly, State.idleWrite, State.busyWrite, h]

theorem statusAccess_read (s : State) :
    s.hostAccess { size := .bits32, offset := 0x014, dir := .read } = (s, .value s.statusWord) := by
  refine (hostAccess_read s (l := .status) rfl).trans ?_
  cases h : s.busy <;>
    simp [State.readLoc, State.busyRead, Loc.exactWhileBusy, State.idleRead, h]

/-- Settles O48: the fields of `statusWord`, the numbers of R245, and the two accesses. -/
theorem statusRegister : Obligations.StatusRegister := by
  intro s w
  obtain ⟨h0, h1, h2, h3, h4, h5, h6, h7⟩ := statusWord_flags s
  obtain ⟨hcode, hres⟩ := statusWord_errCode s
  rw [h0, h1, h2, h3, h4, h5, h6, h7, hcode]
  refine ⟨busy_iff s, rfl, err_iff s, rfl, rfl, rfl, rfl, rfl, ?_, ?_, ?_, ?_, ?_, ?_, ?_,
    ?_, rfl, ?_, hres, statusAccess_write s w, statusAccess_read s⟩
  case refine_9 => cases s.errCode <;> decide
  all_goals
    intro h
    rw [h]
    rfl

end Sys2Proof.Machine
end

section
/-! SUPPORT. What a command and a step can do (spec/10_state.md R31, spec/60_exceptions.md R247)

A completion is one of ten run phases followed by one of two completion writes. The invariants and
frames of every command are proved from that, and an invariant of every step from `step_keeps`. -/

namespace Sys2Proof.Machine

/-! ### Errors -/

/-- An error the Host can see: neither ERR_CODE nor REASON is 0 (R245, R246). -/
def CmdError.Shown (e : CmdError) : Prop := e.code ≠ .noError ∧ e.reason ≠ 0#4

theorem badCommand_shown (d : DecodeError) : (badCommand d).Shown := by
  cases d <;> simp [badCommand, CmdError.Shown]

theorem rangeCheck_shown {s : State} {e : CmdError} (h : s.rangeCheck = some e) : e.Shown := by
  simp only [State.rangeCheck, Option.ite_none_right_eq_some, Option.some.injEq] at h
  simp [← h.2, inLenTooLarge, CmdError.Shown]

theorem weightCheck_shown {s : State} {e : CmdError} (h : s.weightCheck = some e) : e.Shown := by
  simp only [State.weightCheck, Option.ite_none_right_eq_some, Option.some.injEq] at h
  simp [← h.2, weightOverflow, CmdError.Shown]

theorem treeCheck_shown {s : State} {e : CmdError} (h : s.treeCheck = some e) : e.Shown := by
  simp only [State.treeCheck, Option.ite_none_left_eq_some, Option.some.injEq] at h
  simp [← h.2, noTree, CmdError.Shown]

theorem codesCheck_shown {s : State} {e : CmdError} (h : s.codesCheck = some e) : e.Shown := by
  simp only [State.codesCheck, Option.ite_none_left_eq_some, Option.some.injEq] at h
  simp [← h.2, noCodes, CmdError.Shown]

theorem integrityCheck_shown {s : State} {e : CmdError} (h : s.integrityCheck = some e) :
    e.Shown := by
  obtain ⟨k, -, rfl⟩ := Option.map_eq_some_iff.mp h
  simp [missingCode, CmdError.Shown]

theorem packCapacityCheck_shown {s : State} {e : CmdError} (h : s.packCapacityCheck = some e) :
    e.Shown := by
  simp only [State.packCapacityCheck, Option.ite_none_right_eq_some, Option.some.injEq] at h
  simp [← h.2, outputFull, CmdError.Shown]

theorem headerCheck_shown {s : State} {e : CmdError} (h : s.headerCheck = some e) : e.Shown := by
  simp only [State.headerCheck, Option.ite_none_right_eq_some, Option.some.injEq] at h
  simp [← h.2, noHeader, CmdError.Shown]

theorem padCheck_shown {s : State} {o m : Nat} {e : CmdError} (h : s.padCheck o m = some e) :
    e.Shown := by
  simp only [State.padCheck] at h
  split_ifs at h <;> cases h <;> simp [padRange, padExceeds, CmdError.Shown]

theorem containerCheck_shown {s : State} {e : CmdError} (h : s.containerCheck = some e) :
    e.Shown := by
  simp only [State.containerCheck, Option.ite_none_right_eq_some, Option.some.injEq] at h
  simp [← h.2, shortContainer, CmdError.Shown]

theorem countCheck_shown {s : State} {e : CmdError} (h : s.countCheck = some e) : e.Shown := by
  simp only [State.countCheck, Option.ite_none_right_eq_some, Option.some.injEq] at h
  simp [← h.2, countTooLarge, CmdError.Shown]

/-- PACK's error is the first one its checks raise (R185). -/
theorem packCheck_eq (s : State) :
    s.packCheck = s.codesCheck.or (s.rangeCheck.or (s.integrityCheck.or s.packCapacityCheck)) := by
  unfold State.packCheck
  cases s.codesCheck <;> cases s.rangeCheck <;> cases s.integrityCheck <;> rfl

theorem packCheck_shown {s : State} {e : CmdError} (h : s.packCheck = some e) : e.Shown := by
  simp only [packCheck_eq, Option.or_eq_some_iff] at h
  obtain h | ⟨-, h | ⟨-, h | ⟨-, h⟩⟩⟩ := h
  · exact codesCheck_shown h
  · exact rangeCheck_shown h
  · exact integrityCheck_shown h
  · exact packCapacityCheck_shown h

/-- UNPACK's error is the first one its checks raise (R200). -/
theorem unpackCheck_eq (s : State) :
    s.unpackCheck
      = s.codesCheck.or (s.rangeCheck.or (s.headerCheck.or (s.padCheck 0 (s.inputLen - 1)))) := by
  unfold State.unpackCheck
  cases s.codesCheck <;> cases s.rangeCheck <;> cases s.headerCheck <;> rfl

theorem unpackCheck_shown {s : State} {e : CmdError} (h : s.unpackCheck = some e) : e.Shown := by
  simp only [unpackCheck_eq, Option.or_eq_some_iff] at h
  obtain h | ⟨-, h | ⟨-, h | ⟨-, h⟩⟩⟩ := h
  · exact codesCheck_shown h
  · exact rangeCheck_shown h
  · exact headerCheck_shown h
  · exact padCheck_shown h

/-- DECODE's error is the first one its checks raise (R226). -/
theorem decodeCheck_eq (s : State) :
    s.decodeCheck
      = s.rangeCheck.or (s.containerCheck.or
          ((s.padCheck 1024 (s.inputLen - 1025)).or s.countCheck)) := by
  unfold State.decodeCheck
  cases s.rangeCheck <;> cases s.containerCheck <;> cases s.padCheck 1024 (s.inputLen - 1025) <;>
    rfl

theorem decodeCheck_shown {s : State} {e : CmdError} (h : s.decodeCheck = some e) : e.Shown := by
  simp only [decodeCheck_eq, Option.or_eq_some_iff] at h
  obtain h | ⟨-, h | ⟨-, h | ⟨-, h⟩⟩⟩ := h
  · exact rangeCheck_shown h
  · exact containerCheck_shown h
  · exact padCheck_shown h
  · exact countCheck_shown h

/-! ### The walk's bounds (45_bitstream_decoder.md R203) -/

/-- A walk result that fits a buffer of cap bytes and whose error, if any, is shown. -/
def WalkResult.Fits (r : WalkResult) (cap : Nat) : Prop :=
  r.out.length ≤ cap ∧ ∀ e, r.error = some e → e.Shown

theorem walkEnd_fits (n : Option Nat) (cur : Option (BitVec 9)) (d cap : Nat) {out : List Byte}
    (h : out.length ≤ cap) : (walkEnd n cur d out).Fits cap := by
  cases cur with
  | some i => exact ⟨h, by simp [walkEnd, leftover, CmdError.Shown]⟩
  | none =>
    cases n with
    | none => exact ⟨h, by simp [walkEnd]⟩
    | some want =>
      by_cases hw : out.length < want <;>
        simp [walkEnd, hw, WalkResult.Fits, h, short, CmdError.Shown]

theorem walk_fits (s : State) (n : Option Nat) (cap : Nat) (b : Bits) (k : Nat)
    (cur : Option (BitVec 9)) (d : Nat) (out : List Byte) (h : out.length ≤ cap) :
    (s.walk n cap b k cur d out).Fits cap := by
  induction b generalizing k cur d out with
  | nil => exact walkEnd_fits n cur d cap h
  | cons x b ih =>
    have stop : ∀ e : CmdError, e.Shown → WalkResult.Fits ⟨out, some e⟩ cap := fun e he =>
      ⟨h, fun e' h' => by cases h'; exact he⟩
    have emit : ∀ c : Byte, WalkResult.Fits (if out.length = cap then
        ⟨out, some (outputFull (cap + 1))⟩ else s.walk n cap b (k + 1) none 0 (out ++ [c])) cap := by
      intro c
      split
      · exact stop _ (by simp [outputFull, CmdError.Shown])
      · exact ih _ _ _ _ (by simp; omega)
    have descend : ∀ j, WalkResult.Fits (if (s.nodeAt j).internal then
        s.walk n cap b (k + 1) (some j) (d + 1) out else if out.length = cap then
        ⟨out, some (outputFull (cap + 1))⟩ else
        s.walk n cap b (k + 1) none 0 (out ++ [(s.nodeAt j).symbol])) cap := by
      intro j
      split
      · exact ih _ _ _ _ h
      · exact emit _
    rw [State.walk]
    split
    · exact stop _ (by simp [trailing, CmdError.Shown])
    split
    · exact stop _ (by simp [deadEnd, CmdError.Shown])
    split
    · split
      · exact stop _ (by simp [deadEnd, CmdError.Shown])
      · exact emit _
    · cases x <;> exact descend _

theorem decodeStream_fits (s : State) (n : Option Nat) (t : Bits) :
    (s.decodeStream n t).Fits s.params.bufBytes :=
  walk_fits s n s.params.bufBytes t 0 none 0 [] (Nat.zero_le _)

/-! ### Completions -/

/-- What the run phase of a command writes: `RunPhase s u n` when one takes s to u and the completion
writes OUT_LEN n. A command whose checks fail, and NOP, run nothing. -/
inductive RunPhase (s : State) : State → Nat → Prop where
  | nothing : RunPhase s s 0
  | clear : RunPhase s s.clearTables 0
  | count (hn : s.inputLen ≤ s.params.bufBytes) :
      RunPhase s (s.loadFreq (freqTable s.inputBytes)) 0
  | tree (hw : weightSum s.freq ≤ 0xFFFFFFFF) : RunPhase s s.treeStep 0
  | codes (ht : s.treeValid = true) : RunPhase s s.codeStep 0
  | pack (hc : 1 + packedLen (s.streamLen s.inputBytes) ≤ s.params.bufBytes) :
      RunPhase s (s.packStep 0 s.inputBytes) (1 + packedLen (s.streamLen s.inputBytes))
  | unpack (out : List Byte) (ho : out.length ≤ s.params.bufBytes) :
      RunPhase s (s.unpackReady.storeOutput out) out.length
  | tables (hn : s.inputLen ≤ s.params.bufBytes) : RunPhase s s.encodeTables 0
  | encode (hn : s.inputLen ≤ s.params.bufBytes) (hc : s.containerLen ≤ s.params.bufBytes) :
      RunPhase s (s.encodeTables.writeContainer s.inputBytes) s.containerLen
  | decode (hw : weightSum s.containerFreq ≤ s.params.bufBytes) (out : List Byte)
      (ho : out.length ≤ s.params.bufBytes) : RunPhase s (s.decodeReady.storeOutput out) out.length

/-- The completion with OUT_LEN n after the run phase left u (R31): in success, or in a shown error. -/
inductive Completion (u : State) (n : Nat) : State → Prop where
  | success : Completion u n (u.succeed n)
  | error {e : CmdError} (he : e.Shown) : Completion u n (u.raise n e)

theorem finishWalk_completion (u : State) {r : WalkResult} {cap : Nat} (h : r.Fits cap) :
    Completion (u.storeOutput r.out) r.out.length (u.finishWalk r) := by
  rw [finishWalk_eq]
  cases hr : r.error with
  | none => exact .success
  | some e => exact .error (h.2 e hr)

/-- A command whose check phase raises e runs nothing. -/
theorem raise_completes {s : State} {e : CmdError} (he : e.Shown) :
    ∃ u n, RunPhase s u n ∧ Completion u n (s.raise 0 e) :=
  ⟨s, 0, .nothing, .error he⟩

/-- Every command completes after a run phase. -/
theorem after_completes (i : Instr) (s : State) :
    ∃ u n, RunPhase s u n ∧ Completion u n (after i s) := by
  cases i <;> simp only [after, exec]
  case nop => exact ⟨s, 0, .nothing, .success⟩
  case clear => exact ⟨_, 0, .clear, .success⟩
  case freqCount =>
    rw [execFreqCount]
    cases h : s.rangeCheck with
    | some e => exact raise_completes (rangeCheck_shown h)
    | none => exact ⟨_, _, .count ((rangeCheck_eq_none s).mp h), .success⟩
  case treeBuild =>
    rw [execTreeBuild]
    cases h : s.weightCheck with
    | some e => exact raise_completes (weightCheck_shown h)
    | none => exact ⟨_, _, .tree ((weightCheck_eq_none s).mp h), .success⟩
  case codeGen =>
    rw [execCodeGen]
    cases h : s.treeCheck with
    | some e => exact raise_completes (treeCheck_shown h)
    | none => exact ⟨_, _, .codes ((treeCheck_eq_none s).mp h), .success⟩
  case pack =>
    rw [execPack]
    cases h : s.packCheck with
    | some e => exact raise_completes (packCheck_shown h)
    | none =>
      obtain ⟨-, -, -, hc⟩ := (packCheck_eq_none s).mp h
      exact ⟨_, _, .pack hc, .success⟩
  case unpack =>
    rw [execUnpack]
    cases h : s.unpackCheck with
    | some e => exact raise_completes (unpackCheck_shown h)
    | none =>
      have fits := decodeStream_fits s.unpackReady none (s.payloadStream 0 (s.inputLen - 1))
      rw [State.unpackReady_params] at fits
      exact ⟨_, _, .unpack _ fits.1, finishWalk_completion _ fits⟩
  case encode =>
    rw [execEncode]
    cases h : s.rangeCheck with
    | some e => exact raise_completes (rangeCheck_shown h)
    | none =>
      rw [rangeCheck_eq_none] at h
      by_cases hc : s.containerLen > s.params.bufBytes
      · simp only [if_pos hc]
        exact ⟨_, _, .tables h, .error (by simp [outputFull, CmdError.Shown])⟩
      · simp only [if_neg hc]
        exact ⟨_, _, .encode h (Nat.le_of_not_lt hc), .success⟩
  case decode =>
    rw [execDecode]
    cases h : s.decodeCheck with
    | some e => exact raise_completes (decodeCheck_shown h)
    | none =>
      obtain ⟨-, -, -, hw⟩ := (decodeCheck_eq_none s).mp h
      have fits := decodeStream_fits s.decodeReady (some (weightSum s.containerFreq))
        (s.payloadStream 1024 (s.inputLen - 1025))
      rw [State.decodeReady_params] at fits
      exact ⟨_, _, .decode hw _ fits.1, finishWalk_completion _ fits⟩

theorem exec_completes {i : Instr} {s t : State} (h : exec i s = .next t) :
    ∃ u n, RunPhase s u n ∧ Completion u n t := by
  rw [exec_eq_next] at h
  cases h
  exact after_completes i s

/-- The Core's step while BUSY is a completion, of a legal word or of an illegal one (R31, R93). -/
theorem coreTurn_completes {s t : State} (hb : s.busy = true) (h : s.coreTurn = .next t) :
    ∃ u n, RunPhase s u n ∧ Completion u n t := by
  obtain ⟨hp, -⟩ | ⟨v, i, -, -, hx⟩ | ⟨v, e, -, -, rfl⟩ := coreTurn_cases h
  · rw [busy_eq_false hp] at hb
    cases hb
  · exact exec_completes hx
  · exact raise_completes (badCommand_shown e)

/-! ### What a run phase and a completion leave unchanged -/

/-- What no command writes, and the agents' inputs, stand (R92); the run phase writes no completion
state either. -/
structure SameInputs (s t : State) : Prop where
  params : t.params = s.params
  ie : t.ie = s.ie
  cmdOvr : t.cmdOvr = s.cmdOvr
  accErr : t.accErr = s.accErr
  cmd : t.cmd = s.cmd
  inLen : t.inLen = s.inLen
  ibuf : t.ibuf = s.ibuf
  program : t.program = s.program
  schedule : t.schedule = s.schedule
  replies : t.replies = s.replies
  draws : t.draws = s.draws

theorem RunPhase.sameInputs {s u : State} {n : Nat} (h : RunPhase s u n) : SameInputs s u := by
  cases h <;> exact ⟨rfl, rfl, rfl, rfl, rfl, rfl, rfl, rfl, rfl, rfl, rfl⟩

theorem Completion.sameInputs {u t : State} {n : Nat} (h : Completion u n t) : SameInputs u t := by
  cases h <;> exact ⟨rfl, rfl, rfl, rfl, rfl, rfl, rfl, rfl, rfl, rfl, rfl⟩

theorem SameInputs.trans {s u t : State} (h : SameInputs s u) (h' : SameInputs u t) :
    SameInputs s t :=
  ⟨h'.params.trans h.params, h'.ie.trans h.ie, h'.cmdOvr.trans h.cmdOvr, h'.accErr.trans h.accErr,
    h'.cmd.trans h.cmd, h'.inLen.trans h.inLen, h'.ibuf.trans h.ibuf, h'.program.trans h.program,
    h'.schedule.trans h.schedule, h'.replies.trans h.replies, h'.draws.trans h.draws⟩

theorem RunPhase.outLen_le {s u : State} {n : Nat} (h : RunPhase s u n) :
    n ≤ s.params.bufBytes := by
  cases h with
  | pack hc => exact hc
  | unpack out ho => exact ho
  | encode hn hc => exact hc
  | decode hw out ho => exact ho
  | _ => exact Nat.zero_le _

/-- The completion state (R31, R247). -/
theorem Completion.state {u t : State} {n : Nat} (h : Completion u n t) :
    t.phase = .idle ∧ t.done = true ∧ t.outLen = BitVec.ofNat 32 n
      ∧ (t.errCode = .noError → t.errInfo = noInfo)
      ∧ (t.errCode ≠ .noError → t.errInfo.reason ≠ 0#4) := by
  cases h with
  | success => exact ⟨rfl, rfl, rfl, fun _ => rfl, fun h => absurd rfl h⟩
  | error he => exact ⟨rfl, rfl, rfl, fun h => absurd h he.1, fun _ => he.2⟩

/-- Settles O6: a run phase and a completion write none of what is listed. -/
theorem everyCommandCompletes : Obligations.EveryCommandCompletes := by
  intro i s
  obtain ⟨u, n, hrun, hc⟩ := after_completes i s
  obtain ⟨hphase, hdone, -, hok, herr⟩ := hc.state
  have same := hrun.sameInputs.trans hc.sameInputs
  exact ⟨after i s, exec_eq_next i s, hphase, hdone, hok, herr, same.ie, same.cmdOvr, same.accErr,
    same.cmd, same.inLen, same.ibuf, same.params, same.program, same.schedule, same.replies,
    same.draws⟩

/-! ### Invariants of every step -/

/-- What a run phase, a write, the reset and the agents' own data keep, every step keeps. -/
theorem step_keeps {P : State → Prop}
    (agents : ∀ s prog sched replies draws, P s →
      P { s with program := prog, schedule := sched, replies := replies, draws := draws })
    (busyWrite : ∀ s l v, s.busy = true → P s → P (s.busyWrite l v))
    (idleWrite : ∀ s l v, s.busy = false → l.mapped s.params.bufBytes = true → P s →
      P (s.idleWrite l v))
    (complete : ∀ s u n t, RunPhase s u n → Completion u n t → P s → P t)
    (reset : ∀ s d, P s → P (s.hardReset d))
    {s t : State} (hs : P s) (h : step s = .next t) : P t := by
  have access : ∀ s a, P s → P (s.hostAccess a).1 := by
    intro s a hs
    obtain h | h | ⟨l, v, ht, -, -, ⟨hb, h⟩ | ⟨hb, h⟩⟩ := hostAccess_cases s a
    · rwa [h]
    · rw [h]
      exact agents s s.program s.schedule s.replies _ hs
    · rw [h]
      exact busyWrite s l v hb hs
    · rw [h]
      exact idleWrite s l v hb (target_eq_some ht).2.2 hs
  have host : ∀ s, P s → P s.hostTurn := by
    intro s hs
    cases hp : s.program with
    | nil => rwa [hostTurn_of_nil hp]
    | cons st prog =>
      rw [hostTurn_of_cons hp]
      exact agents _ _ _ _ _ (access s st.toAccess hs)
  have core : ∀ s t, P s → s.coreTurn = .next t → P t := by
    intro s t hs h
    cases hb : s.busy with
    | true =>
      obtain ⟨u, n, hrun, hc⟩ := coreTurn_completes hb h
      exact complete s u n t hrun hc hs
    | false =>
      simp only [State.coreTurn, phase_eq_idle hb] at h
      cases h
      exact hs
  have turn : ∀ rest, P { s with schedule := rest } := fun rest =>
    agents s s.program rest s.replies s.draws hs
  obtain ⟨rest, -, rfl⟩ | ⟨rest, -, h⟩ | ⟨d, rest, -, rfl⟩ | ⟨-, -, h⟩ | ⟨-, -, rfl⟩ := step_cases h
  · exact host _ (turn rest)
  · exact core _ t (turn rest) h
  · exact reset _ d (turn rest)
  · exact core s t hs h
  · exact host s hs

end Sys2Proof.Machine
end

section
/-! SUPPORT. The invariants of every step (spec/10_state.md R29 to R31, R37, R50, R51), and what
changes the input and the interrupt line (R27, R38). -/

namespace Sys2Proof.Machine

/-! ### The buffers (R50, R51) -/

/-- Bytes written to OBUF inside the buffer keep both buffers in order. -/
theorem MemoryOk.of_obuf_writeBytes {s u : State} (h : MemoryOk s) (k : Nat) (bs : List Byte)
    (hk : k + bs.length ≤ s.params.bufBytes) (hp : u.params = s.params) (hi : u.ibuf = s.ibuf)
    (ho : u.obuf = Memory.writeBytes s.obuf k bs) : MemoryOk u := by
  refine ⟨?_, ?_, ?_, ?_⟩
  · rw [hi]; exact h.ibufWf
  · rw [ho]; exact Memory.wf_writeBytes _ _ _ h.obufWf
  · rw [hi, hp]; exact h.ibufIn
  · rw [ho, hp]; exact Memory.below_writeBytes _ _ _ _ hk h.obufIn

/-- A state with the same buffers is in order too. -/
theorem MemoryOk.of_eq {s u : State} (h : MemoryOk s) (hp : u.params = s.params)
    (hi : u.ibuf = s.ibuf) (ho : u.obuf = s.obuf) : MemoryOk u :=
  ⟨hi ▸ h.ibufWf, ho ▸ h.obufWf, hp ▸ hi ▸ h.ibufIn, hp ▸ ho ▸ h.obufIn⟩

theorem length_freqSection (f : Table Word 256) : (freqSection f).length = 1024 := by
  have h : ∀ ws : List Word, (ws.flatMap le32Bytes).length = 4 * ws.length := by
    intro ws
    induction ws with
    | nil => rfl
    | cons w ws ih => simp [ih, le32Bytes]; omega
  rw [freqSection, h, f.len]

/-- The Container's two parts, the frequency section and the payload after it (R221). -/
theorem memoryOk_writeContainer {s : State} {b : List Byte} (h : MemoryOk s)
    (hk : 1024 + (payload (s.stream b)).length ≤ s.params.bufBytes) :
    MemoryOk (s.writeContainer b) := by
  have freq_ok := h.of_obuf_writeBytes 0 (freqSection s.freq)
    (u := { s with obuf := Memory.writeBytes s.obuf 0 (freqSection s.freq) })
    (by rw [length_freqSection]; omega) rfl rfl rfl
  exact freq_ok.of_obuf_writeBytes 1024 (payload (s.stream b)) hk rfl rfl rfl

theorem RunPhase.memoryOk {s u : State} {n : Nat} (h : RunPhase s u n) (hs : MemoryOk s) :
    MemoryOk u := by
  cases h with
  | nothing => exact hs
  | clear => exact hs.of_eq rfl rfl rfl
  | count => exact hs.of_eq rfl rfl rfl
  | tree => exact hs.of_eq rfl rfl rfl
  | codes => exact hs.of_eq rfl rfl rfl
  | tables => exact hs.of_eq rfl rfl rfl
  | pack hc =>
    refine hs.of_obuf_writeBytes 0 (payload (s.stream s.inputBytes)) ?_ rfl rfl rfl
    simpa [length_stream] using hc
  | unpack out ho => exact hs.of_obuf_writeBytes 0 out (by simpa using ho) rfl rfl rfl
  | decode hw out ho => exact hs.of_obuf_writeBytes 0 out (by simpa using ho) rfl rfl rfl
  | encode hn hc =>
    refine memoryOk_writeContainer (hs.of_eq rfl rfl rfl) ?_
    rw [length_payload, length_stream, State.encodeTables_params]
    rw [State.containerLen] at hc
    omega

theorem Completion.memoryOk {u t : State} {n : Nat} (h : Completion u n t) (hu : MemoryOk u) :
    MemoryOk t := by
  cases h <;> exact hu.of_eq rfl rfl rfl

theorem memoryOk_busyWrite {s : State} (l : Loc) (v : Word) (h : MemoryOk s) :
    MemoryOk (s.busyWrite l v) := by
  cases l <;> exact h.of_eq rfl rfl rfl

/-- A word of a buffer is inside it, whose size is a multiple of four (R7). -/
theorem memoryOk_idleWrite {s : State} {l : Loc} (v : Word)
    (hm : l.mapped s.params.bufBytes = true) (h : MemoryOk s) : MemoryOk (s.idleWrite l v) := by
  obtain ⟨hdiv, -⟩ := params_legal s.params
  have word_in : ∀ j, 4 * j < s.params.bufBytes →
      4 * j + (le32Bytes v).length ≤ s.params.bufBytes := fun j hj => by
    simp [le32Bytes]
    omega
  cases l
  case ibuf j =>
    have hj := word_in j (by simpa [Loc.mapped] using hm)
    exact ⟨Memory.wf_writeWord _ _ _ h.ibufWf, h.obufWf,
      Memory.below_writeBytes _ _ _ _ hj h.ibufIn, h.obufIn⟩
  case obuf j =>
    have hj := word_in j (by simpa [Loc.mapped] using hm)
    exact h.of_obuf_writeBytes (4 * j) (le32Bytes v) hj rfl rfl rfl
  all_goals exact h.of_eq rfl rfl rfl

theorem memoryOk_hardReset (s : State) (d : Draws) : MemoryOk (s.hardReset d) := by
  have drawn_in : ∀ bs : List Byte, 0 + (bs.take s.params.bufBytes).length ≤ s.params.bufBytes :=
    fun bs => by simp
  exact ⟨Memory.wf_writeBytes _ _ _ Memory.wf_nil, Memory.wf_writeBytes _ _ _ Memory.wf_nil,
    Memory.below_writeBytes _ _ _ _ (drawn_in d.ibuf) rfl,
    Memory.below_writeBytes _ _ _ _ (drawn_in d.obuf) rfl⟩

/-- Settles O39: every write to a buffer ends inside it. -/
theorem everyStepKeepsMemoryOk : Obligations.EveryStepKeepsMemoryOk := fun _ _ =>
  step_keeps (P := MemoryOk)
    (agents := fun _ _ _ _ _ h => h.of_eq rfl rfl rfl)
    (busyWrite := fun _ l v _ h => memoryOk_busyWrite l v h)
    (idleWrite := fun _ _ v _ hm h => memoryOk_idleWrite v hm h)
    (complete := fun _ _ _ _ hrun hc h => hc.memoryOk (hrun.memoryOk h))
    (reset := fun s d _ => memoryOk_hardReset s d)

/-! ### The tree and the codes (R37) -/

/-- Stale flags assert nothing. -/
theorem tablesOk_of_stale {s : State} (ht : s.treeValid = false) (hc : s.codeValid = false) :
    TablesOk s :=
  ⟨fun h => absurd (ht ▸ h) Bool.false_ne_true, fun h => absurd (hc ▸ h) Bool.false_ne_true⟩

theorem tablesOk_treeStep {s : State} (h : weightSum s.freq ≤ 0xFFFFFFFF) : TablesOk s.treeStep :=
  ⟨fun _ => ⟨h, rfl, rfl, rfl, rfl⟩, fun h => absurd h Bool.false_ne_true⟩

theorem TablesOk.codeStep {s : State} (h : TablesOk s) (ht : s.treeValid = true) :
    TablesOk s.codeStep :=
  ⟨h.tree, fun _ => ⟨ht, rfl, rfl⟩⟩

/-- FREQ loaded, the tree built and the codes generated, as ENCODE and DECODE do (R221, R226). -/
theorem tablesOk_pipeline (s : State) {f : Table Word 256} (h : weightSum f ≤ 0xFFFFFFFF) :
    TablesOk (s.loadFreq f).treeStep.codeStep :=
  TablesOk.codeStep (tablesOk_treeStep h) rfl

theorem mem_symbols (c : Byte) : c ∈ symbols :=
  List.mem_map.mpr ⟨c.toNat, List.mem_range.mpr c.isLt, by simp⟩

theorem sumSymbols_count (b : List Byte) : sumSymbols (fun c => b.count c) = b.length := by
  have all : ∀ c ∈ (b : Multiset Byte), c ∈ symbols.toFinset := fun c _ => by simp [mem_symbols]
  rw [sumSymbols, ← List.sum_toFinset _ nodup_symbols]
  simpa using Multiset.sum_count_eq_card all

theorem weightSum_eq_sumSymbols (f : Table Word 256) :
    weightSum f = sumSymbols fun c => (f.bySymbol c).toNat := by
  have entries : f.entries = symbols.map f.bySymbol := by
    apply List.ext_getElem
    · simp [f.len, symbols]
    · intro i h h'
      have hi : i < 256 := by simpa [f.len] using h
      simp [symbols, Table.bySymbol, Table.at, Nat.mod_eq_of_lt hi]
  rw [weightSum_eq, sumSymbols, entries, List.map_map]
  rfl

/-- The counts of an input add up to at most its length. -/
theorem weightSum_freqTable_le (b : List Byte) : weightSum (freqTable b) ≤ b.length := by
  rw [weightSum_eq_sumSymbols, ← sumSymbols_count b]
  refine List.sum_le_sum fun c _ => ?_
  rw [freqTable, Table.bySymbol_ofSymbols, BitVec.toNat_ofNat]
  exact Nat.mod_le _ _

theorem bufBytes_le (s : State) : s.params.bufBytes ≤ 0x01000000 := (params_legal s.params).2.2.1

theorem RunPhase.tablesOk {s u : State} {n : Nat} (h : RunPhase s u n) (hs : TablesOk s) :
    TablesOk u := by
  have hcap := bufBytes_le s
  have inputWeight := weightSum_freqTable_le s.inputBytes
  rw [length_inputBytes] at inputWeight
  cases h with
  | nothing => exact hs
  | clear => exact tablesOk_of_stale rfl rfl
  | count => exact tablesOk_of_stale rfl rfl
  | tree hw => exact tablesOk_treeStep hw
  | codes ht => exact hs.codeStep ht
  | pack => exact ⟨hs.tree, hs.codes⟩
  | unpack => exact ⟨hs.tree, hs.codes⟩
  | tables hn => exact tablesOk_pipeline s (by omega)
  | encode hn =>
    have tables : TablesOk s.encodeTables := tablesOk_pipeline s (by omega)
    exact ⟨tables.tree, tables.codes⟩
  | decode hw =>
    have tables := tablesOk_pipeline s (f := s.containerFreq) (by omega)
    exact ⟨tables.tree, tables.codes⟩

theorem Completion.tablesOk {u t : State} {n : Nat} (h : Completion u n t) (hu : TablesOk u) :
    TablesOk t := by
  cases h <;> exact ⟨hu.tree, hu.codes⟩

theorem tablesOk_busyWrite {s : State} (l : Loc) (v : Word) (h : TablesOk s) :
    TablesOk (s.busyWrite l v) := by
  cases l <;> exact ⟨h.tree, h.codes⟩

/-- A write to FREQ makes the tables stale; no other write reaches them. -/
theorem tablesOk_idleWrite {s : State} (l : Loc) (v : Word) (h : TablesOk s) :
    TablesOk (s.idleWrite l v) := by
  cases l
  case freq c => exact tablesOk_of_stale rfl rfl
  all_goals exact ⟨h.tree, h.codes⟩

/-- Settles O40: what writes FREQ clears the flags or rebuilds the tables. -/
theorem everyStepKeepsTablesOk : Obligations.EveryStepKeepsTablesOk := fun _ _ =>
  step_keeps (P := TablesOk)
    (agents := fun _ _ _ _ _ h => ⟨h.tree, h.codes⟩)
    (busyWrite := fun _ l v _ h => tablesOk_busyWrite l v h)
    (idleWrite := fun _ l v _ _ h => tablesOk_idleWrite l v h)
    (complete := fun _ _ _ _ hrun hc h => hc.tablesOk (hrun.tablesOk h))
    (reset := fun _ _ _ => tablesOk_of_stale rfl rfl)

/-! ### The control state (R29 to R31) -/

theorem Completion.controlOk {s u t : State} {n : Nat} (hrun : RunPhase s u n)
    (hc : Completion u n t) : ControlOk t := by
  obtain ⟨hphase, -, hout, hok, -⟩ := hc.state
  have hn := hrun.outLen_le
  have hcap := bufBytes_le s
  have hp : t.params = s.params := (hrun.sameInputs.trans hc.sameInputs).params
  refine ⟨fun v h => ?_, fun _ => hok, ?_⟩
  · rw [hphase] at h
    cases h
  · rw [hout, hp, BitVec.toNat_ofNat]
    omega

theorem controlOk_busyWrite {s : State} (l : Loc) (v : Word) (h : ControlOk s) :
    ControlOk (s.busyWrite l v) := by
  cases l
  case status =>
    refine ⟨fun w hw => ?_, h.success, h.output⟩
    obtain ⟨hcmd, hdone, herr⟩ := h.pending w hw
    exact ⟨hcmd, by simp [State.busyWrite, hdone], herr⟩
  all_goals exact ⟨h.pending, h.success, h.output⟩

theorem controlOk_idleWrite {s : State} (l : Loc) (v : Word) (hb : s.busy = false)
    (h : ControlOk s) : ControlOk (s.idleWrite l v) := by
  cases l
  case cmd =>
    refine ⟨fun w hw => ?_, fun hw => ?_, h.output⟩
    · cases hw
      exact ⟨rfl, rfl, rfl⟩
    · cases hw
  case status =>
    refine ⟨fun w hw => ?_, h.success, h.output⟩
    rw [busy_eq_true (s := s) hw] at hb
    cases hb
  all_goals exact ⟨h.pending, h.success, h.output⟩

theorem controlOk_hardReset (s : State) (d : Draws) : ControlOk (s.hardReset d) :=
  ⟨nofun, fun _ _ => rfl, Nat.zero_le _⟩

/-- Settles O41: acceptance sets the pending state, and a completion ends it. -/
theorem everyStepKeepsControlOk : Obligations.EveryStepKeepsControlOk := fun _ _ =>
  step_keeps (P := ControlOk)
    (agents := fun _ _ _ _ _ h => ⟨h.pending, h.success, h.output⟩)
    (busyWrite := fun _ l v _ h => controlOk_busyWrite l v h)
    (idleWrite := fun _ l v hb _ h => controlOk_idleWrite l v hb h)
    (complete := fun _ _ _ _ hrun hc _ => hc.controlOk hrun)
    (reset := fun s d _ => controlOk_hardReset s d)

/-! ### What changes the input (R27, R50) -/

theorem busyWrite_input (s : State) (l : Loc) (v : Word) :
    (s.busyWrite l v).ibuf = s.ibuf ∧ (s.busyWrite l v).inLen = s.inLen := by
  cases l <;> exact ⟨rfl, rfl⟩

theorem idleWrite_input (s : State) {l : Loc} (v : Word) (hl : ¬ (l = .inLen ∨ ∃ j, l = .ibuf j)) :
    (s.idleWrite l v).ibuf = s.ibuf ∧ (s.idleWrite l v).inLen = s.inLen := by
  cases l
  case inLen => exact absurd (.inl rfl) hl
  case ibuf j => exact absurd (.inr ⟨j, rfl⟩) hl
  all_goals exact ⟨rfl, rfl⟩

/-- A Host turn that changes the input makes an idle write to it. -/
theorem hostTurn_input {s : State}
    (h : s.hostTurn.ibuf ≠ s.ibuf ∨ s.hostTurn.inLen ≠ s.inLen) :
    s.phase = .idle
      ∧ ∃ l v prog, s.program = wr l v :: prog ∧ (l = .inLen ∨ ∃ j, l = .ibuf j) := by
  cases hp : s.program with
  | nil =>
    rw [hostTurn_of_nil hp] at h
    exact absurd h (by simp)
  | cons st prog =>
    rw [hostTurn_of_cons hp] at h
    obtain he | he | ⟨l, v, ht, hd, -, ⟨-, he⟩ | ⟨hb, he⟩⟩ := hostAccess_cases s st.toAccess
    · exact absurd h (by simp [he])
    · exact absurd h (by simp [he])
    · exact absurd h (by simp [he, busyWrite_input s l v])
    · refine ⟨phase_eq_idle hb, l, v, prog, by rw [stmt_eq_wr ht hd], ?_⟩
      by_contra hl
      exact absurd h (by simp [he, idleWrite_input s v hl])

theorem coreTurn_input {s t : State} (h : s.coreTurn = .next t) :
    t.ibuf = s.ibuf ∧ t.inLen = s.inLen := by
  cases hb : s.busy with
  | true =>
    obtain ⟨u, n, hrun, hc⟩ := coreTurn_completes hb h
    have same := hrun.sameInputs.trans hc.sameInputs
    exact ⟨same.ibuf, same.inLen⟩
  | false =>
    simp only [State.coreTurn, phase_eq_idle hb] at h
    cases h
    exact ⟨rfl, rfl⟩

/-- Settles O45: the Core's turns keep the input, and of the Host's writes two kinds reach it. -/
theorem whatChangesTheInput : Obligations.WhatChangesTheInput := by
  intro s t h hne
  obtain ⟨rest, -, rfl⟩ | ⟨rest, -, hc⟩ | ⟨d, rest, hs, -⟩ | ⟨-, -, hc⟩ | ⟨-, -, rfl⟩ := step_cases h
  · exact .inr (hostTurn_input (s := { s with schedule := rest }) hne)
  · exact absurd hne (by simp [coreTurn_input hc])
  · exact .inl ⟨d, rest, hs⟩
  · exact absurd hne (by simp [coreTurn_input hc])
  · exact .inr (hostTurn_input hne)

/-! ### The interrupt line (R38) -/

theorem ctrlAccess_write (s : State) (w : Word) :
    s.hostAccess { size := .bits32, offset := 0x010, dir := .write w }
      = (s.writeCtrl w, .written) := by
  refine (hostAccess_write s (l := .ctrl) rfl w).trans ?_
  cases h : s.busy <;> simp [State.writeLoc, Loc.readOnly, State.idleWrite, State.busyWrite, h]

/-- Settles O54: a completion sets DONE and keeps IE; the three writes clear DONE or IE. -/
theorem interruptLine : Obligations.InterruptLine := by
  intro s
  obtain ⟨-, -, -, -, -, -, -, hirq⟩ := statusWord_flags s
  refine ⟨rfl, hirq, fun v t hp hie hc => ?_, fun w hw => ?_, fun w hw => ?_, fun w hp => ?_⟩
  · obtain ⟨u, n, hrun, hc⟩ := coreTurn_completes (busy_eq_true hp) hc
    obtain ⟨-, hdone, -⟩ := hc.state
    have same := hrun.sameInputs.trans hc.sameInputs
    simp [State.irq, hdone, same.ie, hie]
  · simp only [statusAccess_write, State.irq, State.writeStatus_done, hw, Bool.not_true,
      Bool.and_false]
  · simp only [ctrlAccess_write, State.irq, State.writeCtrl_ie, hw, Bool.false_and]
  · have access : s.hostAccess { size := .bits32, offset := 0x018, dir := .write w }
        = (s.accept w, .written) := hostAccess_cmd_idle hp w
    simp [access, State.irq]

end Sys2Proof.Machine
end

section
/-! SUPPORT. The Host window (spec/20_memory.md R60, R62, R64, R66, R74): the address map, the bus
errors, the words of the two buffers, and a Host turn while a command runs. -/

namespace Sys2Proof.Machine

/-! ### The address map (R60, R64) -/

/-- Every location is inside the window: with its largest size OBUF ends at the window's end. -/
theorem offset_lt_window {cap : Nat} (hcap : cap ≤ 0x01000000) {l : Loc}
    (h : l.mapped cap = true) : l.offset < 0x03000000 := by
  cases l
  case ibuf j | obuf j =>
    simp only [Loc.mapped, decide_eq_true_eq] at h
    simp only [Loc.offset]
    omega
  all_goals
    simp only [Loc.offset]
    omega

/-- Settles O46: the two directions of the map; each number of R64 is the offset of its location. -/
theorem addressMapRoundTrip : Obligations.AddressMapRoundTrip := by
  intro p
  obtain ⟨-, -, hcap, -⟩ := params_legal p
  have reached {a : Nat} (l : Loc) (h : l.mapped p.bufBytes = true) (ha : l.offset = a) :
      Loc.ofOffset p.bufBytes a = some l := ofOffset_of_eq hcap h ha
  exact ⟨fun l h => ⟨offset_mod_four l, offset_lt_window hcap h, reached l h rfl⟩,
    fun _ _ ha h => ofOffset_eq_some ha h,
    reached .id rfl rfl, reached .bufCap rfl rfl, reached .ctrl rfl rfl, reached .status rfl rfl,
    reached .cmd rfl rfl, reached .inLen rfl rfl, reached .outLen rfl rfl,
    reached .errInfo rfl rfl, reached .symCount rfl rfl, reached .root rfl rfl,
    reached .totalBits rfl rfl, reached .padCount rfl rfl, reached .totalWeight rfl rfl,
    fun c => ⟨reached (.freq c) rfl rfl, reached (.codeLen c) rfl rfl⟩,
    fun c w => reached (.codeBits c w) rfl rfl,
    fun i w => reached (.node i w) rfl rfl,
    fun j hj => ⟨reached (.ibuf j) (decide_eq_true hj) rfl,
      reached (.obuf j) (decide_eq_true hj) rfl⟩⟩

/-! ### Bus errors (R65, R66, R113) -/

theorem readOnly_iff (l : Loc) :
    l.readOnly = true ↔
      l ∈ [Loc.id, .bufCap, .outLen, .errInfo, .symCount, .root, .totalBits, .padCount,
          .totalWeight]
        ∨ (∃ c, l = .codeLen c) ∨ (∃ c w, l = .codeBits c w) ∨ ∃ i w, l = .node i w := by
  cases l <;> simp [Loc.readOnly]

/-- Of the locations only buffer words can be missing, and those are writable. -/
theorem mapped_of_readOnly {l : Loc} (h : l.readOnly = true) (cap : Nat) :
    l.mapped cap = true := by
  cases l
  case ibuf | obuf => cases h
  all_goals rfl

/-- An access reaches the location at its offset, when it is legal in width and alignment. -/
theorem target_eq_some_iff (s : State) (a : Access) (l : Loc) :
    s.target a = some l ↔
      a.size = .bits32 ∧ a.offset = l.offset ∧ l.mapped s.params.bufBytes = true := by
  refine ⟨target_eq_some, fun ⟨hs, ho, hm⟩ => ?_⟩
  obtain ⟨size, offset, dir⟩ := a
  cases hs
  cases ho
  exact target_offset s hm dir

theorem target_eq_none_iff (s : State) (a : Access) :
    s.target a = none ↔
      a.size ≠ .bits32 ∨ a.offset % 4 ≠ 0
        ∨ ∀ l : Loc, l.mapped s.params.bufBytes = true → l.offset ≠ a.offset := by
  constructor
  · intro h
    by_contra hc
    push Not at hc
    obtain ⟨hs, -, l, hm, ho⟩ := hc
    rw [(target_eq_some_iff s a l).2 ⟨hs, ho.symm, hm⟩] at h
    cases h
  · intro h
    by_contra hc
    obtain ⟨l, hl⟩ := Option.ne_none_iff_exists'.1 hc
    obtain ⟨hs, ho, hm⟩ := target_eq_some hl
    obtain h | h | h := h
    · exact h hs
    · exact h (ho ▸ offset_mod_four l)
    · exact h l hm ho.symm

theorem readLoc_ne_busError (s : State) (l : Loc) : (s.readLoc l).2 ≠ .busError := by
  simp only [State.readLoc, State.busyRead]
  split_ifs <;> simp

theorem writeLoc_eq_busError_iff (s : State) (l : Loc) (v : Word) :
    (s.writeLoc l v).2 = .busError ↔ l.readOnly = true := by
  simp only [State.writeLoc]
  split_ifs with hr <;> simp [hr]

/-- The bus answers with an error when nothing is reached, or on a write to a read-only location. -/
theorem hostAccess_eq_busError_iff (s : State) (a : Access) :
    (s.hostAccess a).2 = .busError ↔
      s.target a = none ∨ (a.dir ≠ .read ∧ ∃ l, s.target a = some l ∧ l.readOnly = true) := by
  simp only [State.hostAccess]
  cases ht : s.target a with
  | none => simp
  | some l =>
    cases hd : a.dir with
    | read => simp [readLoc_ne_busError]
    | write v => simp [writeLoc_eq_busError_iff]

/-- A bus error changes no state of HUFC (R66). -/
theorem hostAccess_of_busError {s : State} {a : Access} (h : (s.hostAccess a).2 = .busError) :
    (s.hostAccess a).1 = s := by
  obtain ht | ⟨hd, l, ht, hr⟩ := (hostAccess_eq_busError_iff s a).1 h
  · simp only [State.hostAccess, ht]
  · cases hdir : a.dir with
    | read => exact absurd hdir hd
    | write v => simp only [State.hostAccess, ht, hdir, State.writeLoc, hr, if_true]

/-- A read-only location is mapped, so a legal access reaches it by being at its offset. -/
theorem target_eq_readOnly_iff {s : State} {a : Access} {l : Loc} (h : s.target a ≠ none)
    (hr : l.readOnly = true) : s.target a = some l ↔ l.offset = a.offset := by
  obtain ⟨l', hl'⟩ := Option.ne_none_iff_exists'.1 h
  obtain ⟨hs, -, -⟩ := target_eq_some hl'
  rw [target_eq_some_iff]
  exact ⟨fun ⟨_, ho, _⟩ => ho.symm, fun ho => ⟨hs, ho.symm, mapped_of_readOnly hr _⟩⟩

/-- Settles O47: what is not reached, and what is read-only, are the cases the statement lists. -/
theorem busErrorsExactlyWhenIllegal : Obligations.BusErrorsExactlyWhenIllegal := by
  intro s a
  refine ⟨?_, fun h => ⟨hostAccess_of_busError h, fun prog hp => ?_⟩⟩
  · simp only [← readOnly_iff]
    have at_offset (h : s.target a ≠ none) :
        (a.dir ≠ .read ∧ ∃ l, s.target a = some l ∧ l.readOnly = true)
          ↔ a.dir ≠ .read ∧ ∃ l : Loc, l.offset = a.offset ∧ l.readOnly = true :=
      and_congr_right fun _ => exists_congr fun _ => and_congr_left (target_eq_readOnly_iff h)
    rw [hostAccess_eq_busError_iff, or_congr_right' at_offset, target_eq_none_iff, or_assoc,
      or_assoc]
  · rw [hostTurn_of_cons hp, Stmt.toAccess, h, hostAccess_of_busError h]
    rfl

/-! ### The words of a buffer (R62) -/

theorem wordByte_le32 (b0 b1 b2 b3 : Byte) :
    wordByte (le32 b0 b1 b2 b3) 0 = b0 ∧ wordByte (le32 b0 b1 b2 b3) 1 = b1
      ∧ wordByte (le32 b0 b1 b2 b3) 2 = b2 ∧ wordByte (le32 b0 b1 b2 b3) 3 = b3 := by
  have last {w : Nat} (x : BitVec w) (b : Byte) : (x ++ b).extractLsb' 0 8 = b :=
    (BitVec.extractLsb'_append_eq_of_add_le le_rfl).trans BitVec.extractLsb'_eq_self
  have above {w : Nat} (x : BitVec w) (b : Byte) (k : Nat) :
      (x ++ b).extractLsb' (k + 8) 8 = x.extractLsb' k 8 :=
    BitVec.extractLsb'_append_eq_of_le (Nat.le_add_left 8 k)
  have skip0 (k : Nat) := above (b3 ++ b2 ++ b1) b0 k
  have skip1 (k : Nat) := above (b3 ++ b2) b1 k
  exact ⟨last _ b0, (skip0 0).trans (last _ b1), (skip0 8).trans ((skip1 0).trans (last b3 b2)),
    (skip0 16).trans ((skip1 8).trans ((above b3 b2 0).trans BitVec.extractLsb'_eq_self))⟩

theorem le32_wordByte (v : Word) :
    le32 (wordByte v 0) (wordByte v 1) (wordByte v 2) (wordByte v 3) = v := by
  simp only [wordByte, le32]
  rw [BitVec.extractLsb'_append_extractLsb'_eq_extractLsb' (by rfl),
    BitVec.extractLsb'_append_extractLsb'_eq_extractLsb' (by rfl),
    BitVec.extractLsb'_append_extractLsb'_eq_extractLsb' (by rfl)]
  exact BitVec.extractLsb'_eq_self

/-- Byte i of the word read at offset k is the byte at offset k + i. -/
theorem wordByte_readWord (m : Memory) (k i : Nat) (hi : i < 4) :
    wordByte (Memory.readWord m k) i = Memory.read m (k + i) := by
  obtain ⟨h0, h1, h2, h3⟩ := wordByte_le32 (Memory.read m k) (Memory.read m (k + 1))
    (Memory.read m (k + 2)) (Memory.read m (k + 3))
  interval_cases i
  · exact h0
  · exact h1
  · exact h2
  · exact h3

/-- What a byte reads as after a word is written. -/
theorem Memory.read_writeWord (m : Memory) (k a : Nat) (v : Word) (h : Memory.wf m = true) :
    Memory.read (Memory.writeWord m k v) a
      = if k ≤ a ∧ a < k + 4 then wordByte v (a - k) else Memory.read m a := by
  rw [Memory.writeWord, Memory.read_writeBytes m k _ a h]
  refine if_ctx_congr Iff.rfl (fun ha => ?_) fun _ => rfl
  have hi : a - k < 4 := by omega
  generalize a - k = i at hi
  interval_cases i <;> rfl

theorem Memory.read_writeWord_inside (m : Memory) (k : Nat) (v : Word) (h : Memory.wf m = true)
    {i : Nat} (hi : i < 4) : Memory.read (Memory.writeWord m k v) (k + i) = wordByte v i := by
  rw [Memory.read_writeWord m k _ v h, if_pos (by omega), Nat.add_sub_cancel_left]

theorem Memory.read_writeWord_outside (m : Memory) {k a : Nat} (v : Word)
    (h : Memory.wf m = true) (ha : a < k ∨ k + 4 ≤ a) :
    Memory.read (Memory.writeWord m k v) a = Memory.read m a := by
  rw [Memory.read_writeWord m k a v h, if_neg (by omega)]

theorem Memory.readWord_writeWord (m : Memory) (k : Nat) (v : Word) (h : Memory.wf m = true) :
    Memory.readWord (Memory.writeWord m k v) k = v := by
  have byte {i : Nat} (hi : i < 4) := Memory.read_writeWord_inside m k v h hi
  have first : Memory.read (Memory.writeWord m k v) k = wordByte v 0 := byte (i := 0) (by omega)
  rw [Memory.readWord, first, byte (i := 1) (by omega), byte (i := 2) (by omega),
    byte (i := 3) (by omega), le32_wordByte]

theorem hostAccess_read_idle {s : State} (hp : s.phase = .idle) {l : Loc}
    (h : l.mapped s.params.bufBytes = true) :
    s.hostAccess { size := .bits32, offset := l.offset, dir := .read }
      = (s, .value (s.idleRead l)) := by
  simp [hostAccess_read s h, State.readLoc, busy_eq_false hp]

theorem hostAccess_write_idle {s : State} (hp : s.phase = .idle) {l : Loc}
    (h : l.mapped s.params.bufBytes = true) (hr : l.readOnly = false) (v : Word) :
    s.hostAccess { size := .bits32, offset := l.offset, dir := .write v }
      = (s.idleWrite l v, .written) := by
  simp [hostAccess_write s h, State.writeLoc, busy_eq_false hp, hr]

/-- Settles O50: an idle access to a buffer word is a read or a write of a word of that buffer. -/
theorem bufferWordsAreLittleEndian : Obligations.BufferWordsAreLittleEndian := by
  intro s j v hmem hp hj
  have mapI : (Loc.ibuf j).mapped s.params.bufBytes = true := decide_eq_true hj
  have mapO : (Loc.obuf j).mapped s.params.bufBytes = true := decide_eq_true hj
  have hi := hmem.ibufWf
  have ho := hmem.obufWf
  refine ⟨⟨_, hostAccess_read_idle hp mapI, fun i => wordByte_readWord s.ibuf (4 * j) i⟩,
    ⟨_, hostAccess_read_idle hp mapO, fun i => wordByte_readWord s.obuf (4 * j) i⟩,
    ⟨s.idleWrite (.ibuf j) v, hostAccess_write_idle hp mapI rfl v, rfl,
      fun i => Memory.read_writeWord_inside s.ibuf (4 * j) v hi,
      fun a => Memory.read_writeWord_outside s.ibuf v hi, ?_⟩,
    ⟨s.idleWrite (.obuf j) v, hostAccess_write_idle hp mapO rfl v, rfl,
      fun i => Memory.read_writeWord_inside s.obuf (4 * j) v ho,
      fun a => Memory.read_writeWord_outside s.obuf v ho, ?_⟩⟩
  · refine (hostAccess_read_idle (s := s.idleWrite (.ibuf j) v) hp mapI).trans ?_
    simp only [State.idleRead, State.idleWrite, Memory.readWord_writeWord _ _ _ hi]
  · refine (hostAccess_read_idle (s := s.idleWrite (.obuf j) v) hp mapO).trans ?_
    simp only [State.idleRead, State.idleWrite, Memory.readWord_writeWord _ _ _ ho]

/-! ### Host turns while BUSY (R74, R118) -/

/-- A write while BUSY reaches CTRL.IE, DONE and the sticky flags only. -/
theorem busyWrite_frame (s : State) (l : Loc) (v : Word) :
    s.busyWrite l v = { s with
      ie := (s.busyWrite l v).ie, done := (s.busyWrite l v).done
      cmdOvr := (s.busyWrite l v).cmdOvr, accErr := (s.busyWrite l v).accErr } := by
  cases l <;> rfl

/-- An access while BUSY reaches these flags and the count of draws only. -/
theorem hostAccess_busy_frame {s : State} (hb : s.busy = true) (a : Access) :
    (s.hostAccess a).1 = { s with
      ie := (s.hostAccess a).1.ie, done := (s.hostAccess a).1.done
      cmdOvr := (s.hostAccess a).1.cmdOvr, accErr := (s.hostAccess a).1.accErr
      draws := (s.hostAccess a).1.draws } := by
  obtain h | h | ⟨l, v, -, -, -, ⟨-, h⟩ | ⟨hi, -⟩⟩ := hostAccess_cases s a
  · rw [h]
  · rw [h]
  · rw [h, busyWrite_frame s l v]
  · rw [hb] at hi
    cases hi

/-- Settles O8: of HUFC a Host turn changes what its access changes, and that is framed. -/
theorem hostCannotDisturbARunningCommand : Obligations.HostCannotDisturbARunningCommand := by
  intro s v hp
  cases hprog : s.program with
  | nil => rw [hostTurn_of_nil hprog]
  | cons st prog =>
    rw [hostTurn_of_cons hprog, hostAccess_busy_frame (busy_eq_true hp) st.toAccess]

end Sys2Proof.Machine
end

section
/-! SUPPORT. Decoding a command word (spec/30_encoding.md R90, R91, R93, R94)

The opcode map is inverse to `opcode`, and a word is its two fields, so `decode` has an equation for
each of the three kinds of word and agrees with `encode`. -/

namespace Sys2Proof

/-! ### The opcode map (R90) -/

theorem instrOfOpcode_eq_some_iff (op : Byte) (i : Instr) :
    instrOfOpcode op = some i ↔ op = opcode i := by
  constructor
  · intro h
    unfold instrOfOpcode at h
    split at h <;> cases h
    all_goals
      next toNat_eq => exact BitVec.eq_of_toNat_eq toNat_eq
  · rintro rfl
    cases i <;> rfl

/-- Exactly the opcodes above 0x08 are reserved (R94). -/
theorem instrOfOpcode_eq_none_iff (op : Byte) : instrOfOpcode op = none ↔ 0x08 < op.toNat := by
  unfold instrOfOpcode
  split <;> simp only [reduceCtorEq, false_iff, true_iff, imp_false] at * <;> omega

/-! ### The two fields of a word (R91) -/

theorem word_eq_fields (v : Word) : v = rsvdField v ++ opcodeField v :=
  ((BitVec.extractLsb'_append_extractLsb'_eq_extractLsb' (start₁ := 0) (len₁ := 8) (len₂ := 24)
    rfl).trans BitVec.extractLsb'_eq_self).symm

theorem eq_encode_iff (i : Instr) (v : Word) :
    v = encode i ↔ rsvdField v = 0#24 ∧ opcodeField v = opcode i := by
  constructor
  · rintro rfl
    exact ⟨BitVec.extractLsb'_append_eq_left, BitVec.extractLsb'_append_eq_right⟩
  · rintro ⟨hr, ho⟩
    rw [word_eq_fields v, hr, ho, encode]

/-! ### The three kinds of word (R93) -/

theorem decode_of_reservedBits {v : Word} (hr : rsvdField v ≠ 0#24) :
    decode v = .error (.reservedBits (rsvdField v)) :=
  if_pos hr

theorem decode_of_reservedOpcode {v : Word} (hr : rsvdField v = 0#24)
    (ho : 0x08 < (opcodeField v).toNat) : decode v = .error (.reservedOpcode (opcodeField v)) := by
  simp [decode, hr, (instrOfOpcode_eq_none_iff _).mpr ho]

theorem decode_eq_ok_iff (v : Word) (i : Instr) :
    decode v = .ok i ↔ rsvdField v = 0#24 ∧ opcodeField v = opcode i := by
  rw [← instrOfOpcode_eq_some_iff, decode]
  by_cases hr : rsvdField v = 0#24
  · cases instrOfOpcode (opcodeField v) <;> simp [hr]
  · simp [hr]

theorem exists_opcode_of_le {op : Byte} (ho : op.toNat ≤ 0x08) : ∃ i, opcode i = op := by
  cases hi : instrOfOpcode op with
  | some i => exact ⟨i, ((instrOfOpcode_eq_some_iff op i).mp hi).symm⟩
  | none => exact absurd ((instrOfOpcode_eq_none_iff op).mp hi) (Nat.not_lt.mpr ho)

theorem decode_encode (i : Instr) : decode (encode i) = .ok i :=
  (decode_eq_ok_iff _ i).mpr ((eq_encode_iff i _).mp rfl)

/-- Settles O2: both sides say that RSVD is 0 and OPCODE is the command's. -/
theorem decodeAndEncodeAgree : Obligations.DecodeAndEncodeAgree := fun i v =>
  (decode_eq_ok_iff v i).trans (eq_encode_iff i v).symm

/-- Settles O1: the nine words are the commands' own, and the other four are one of the two illegal
kinds. -/
theorem opcodeMapDecodes : Obligations.OpcodeMapDecodes :=
  ⟨decode_encode .nop, decode_encode .clear, decode_encode .freqCount, decode_encode .treeBuild,
    decode_encode .codeGen, decode_encode .pack, decode_encode .unpack, decode_encode .encode,
    decode_encode .decode, decode_of_reservedOpcode rfl (by decide),
    decode_of_reservedOpcode rfl (by decide), decode_of_reservedBits (by decide),
    decode_of_reservedBits (by decide)⟩

end Sys2Proof
end

section
/-! SUPPORT. Illegal words and the end of a `wait` (spec/30_encoding.md R93, R94, R97,
spec/70_reset_and_hazards.md R281)

A Host turn at a `wait` is one poll of STATUS, and a Core turn while BUSY completes. -/

namespace Sys2Proof.Machine

/-! ### Turns the schedule names -/

theorem step_of_host {s : State} {rest : List Turn} (h : s.schedule = .host :: rest) :
    step s = .next { s with schedule := rest }.hostTurn := by
  simp only [step, State.takeTurn, h]

theorem step_of_core {s : State} {rest : List Turn} (h : s.schedule = .core :: rest) :
    step s = State.coreTurn { s with schedule := rest } := by
  simp only [step, State.takeTurn, h]

theorem core_run_succ {M : Host.Core} {s t : M.State} (h : M.step s = .next t) (k : Nat) :
    M.run (k + 1) s = M.run k t := by
  rw [Host.Core.run, h]

theorem run_succ_of_step {s t : State} (h : step s = .next t) (k : Nat) :
    Host.Core.run core (k + 1) s = Host.Core.run core k t :=
  core_run_succ (M := core) h k

/-! ### The completion of an illegal word (R93) -/

/-- VALUE holds any field of at most 28 bits exactly: it does not saturate (R29). -/
theorem ofNat_min_toNat_eq_zeroExtend {n : Nat} (hn : n ≤ 28) (x : BitVec n) :
    BitVec.ofNat 28 (min x.toNat (2 ^ 28 - 1)) = x.zeroExtend 28 := by
  have le_max : x.toNat ≤ 2 ^ 28 - 1 :=
    Nat.le_sub_one_of_lt (x.isLt.trans_le (Nat.pow_le_pow_right (by decide) hn))
  rw [Nat.min_eq_left le_max, BitVec.ofNat_toNat]

theorem raise_reservedBits (s : State) (r : BitVec 24) :
    s.raise 0 (badCommand (.reservedBits r))
      = s.completed 0#32 .badCmd { reason := 2#4, value := r.zeroExtend 28 } := by
  rw [← ofNat_min_toNat_eq_zeroExtend (by decide)]
  rfl

theorem raise_reservedOpcode (s : State) (op : Byte) :
    s.raise 0 (badCommand (.reservedOpcode op))
      = s.completed 0#32 .badCmd { reason := 1#4, value := op.zeroExtend 28 } := by
  rw [← ofNat_min_toNat_eq_zeroExtend (by decide)]
  rfl

theorem coreTurn_of_error {s : State} {v : Word} {e : DecodeError} (hp : s.phase = .busy v)
    (hd : decode v = .error e) : s.coreTurn = .next (s.raise 0 (badCommand e)) := by
  simp only [State.coreTurn, hp, execWord, hd]

/-- Settles O3: the Host's turn is the acceptance of R31, and the Core's turn decodes PEND to one of
the two errors of R93 or to a command, which it runs. -/
theorem illegalWordCompletesWithBadCmd : Obligations.IllegalWordCompletesWithBadCmd := by
  intro s v prog rest hp hprog hs
  refine ⟨_, (cmdWriteAcceptsCommand s v prog (.core :: rest) hp).1 hprog hs, rfl, rfl,
    fun hr => ?_, fun hr ho => ?_, fun hr ho => ?_⟩
  · rw [step_of_core rfl, coreTurn_of_error rfl (decode_of_reservedBits hr), raise_reservedBits]
    rfl
  · rw [step_of_core rfl, coreTurn_of_error rfl (decode_of_reservedOpcode hr ho),
      raise_reservedOpcode]
    rfl
  · obtain ⟨i, hi⟩ := exists_opcode_of_le ho
    have hd : decode v = .ok i := (decode_eq_ok_iff v i).mpr ⟨hr, hi.symm⟩
    exact ⟨i, hi, (stepRunsDecodedCommand _ v i rfl hd).1 rest rfl⟩

/-! ### The end of a `wait` (R97) -/

/-- One poll: bit 0 of the STATUS it reads is BUSY, so the Host stays exactly while BUSY. -/
theorem hostTurn_waitIdle {s : State} {prog : List Stmt} (h : s.program = .waitIdle :: prog) :
    s.hostTurn = { s with
      program := if s.busy then .waitIdle :: prog else prog
      replies := .value s.statusWord :: s.replies } := by
  have poll : s.hostAccess Stmt.waitIdle.toAccess = (s, .value s.statusWord) := statusAccess_read s
  obtain ⟨busyBit, -⟩ := statusWord_flags s
  rw [hostTurn_of_cons h, poll]
  simp only [continueAfter, busyBit, true_and]

/-- A pending word, legal or not, completes, and the agents' inputs stand (R31, R93). -/
theorem coreTurn_of_busy {s : State} {v : Word} (hp : s.phase = .busy v) :
    ∃ t, s.coreTurn = .next t ∧ t.phase = .idle ∧ t.program = s.program
      ∧ t.schedule = s.schedule := by
  obtain ⟨t, ht⟩ : ∃ t, s.coreTurn = .next t := by
    cases hd : decode v with
    | ok i => exact ⟨after i s, by simp only [State.coreTurn, hp, execWord, hd, exec_eq_next]⟩
    | error e => exact ⟨_, coreTurn_of_error hp hd⟩
  obtain ⟨u, n, hrun, hc⟩ := coreTurn_completes (busy_eq_true hp) ht
  have same := hrun.sameInputs.trans hc.sameInputs
  exact ⟨t, ht, hc.state.1, same.program, same.schedule⟩

/-- The last two turns: the Core completes, and the next poll finds it IDLE. -/
theorem wait_ends_after_core_turn {s : State} {v : Word} {prog : List Stmt} {rest : List Turn}
    (hp : s.phase = .busy v) (hprog : s.program = .waitIdle :: prog)
    (hs : s.schedule = .core :: .host :: rest) :
    ∃ t, Host.Core.run core 2 s = .next t ∧ t.program = prog ∧ t.phase = .idle
      ∧ t.schedule = rest := by
  obtain ⟨t, ht, hidle, htprog, hts⟩ :=
    coreTurn_of_busy (s := { s with schedule := .host :: rest }) hp
  have poll := hostTurn_waitIdle (s := { t with schedule := rest }) (htprog.trans hprog)
  have notBusy : State.busy { t with schedule := rest } = false := busy_eq_false hidle
  rw [run_succ_of_step ((step_of_core hs).trans ht), run_succ_of_step (step_of_host hts), poll]
  exact ⟨_, rfl, by simp [notBusy], hidle, rfl⟩

/-- Settles O7, by induction on the number of polls before the Core's turn: each leaves the machine
BUSY and the Host at its `wait`. -/
theorem waitEndsOnceTheCoreMoves : Obligations.WaitEndsOnceTheCoreMoves := by
  intro k
  induction k with
  | zero => exact fun s v prog rest => wait_ends_after_core_turn
  | succ k ih =>
    intro s v prog rest hp hprog hs
    rw [List.replicate_succ, List.cons_append] at hs
    have poll := hostTurn_waitIdle (s := { s with
      schedule := List.replicate k .host ++ .core :: .host :: rest }) hprog
    rw [run_succ_of_step (step_of_host hs), poll]
    refine ih _ v prog rest hp ?_ rfl
    exact if_pos (busy_eq_true hp)

end Sys2Proof.Machine
end

section
/-! SUPPORT. Registers and tables on the bus (spec/40_host_interface.md R111 to R118): the numbers
their words hold, and writes in each phase. -/

namespace Sys2Proof.Machine

/-! ### The numbers the words hold (R111) -/

theorem toNat_append_eq_add {m n : Nat} (x : BitVec m) (y : BitVec n) :
    (x ++ y).toNat = x.toNat * 2 ^ n + y.toNat := by
  rw [BitVec.toNat_append, ← Nat.shiftLeft_add_eq_or_of_lt y.isLt, Nat.shiftLeft_eq]

/-- IE in bit 0 (R24). -/
theorem toNat_ctrlWord (s : State) : s.ctrlWord.toNat = s.ie.toNat := by
  simp only [State.ctrlWord, toNat_append_eq_add, BitVec.toNat_ofBool, BitVec.toNat_ofNat]
  omega

/-- REASON above the 28 bits of VALUE (R29). -/
theorem ErrInfo.toNat_word (e : ErrInfo) :
    e.word.toNat = e.reason.toNat * 2 ^ 28 + e.value.toNat :=
  toNat_append_eq_add e.reason e.value

/-- VALID in bit 31 and INDEX from bit 0 (R33). -/
theorem Root.toNat_word (r : Root) :
    r.word.toNat = r.valid.toNat * 2 ^ 31 + r.index.toNat := by
  simp only [Root.word, toNat_append_eq_add, BitVec.toNat_ofBool, BitVec.toNat_ofNat]
  omega

/-- VALID in bit 31, INTERNAL in bit 30, RIGHT, LEFT and SYMBOL from bits 18, 9 and 0 (R45). -/
theorem Node.toNat_word1 (n : Node) :
    n.word1.toNat = n.valid.toNat * 2 ^ 31 + n.internal.toNat * 2 ^ 30 + n.right.toNat * 2 ^ 18
      + n.left.toNat * 2 ^ 9 + n.symbol.toNat := by
  simp only [Node.word1, toNat_append_eq_add, BitVec.toNat_ofBool, BitVec.toNat_ofNat]
  omega

/-- BUF_CAP's 32 bits hold the largest buffer size exactly (R7, R23). -/
theorem toNat_bufCapWord (s : State) : (s.idleRead .bufCap).toNat = s.params.bufBytes := by
  obtain ⟨-, -, le_max, -⟩ := params_legal s.params
  exact Nat.mod_eq_of_lt (by omega)

/-- Bit k of a CODE_BITS number is bit k mod 32 of its word k div 32 (R42). -/
theorem getLsbD_codeBitsWord (bits : BitVec 256) {k : Nat} (hk : k < 256) :
    bits.getLsbD k = (codeBitsWord bits (BitVec.ofNat 3 (k / 32)).toNat).getLsbD (k % 32) := by
  have word : (BitVec.ofNat 3 (k / 32)).toNat = k / 32 := Nat.mod_eq_of_lt (by omega)
  have bit : k % 32 < 32 := Nat.mod_lt k (by decide)
  simp only [word, codeBitsWord, BitVec.getLsbD_extractLsb', bit, decide_true, Bool.true_and,
    Nat.div_add_mod]

/-- Settles O49: an idle read answers `idleRead`, whose words are the fields composed. -/
theorem idleReadsReturnTheRegisters : Obligations.IdleReadsReturnTheRegisters := by
  intro s hp
  exact ⟨fun l => hostAccess_read_idle hp, rfl, toNat_bufCapWord s, toNat_ctrlWord s, rfl, rfl, rfl,
    s.errInfo.toNat_word, BitVec.toNat_setWidth_of_le (by decide), s.root.toNat_word, rfl,
    BitVec.toNat_setWidth_of_le (by decide), rfl,
    fun c => ⟨rfl, BitVec.toNat_setWidth_of_le (by decide)⟩,
    fun c _ => getLsbD_codeBitsWord (s.codeBits.bySymbol c),
    fun i => ⟨rfl, (s.node.at i.val i.isLt).toNat_word1⟩⟩

/-! ### Writes (R114 to R118) -/

theorem hostAccess_write_busy {s : State} {p : Word} (hp : s.phase = .busy p) {l : Loc}
    (h : l.mapped s.params.bufBytes = true) (hr : l.readOnly = false) (v : Word) :
    s.hostAccess { size := .bits32, offset := l.offset, dir := .write v }
      = (s.busyWrite l v, .written) := by
  simp [hostAccess_write s h, State.writeLoc, busy_eq_true hp, hr]

/-- Settles O51: a FREQ write sets one entry and clears both flags. -/
theorem hostWritesCtrlInLenAndFreq : Obligations.HostWritesCtrlInLenAndFreq := by
  intro s v c
  refine ⟨ctrlAccess_write s v, fun hp => ?_, fun hp => ⟨s.idleWrite (.freq c) v, ?_, rfl, ?_, ?_⟩⟩
  · exact hostAccess_write_idle (l := .inLen) hp rfl rfl v
  · exact hostAccess_write_idle (l := .freq c) hp rfl rfl v
  · exact Table.bySymbol_set_same s.freq c v
  · exact fun d hd => Table.bySymbol_set_other s.freq v hd.symm

/-- Settles O52: each location named is writable, and `busyWrite` has a case for it. -/
theorem busyWritesAreDropped : Obligations.BusyWritesAreDropped := by
  intro s p v l hp hm
  have dropped (hr : l.readOnly = false) := hostAccess_write_busy hp hm hr v
  refine ⟨?cmd, ?inputs, ?ctrl, ?status⟩
  case inputs =>
    rintro (rfl | ⟨c, rfl⟩ | ⟨j, rfl⟩ | ⟨j, rfl⟩)
    all_goals exact dropped rfl
  all_goals
    rintro rfl
    exact dropped rfl

end Sys2Proof.Machine
end

section
/-! SUPPORT. NOP and CLEAR (spec/40_host_interface.md R121, R122), and the tree of an empty frequency
table (spec/42_tree_builder.md R157). -/

namespace Sys2Proof.Machine

/-! ### NOP (R121) -/

/-- An illegal word completes with an error of R93. -/
theorem execWord_of_error {v : Word} {e : DecodeError} (hd : decode v = .error e) (s : State) :
    execWord v s = .next (s.raise 0 (badCommand e)) := by
  rw [execWord, hd]

/-- STATUS after a success with IE = 1 and the other flags 0: IRQ and DONE (R25). -/
theorem statusWord_succeed {s : State} (n : Nat) (hie : s.ie = true) (ht : s.treeValid = false)
    (hc : s.codeValid = false) (ho : s.cmdOvr = false) (ha : s.accErr = false) :
    (s.succeed n).statusWord = 0x00000082#32 := by
  simp [State.statusWord, State.irq, State.err, State.busy, ErrCode.number, hie, ht, hc, ho, ha]

/-- Settles O11: NOP is the completion step alone. -/
theorem nopCompletesWithNoEffect : Obligations.NopCompletesWithNoEffect := by
  refine ⟨fun s => rfl, fun s v _ hr => ?_, fun s v hp => ?_, fun s t hie ht hc ho ha h => ?_⟩
  · exact ⟨_, execWord_of_error (decode_of_reservedBits hr) s, rfl, rfl⟩
  · exact hostAccess_write_busy (l := .cmd) hp rfl rfl _
  · cases h
    exact ⟨statusWord_succeed 0 hie ht hc ho ha, by simp [State.irq, hie]⟩

/-! ### The tree of an empty frequency table (R157) -/

theorem weightSum_eq_zero {f : Table Word 256} (h : ∀ c, f.bySymbol c = 0#32) :
    weightSum f = 0 := by
  simp [weightSum_eq_sumSymbols, sumSymbols, h]

theorem alphabetSize_eq_zero {f : Table Word 256} (h : ∀ c, f.bySymbol c = 0#32) :
    alphabetSize f = 0 := by
  simp [alphabetSize_eq, alphabet, h]

theorem exec_treeBuild_of_weightSum_le {s : State} (h : weightSum s.freq ≤ 0xFFFFFFFF) :
    exec .treeBuild s = .next (s.treeStep.succeed 0) := by
  simp only [exec, execTreeBuild, (weightCheck_eq_none s).mpr h]

theorem exec_treeBuild_of_empty {s : State} (h : ∀ c, s.freq.bySymbol c = 0#32) :
    ∃ u, exec .treeBuild s = .next u ∧ u.errCode = .noError ∧ u.root.valid = false
      ∧ u.symCount = 0#9 := by
  refine ⟨_, exec_treeBuild_of_weightSum_le (by simp [weightSum_eq_zero h]), rfl, ?_, ?_⟩
  · simp [alphabetSize_eq_zero h, rootOf]
  · simp [alphabetSize_eq_zero h]

/-! ### CLEAR (R122) -/

/-- "A node that does not exist has both words 0" (R45). -/
theorem Node.word1_absent : Node.absent.word1 = 0#32 := by decide

theorem Root.word_none : Root.word { valid := false, index := 0#9 } = 0#32 := by decide

theorem ErrInfo.word_noInfo : noInfo.word = 0#32 := by decide

/-- Every table word reads 0 after CLEAR's run phase and completion. -/
theorem idleRead_clearTables (s : State) (n : Nat) :
    (∀ c w, (s.clearTables.succeed n).idleRead (.freq c) = 0#32
        ∧ (s.clearTables.succeed n).idleRead (.codeLen c) = 0#32
        ∧ (s.clearTables.succeed n).idleRead (.codeBits c w) = 0#32)
      ∧ ∀ i w, (s.clearTables.succeed n).idleRead (.node i w) = 0#32 := by
  refine ⟨fun c w => ⟨?_, ?_, ?_⟩, fun i w => ?_⟩
  · simp [State.idleRead, State.freqOf]
  · simp [State.idleRead]
  · simp [State.idleRead, codeBitsWord]
  · simp only [State.idleRead, State.succeed_node, State.clearTables_node, Table.at_fill,
      Node.word1_absent]
    exact ite_self _

theorem idleRead_clearTables_results (s : State) :
    ∀ l ∈ [Loc.symCount, .root, .totalWeight, .totalBits, .padCount, .outLen, .errInfo],
      (s.clearTables.succeed 0).idleRead l = 0#32 := by
  simp only [List.forall_mem_cons, List.not_mem_nil, false_imp_iff, implies_true, and_true]
  exact ⟨rfl, Root.word_none, rfl, rfl, rfl, rfl, ErrInfo.word_noInfo⟩

/-- Settles O12: the cleared tables, and the tree a cleared FREQ gives. -/
theorem clearZeroesTablesAndResults : Obligations.ClearZeroesTablesAndResults := by
  intro s
  obtain ⟨tables, nodes⟩ := idleRead_clearTables s 0
  exact ⟨s.clearTables.succeed 0, rfl, rfl, tables, nodes, idleRead_clearTables_results s,
    exec_treeBuild_of_empty fun c => Table.bySymbol_fill 0#32 c⟩

end Sys2Proof.Machine
end

section
/-! SUPPORT. FREQ: what FREQ_COUNT writes to it (spec/41_frequency_model.md R140, R141), and what
changes it at all (R142, spec/10_state.md R37, spec/30_encoding.md R92). -/

namespace Sys2Proof.Machine

/-! ### FREQ_COUNT (R140, R141) -/

/-- An occurrence in the input is an offset that holds the symbol. -/
theorem count_inputBytes (s : State) (c : Byte) :
    s.inputBytes.count c
      = ((List.range s.inputLen).filter fun k => s.inByte k = c).length := by
  rw [State.inputBytes, Memory.readBytes, ← List.range_eq_range', List.count, List.countP_map,
    List.countP_eq_length_filter]
  rfl

/-- No count overflows its word: the input is no longer than IN_LEN, a word, says (R27). -/
theorem toNat_bySymbol_freqTable (s : State) (c : Byte) :
    ((freqTable s.inputBytes).bySymbol c).toNat = s.inputBytes.count c := by
  have hcount : s.inputBytes.count c ≤ s.inputLen := length_inputBytes s ▸ List.count_le_length
  have hword : s.inputLen < 2 ^ 32 := s.inLen.isLt
  rw [freqTable, Table.bySymbol_ofSymbols, BitVec.toNat_ofNat, Nat.mod_eq_of_lt (by omega)]

theorem rangeCheck_of_lt {s : State} (h : s.params.bufBytes < s.inputLen) :
    s.rangeCheck = some (inLenTooLarge s.inputLen) :=
  if_pos h

theorem exec_freqCount_of_le {s : State} (h : s.inputLen ≤ s.params.bufBytes) :
    exec .freqCount s = .next ((s.loadFreq (freqTable s.inputBytes)).succeed 0) := by
  simp only [exec, execFreqCount, (rangeCheck_eq_none s).mpr h]

theorem exec_freqCount_of_lt {s : State} (h : s.params.bufBytes < s.inputLen) :
    exec .freqCount s = .next (s.raise 0 (inLenTooLarge s.inputLen)) := by
  simp only [exec, execFreqCount, rangeCheck_of_lt h]

/-- Settles O13: the loaded table holds the counts of the input bytes. -/
theorem freqCountCountsEverySymbol : Obligations.FreqCountCountsEverySymbol := by
  intro s
  refine ⟨fun h => ⟨_, exec_freqCount_of_le h, rfl, fun c => ?_⟩, exec_freqCount_of_lt⟩
  exact (toNat_bySymbol_freqTable s c).trans (count_inputBytes s c)

/-! ### What changes FREQ (R37, R92, R142) -/

theorem finishWalk_freq_flags (s : State) (r : WalkResult) :
    (s.finishWalk r).freq = s.freq ∧ (s.finishWalk r).treeValid = s.treeValid
      ∧ (s.finishWalk r).codeValid = s.codeValid := by
  rw [finishWalk_eq]
  cases r.error <;> exact ⟨rfl, rfl, rfl⟩

/-- A command keeps FREQ, writes it with the tables left stale, or writes it and rebuilds them. -/
theorem exec_freq_cases {i : Instr} {s t : State} (h : exec i s = .next t) :
    t.freq = s.freq
      ∨ (t.treeValid = false ∧ t.codeValid = false ∧ (i = .clear ∨ i = .freqCount))
      ∨ (t.treeValid = true ∧ t.codeValid = true ∧ (i = .encode ∨ i = .decode)) := by
  cases i <;> simp only [exec] at h
  case nop =>
    cases h
    exact .inl rfl
  case clear =>
    cases h
    exact .inr (.inl ⟨rfl, rfl, .inl rfl⟩)
  case freqCount =>
    rw [execFreqCount] at h
    split at h <;> cases h
    · exact .inl rfl
    · exact .inr (.inl ⟨rfl, rfl, .inr rfl⟩)
  case treeBuild =>
    rw [execTreeBuild] at h
    split at h <;> cases h <;> exact .inl rfl
  case codeGen =>
    rw [execCodeGen] at h
    split at h <;> cases h <;> exact .inl rfl
  case pack =>
    rw [execPack] at h
    split at h <;> cases h <;> exact .inl rfl
  case unpack =>
    rw [execUnpack] at h
    split at h <;> cases h
    · exact .inl rfl
    · exact .inl (finishWalk_freq_flags s.unpackReady _).1
  case encode =>
    rw [execEncode] at h
    split at h
    · cases h
      exact .inl rfl
    · split at h <;> cases h <;> exact .inr (.inr ⟨rfl, rfl, .inl rfl⟩)
  case decode =>
    rw [execDecode] at h
    split at h <;> cases h
    · exact .inl rfl
    · obtain ⟨-, htree, hcode⟩ := finishWalk_freq_flags s.decodeReady
        (s.decodeReady.decodeStream (some (weightSum s.containerFreq))
          (s.payloadStream 1024 (s.inputLen - 1025)))
      exact .inr (.inr ⟨htree, hcode, .inr rfl⟩)

/-- A Core turn that changes FREQ completes one of four commands. -/
theorem coreTurn_freq {s t : State} (h : s.coreTurn = .next t) (hne : t.freq ≠ s.freq) :
    (t.treeValid = false ∧ t.codeValid = false
        ∧ (s.phase = .busy (encode .clear) ∨ s.phase = .busy (encode .freqCount)))
      ∨ (t.treeValid = true ∧ t.codeValid = true
        ∧ (s.phase = .busy (encode .encode) ∨ s.phase = .busy (encode .decode))) := by
  obtain ⟨-, rfl⟩ | ⟨v, i, hp, hd, hx⟩ | ⟨v, e, -, -, rfl⟩ := coreTurn_cases h
  · exact absurd rfl hne
  · obtain rfl := (decodeAndEncodeAgree i v).mp hd
    have pending (j : Instr) (hj : i = j) : s.phase = .busy (encode j) := hj ▸ hp
    obtain hkeep | ⟨ht, hc, hi⟩ | ⟨ht, hc, hi⟩ := exec_freq_cases hx
    · exact absurd hkeep hne
    · exact .inl ⟨ht, hc, hi.imp (pending _) (pending _)⟩
    · exact .inr ⟨ht, hc, hi.imp (pending _) (pending _)⟩
  · exact absurd rfl hne

theorem busyWrite_freq (s : State) (l : Loc) (v : Word) : (s.busyWrite l v).freq = s.freq := by
  cases l <;> rfl

theorem idleWrite_freq_cases (s : State) (l : Loc) (v : Word) :
    (s.idleWrite l v).freq = s.freq
      ∨ ((s.idleWrite l v).treeValid = false ∧ (s.idleWrite l v).codeValid = false
        ∧ ∃ c, l = .freq c) := by
  cases l
  case freq c => exact .inr ⟨rfl, rfl, c, rfl⟩
  all_goals exact .inl rfl

/-- A Host turn that changes FREQ makes an idle write to it, and the tables become stale. -/
theorem hostTurn_freq {s : State} (hne : s.hostTurn.freq ≠ s.freq) :
    s.hostTurn.treeValid = false ∧ s.hostTurn.codeValid = false
      ∧ s.phase = .idle ∧ ∃ c v prog, s.program = wr (.freq c) v :: prog := by
  cases hp : s.program with
  | nil =>
    rw [hostTurn_of_nil hp] at hne
    exact absurd rfl hne
  | cons st prog =>
    rw [hostTurn_of_cons hp] at hne ⊢
    obtain he | he | ⟨l, v, ht, hd, -, ⟨-, he⟩ | ⟨hb, he⟩⟩ := hostAccess_cases s st.toAccess
    · exact absurd (by rw [he]) hne
    · exact absurd (by rw [he]) hne
    · exact absurd (by rw [he]; exact busyWrite_freq s l v) hne
    · obtain hkeep | ⟨htree, hcode, c, rfl⟩ := idleWrite_freq_cases s l v
      · exact absurd (by rw [he]; exact hkeep) hne
      · rw [he]
        exact ⟨htree, hcode, phase_eq_idle hb, c, v, prog, by rw [stmt_eq_wr ht hd]⟩

/-- Settles O44: the turns of `step_cases`, each by its own lemma. -/
theorem whatChangesFreq : Obligations.WhatChangesFreq := by
  intro s t h hne
  obtain ⟨rest, -, rfl⟩ | ⟨rest, -, hc⟩ | ⟨d, rest, hs, rfl⟩ | ⟨-, -, hc⟩ | ⟨-, -, rfl⟩ :=
    step_cases h
  · obtain ⟨ht, hc, hw⟩ := hostTurn_freq (s := { s with schedule := rest }) hne
    exact .inl ⟨ht, hc, .inr (.inl hw)⟩
  · exact (coreTurn_freq hc hne).imp_left fun ⟨ht, hc, hp⟩ => ⟨ht, hc, .inr (.inr hp)⟩
  · exact .inl ⟨rfl, rfl, .inl ⟨d, rest, hs⟩⟩
  · exact (coreTurn_freq hc hne).imp_left fun ⟨ht, hc, hp⟩ => ⟨ht, hc, .inr (.inr hp)⟩
  · obtain ⟨ht, hc, hw⟩ := hostTurn_freq hne
    exact .inl ⟨ht, hc, .inr (.inl hw)⟩

end Sys2Proof.Machine
end

section
/-! SUPPORT. Which nodes each merge takes (spec/42_tree_builder.md R152, R155)

The collection holds exactly the nodes that no merge has used, each under its weight and index, so
"first in the collection" and "before every other unused node" say the same. -/

namespace Sys2Proof.Machine

/-! ### Used nodes and the order of an arena that grows -/

theorem usedBefore_iff (nodes : List TreeNode) (k i : Nat) :
    UsedBefore nodes k i ↔ ∃ j < k, ∃ h : j < nodes.length, i ∈ nodes[j].children := by
  simp only [UsedBefore, parent_iff]

theorem usedBefore_length_iff (nodes : List TreeNode) (i : Nat) :
    UsedBefore nodes nodes.length i ↔ i ∈ nodes.flatMap TreeNode.children := by
  rw [usedBefore_iff, mem_flatMap_children]
  exact ⟨fun ⟨j, _, h⟩ => ⟨j, h⟩, fun ⟨j, hj, h⟩ => ⟨j, hj, hj, h⟩⟩

theorem usedBefore_append_iff {nodes : List TreeNode} (n : TreeNode) {k : Nat} (i : Nat)
    (hk : k ≤ nodes.length) : UsedBefore (nodes ++ [n]) k i ↔ UsedBefore nodes k i := by
  refine exists_congr fun j => and_congr_right fun hj => ?_
  rw [List.getElem?_append_left (by omega)]

theorem before_append_iff {nodes : List TreeNode} (n : TreeNode) {i j : Nat}
    (hi : i < nodes.length) (hj : j < nodes.length) :
    Before (nodes ++ [n]) i j ↔ Before nodes i j := by
  rw [Before, weightAt_append_left nodes n hi, weightAt_append_left nodes n hj, Before]

/-! ### The collection is the unused nodes -/

theorem MergeInv.unused_iff {W : Nat} {nodes : List TreeNode} {active : List Key}
    (h : MergeInv W nodes active) {i : Nat} (hi : i < nodes.length) :
    ¬ UsedBefore nodes nodes.length i ↔ ∃ k ∈ active, k.2 = i := by
  have disjoint := List.disjoint_of_nodup_append (h.perm.nodup_iff.mpr List.nodup_range)
  rw [usedBefore_length_iff, ← List.mem_map (f := Prod.snd)]
  refine ⟨fun hu => ?_, fun ha hu => disjoint hu ha⟩
  exact (List.mem_append.mp (h.perm.mem_iff.mpr (List.mem_range.mpr hi))).resolve_left hu

theorem MergeInv.before_of_keyLt {W : Nat} {nodes : List TreeNode} {active : List Key}
    (h : MergeInv W nodes active) {x y : Key} (hx : x ∈ active) (hy : y ∈ active)
    (hlt : keyLt x y = true) : Before nodes x.2 y.2 := by
  rw [Before, h.keys x hx, h.keys y hy]
  exact (keyLt_iff x y).mp hlt

/-- The key removed comes before every other key. -/
theorem keyLt_of_takeLowest {ks rest : List Key} {a y : Key} (h : takeLowest ks = some (a, rest))
    (hy : y ∈ ks) (hne : y ≠ a) : keyLt a y = true :=
  (keyLt_of_not ((takeLowest_spec h).2.2 y hy)).resolve_left hne

/-! ### What every merge takes -/

/-- Node k, with children a and b, was made from the two first unused nodes below k. -/
def TakesTheTwoLowest (nodes : List TreeNode) (k a b : Nat) : Prop :=
  ¬ UsedBefore nodes k a ∧ ¬ UsedBefore nodes k b ∧ Before nodes a b
    ∧ ∀ i < k, ¬ UsedBefore nodes k i → i ≠ a → i ≠ b → Before nodes b i

theorem takesTheTwoLowest_append_iff {nodes : List TreeNode} (n : TreeNode) {k a b : Nat}
    (hk : k ≤ nodes.length) (ha : a < k) (hb : b < k) :
    TakesTheTwoLowest (nodes ++ [n]) k a b ↔ TakesTheTwoLowest nodes k a b := by
  simp only [TakesTheTwoLowest, usedBefore_append_iff n _ hk]
  rw [before_append_iff n (by omega) (by omega)]
  refine and_congr_right' (and_congr_right' (and_congr_right' (forall₂_congr fun i hi => ?_)))
  rw [before_append_iff n (by omega) (by omega)]

/-- The two keys the loop removes are the two first unused nodes. -/
theorem MergeInv.takesTheTwoLowest {W : Nat} {nodes : List TreeNode} {active rest rest' : List Key}
    {a b : Key} (h : MergeInv W nodes active) (ha : takeLowest active = some (a, rest))
    (hb : takeLowest rest = some (b, rest')) :
    TakesTheTwoLowest nodes nodes.length a.2 b.2 := by
  have hp := takeLowest_twice_perm ha hb
  have ma : a ∈ active := hp.symm.subset (by simp)
  have mb : b ∈ active := hp.symm.subset (by simp)
  have indices_nodup : ((a :: b :: rest').map Prod.snd).Nodup :=
    (hp.map Prod.snd).nodup_iff.mp <|
      List.Nodup.of_append_right (h.perm.nodup_iff.mpr List.nodup_range)
  have hne : b ≠ a := by
    rintro rfl
    simp at indices_nodup
  refine ⟨(h.unused_iff (h.active_lt ma)).mpr ⟨a, ma, rfl⟩,
    (h.unused_iff (h.active_lt mb)).mpr ⟨b, mb, rfl⟩,
    h.before_of_keyLt ma mb (keyLt_of_takeLowest ha mb hne), fun i hi hu hia hib => ?_⟩
  obtain ⟨y, my, rfl⟩ := (h.unused_iff hi).mp hu
  have hya : y ≠ a := fun e => hia (e ▸ rfl)
  have hyb : y ≠ b := fun e => hib (e ▸ rfl)
  have my' : y ∈ rest := by
    rw [(takeLowest_spec ha).2.1]
    exact (List.mem_erase_of_ne hya).mpr my
  exact h.before_of_keyLt mb my (keyLt_of_takeLowest hb my' hyb)

/-- Every internal node of the built arena was made from the two first unused nodes. -/
theorem buildTree_takesTheTwoLowest {f : Table Word 256} {k w a b : Nat}
    (hn : (buildTree f)[k]? = some (.internal w a b)) :
    TakesTheTwoLowest (buildTree f) k a b := by
  obtain ⟨-, -, order⟩ := buildTree_induct f
    (fun nodes active => MergeInv (weightSum f) nodes active
      ∧ ∀ k w a b, nodes[k]? = some (.internal w a b) → TakesTheTwoLowest nodes k a b)
    (alphabetSize_pos_of_internal hn)
    ⟨mergeInv_leaves f, fun k w a b h => by simp [getElem?_leaves] at h⟩
    (fun nodes active x rest y rest' ⟨inv, order⟩ hx hy => by
      refine ⟨inv.merge hx hy, fun k w a b h => ?_⟩
      obtain ⟨ha, hb, -⟩ := (inv.merge hx hy).internal k w a b h
      obtain ⟨hlt, h⟩ | ⟨rfl, e⟩ := getElem?_concat_eq_some h
      · exact (takesTheTwoLowest_append_iff _ hlt.le ha hb).mpr (order k w a b h)
      · obtain ⟨-, rfl, rfl⟩ : w = x.1 + y.1 ∧ a = x.2 ∧ b = y.2 := by simpa using e
        exact (takesTheTwoLowest_append_iff _ le_rfl ha hb).mpr (inv.takesTheTwoLowest hx hy))
  exact order k w a b hn

/-- The last node created is no node's child: children are created before. -/
theorem buildTree_last_unused {f : Table Word 256} {i : Nat} (hi : i + 1 = (buildTree f).length) :
    ¬ UsedBefore (buildTree f) (buildTree f).length i := by
  rintro ⟨j, hj, w, a, b, hn, hc⟩
  obtain ⟨ha, hb, -⟩ := buildTree_internal_spec hn
  omega

theorem buildTree_unused_iff {f : Table Word 256} {i : Nat} (hi : i < (buildTree f).length) :
    ¬ UsedBefore (buildTree f) (buildTree f).length i ↔ i + 1 = (buildTree f).length := by
  refine ⟨fun hu => ?_, buildTree_last_unused⟩
  rw [usedBefore_length_iff] at hu
  have used := mt (mem_children_buildTree f i) hu
  rw [length_buildTree] at hi ⊢
  omega

/-- Settles O16: each merge takes the two first nodes of the collection, which is the unused
nodes; the loop leaves the last node created. -/
theorem eachMergeTakesTheTwoLowest : Obligations.EachMergeTakesTheTwoLowest := by
  intro f
  refine ⟨fun k w a b hn => ?_, fun i hi => buildTree_unused_iff hi⟩
  obtain ⟨ha, hb, -, hw, -⟩ := buildTree_internal_spec hn
  exact ⟨ha, hb, hw, buildTree_takesTheTwoLowest hn⟩

end Sys2Proof.Machine
end

section
/-! SUPPORT. TREE_BUILD (spec/42_tree_builder.md R150, R153, R154) and the trees of alphabets
without a merge (R157, R158, R173, R174). -/

namespace Sys2Proof.Machine

/-! ### The words of the tree that is written (R154) -/

/-- A leaf of the built arena is the node of its alphabet index. -/
theorem buildTree_leaf_spec {f : Table Word 256} {i : Nat} {c : Byte} {w : Nat}
    (hn : (buildTree f)[i]? = some (.leaf c w)) :
    ∃ h : i < (alphabet f).length, c = (alphabet f)[i] ∧ w = (f.bySymbol c).toNat := by
  have hi : i < alphabetSize f := by
    by_contra hL
    obtain ⟨hlt, -⟩ := List.getElem?_eq_some_iff.mp hn
    rw [length_buildTree] at hlt
    obtain ⟨w, a, b, hn'⟩ := getElem?_buildTree_internal f i (by omega) (by omega)
    simp [hn] at hn'
  rw [alphabetSize_eq] at hi
  refine ⟨hi, ?_⟩
  rw [getElem?_buildTree_leaf f i hi] at hn
  cases hn
  exact ⟨rfl, rfl⟩

/-- ROOT points at the last node created (R154). -/
theorem toNat_word_rootOf {l : Nat} (hl : l ≤ 256) :
    (rootOf l).word.toNat = if l = 0 then 0 else 2 ^ 31 + (2 * l - 2) := by
  by_cases h : l = 0
  · simp [rootOf, h, Root.word_none]
  · rw [rootOf, if_neg h, if_neg h, Root.toNat_word, BitVec.toNat_ofNat, Bool.toNat_true]
    omega

theorem idleRead_node_zero (s : State) (i : Fin 511) :
    s.idleRead (.node i 0#1) = (s.node.at i.val i.isLt).weight := rfl

theorem idleRead_node_one (s : State) (i : Fin 511) :
    s.idleRead (.node i 1#1) = (s.node.at i.val i.isLt).word1 := rfl

/-- A node that does not exist reads as two zero words (R45). -/
theorem idleRead_node_absent {s : State} {i : Fin 511} (h : s.node.at i.val i.isLt = Node.absent)
    (w : BitVec 1) : s.idleRead (.node i w) = 0#32 := by
  rw [State.idleRead, h, Node.word1_absent]
  exact ite_self _

/-- The two words of a leaf. -/
theorem idleRead_node_leaf {s : State} {i : Fin 511} {c : Byte} {w : Nat}
    (h : s.node.at i.val i.isLt = (TreeNode.leaf c w).encode) (hw : w < 2 ^ 32) :
    (s.idleRead (.node i 0#1)).toNat = w
      ∧ (s.idleRead (.node i 1#1)).toNat = 2 ^ 31 + c.toNat := by
  rw [idleRead_node_zero, idleRead_node_one, h, Node.toNat_word1]
  simp only [TreeNode.encode, BitVec.toNat_ofNat, Bool.toNat_true, Bool.toNat_false]
  omega

/-- The two words of an internal node. -/
theorem idleRead_node_internal {s : State} {i : Fin 511} {w l r : Nat}
    (h : s.node.at i.val i.isLt = (TreeNode.internal w l r).encode) (hw : w < 2 ^ 32)
    (hl : l < 511) (hr : r < 511) :
    (s.idleRead (.node i 0#1)).toNat = w
      ∧ (s.idleRead (.node i 1#1)).toNat = 2 ^ 31 + 2 ^ 30 + r * 2 ^ 18 + l * 2 ^ 9 := by
  rw [idleRead_node_zero, idleRead_node_one, h, Node.toNat_word1]
  simp only [TreeNode.encode, BitVec.toNat_ofNat, Bool.toNat_true]
  omega

/-! ### TREE_BUILD -/

theorem exec_treeBuild_of_weightSum_gt {s : State} (h : 0xFFFFFFFF < weightSum s.freq) :
    exec .treeBuild s = .next (s.completed 0#32 .capacity (infoOf 2#4 0)) := by
  simp only [exec, execTreeBuild, State.weightCheck, if_pos h]
  rfl

/-- Settles O14: the check of R153 decides, and the tree-building step writes the arena word by
word. -/
theorem treeBuildChecksThenWritesTheTree : Obligations.TreeBuildChecksThenWritesTheTree := by
  intro s
  have sum : sumSymbols (fun c => (s.freqOf c).toNat) = weightSum s.freq :=
    (weightSum_eq_sumSymbols s.freq).symm
  have size := length_alphabet_le s.freq
  rw [sum]
  refine ⟨exec_treeBuild_of_weightSum_gt, fun hW => ⟨s.treeStep.succeed 0,
    exec_treeBuild_of_weightSum_le hW, rfl, ?_, ?_, ?_, fun i => ⟨fun c w hn => ?_,
    fun w l r hn => ?_, fun hn => ?_⟩⟩⟩
  · rw [State.succeed_symCount, State.treeStep_symCount, alphabetSize_eq]
    exact Nat.mod_eq_of_lt (by omega)
  · rw [State.succeed_root, State.treeStep_root, toNat_word_rootOf (alphabetSize_le _),
      alphabetSize_eq]
    simp only [List.length_eq_zero_iff]
  · exact Nat.mod_eq_of_lt (by omega)
  · obtain ⟨-, -, rfl⟩ := buildTree_leaf_spec hn
    exact idleRead_node_leaf (at_arenaTable_of_some i.isLt hn) (BitVec.isLt _)
  · obtain ⟨hl, hr, -, -, hw⟩ := buildTree_internal_spec hn
    have := i.isLt
    exact idleRead_node_internal (at_arenaTable_of_some i.isLt hn) (by omega) (by omega) (by omega)
  · have absent := at_arenaTable_of_none i.isLt hn
    exact ⟨idleRead_node_absent absent _, idleRead_node_absent absent _⟩

/-! ### CODE_GEN after TREE_BUILD -/

theorem exec_codeGen_of_treeValid {s : State} (h : s.treeValid = true) :
    exec .codeGen s = .next (s.codeStep.succeed 0) := by
  simp only [exec, execCodeGen, (treeCheck_eq_none s).mpr h]

/-- A symbol with no code has zeros in both tables (R172). -/
theorem codeStep_of_find_none {s : State} {c : Byte} (h : CodeMap.find s.genCodes c = none) :
    s.codeStep.codeLenOf c = 0 ∧ s.codeStep.codeBits.bySymbol c = 0#256 := by
  refine ⟨by rw [codeStep_codeLenOf, h], ?_⟩
  rw [State.codeStep_codeBits, codeBitsTable, Table.bySymbol_ofSymbols, h]

/-- A symbol with a code of at most 255 bits has its length and number in the tables (R172). -/
theorem codeStep_of_find_some {s : State} {c : Byte} {p : Bits}
    (h : CodeMap.find s.genCodes c = some p) (hp : p.length ≤ 255) :
    s.codeStep.codeLenOf c = p.length
      ∧ s.codeStep.codeBits.bySymbol c = BitVec.ofNat 256 (bitsVal p) := by
  refine ⟨by rw [← length_codeOf, codeStep_codeOf_some s c p h hp], ?_⟩
  rw [State.codeStep_codeBits, codeBitsTable, Table.bySymbol_ofSymbols, h]

theorem idleRead_codeBits_of_zero {s : State} {c : Byte} (h : s.codeBits.bySymbol c = 0#256)
    (w : BitVec 3) : s.idleRead (.codeBits c w) = 0#32 := by
  simp [State.idleRead, h, codeBitsWord]

/-! ### The empty alphabet (R157, R174) -/

/-- With no symbol the code table is empty (R174). -/
theorem genCodes_of_symCount_zero {s : State} (h : s.symCount = 0#9) : s.genCodes = [] := by
  simp [State.genCodes, h]

/-- Settles O17: no leaf, so no node, no root and no code. -/
theorem emptyAlphabetIsValid : Obligations.EmptyAlphabetIsValid := by
  intro s hs
  have hW : weightSum s.freq = 0 := weightSum_eq_zero hs
  have hL : alphabetSize s.freq = 0 := alphabetSize_eq_zero hs
  have noNode : ∀ i, (buildTree s.freq)[i]? = none := fun i =>
    getElem?_buildTree_none _ i (by omega)
  have count : s.treeStep.symCount = 0#9 := by rw [State.treeStep_symCount, hL]
  have codes : (s.treeStep.succeed 0).genCodes = [] := genCodes_of_symCount_zero count
  have noCode := fun c => codeStep_of_find_none (s := s.treeStep.succeed 0) (c := c)
    (by rw [codes]; rfl)
  refine ⟨_, _, exec_treeBuild_of_weightSum_le (by omega), exec_codeGen_of_treeValid rfl, rfl, ?_,
    count, ?_, rfl,
    fun i w => idleRead_node_absent (at_arenaTable_of_none i.isLt (noNode _)) w, rfl,
    rfl, fun c w => ⟨(noCode c).1, idleRead_codeBits_of_zero (noCode c).2 w⟩⟩
  · rw [State.succeed_root, State.treeStep_root, hL]
    exact Root.word_none
  · rw [State.succeed_totalWeight, State.treeStep_totalWeight, hW]

/-! ### The alphabet of one symbol (R158, R173) -/

theorem alphabet_eq_singleton {f : Table Word 256} {c : Byte} (hc : f.bySymbol c ≠ 0#32)
    (hd : ∀ d, d ≠ c → f.bySymbol d = 0#32) : alphabet f = [c] := by
  refine List.perm_singleton.mp ?_
  rw [List.perm_ext_iff_of_nodup (nodup_alphabet f) (List.nodup_singleton c)]
  intro d
  rw [mem_alphabet, List.mem_singleton]
  exact ⟨fun h => by_contra fun e => h (hd d e), fun e => e ▸ hc⟩

/-- One leaf is the whole arena: the loop makes no merge. -/
theorem buildTree_of_singleton {f : Table Word 256} {c : Byte} (h : alphabet f = [c]) :
    buildTree f = [.leaf c (f.bySymbol c).toNat] := by
  simp [buildTree, leaves_eq, h, mergeLoop]

theorem weightSum_of_singleton {f : Table Word 256} {c : Byte}
    (hd : ∀ d, d ≠ c → f.bySymbol d = 0#32) : weightSum f ≤ 0xFFFFFFFF := by
  have only : sumSymbols (fun d => (f.bySymbol d).toNat) = (f.bySymbol c).toNat := by
    rw [sumSymbols, ← List.sum_toFinset _ nodup_symbols]
    exact Finset.sum_eq_single_of_mem c (by simp [mem_symbols]) fun d _ hne => by simp [hd d hne]
  rw [weightSum_eq_sumSymbols, only]
  have := (f.bySymbol c).isLt
  omega

/-- With one symbol the code table is the root's symbol under "0" (R173). -/
theorem genCodes_of_symCount_one {s : State} (h : s.symCount = 1#9) :
    s.genCodes = [((s.nodeAt s.root.index).symbol, [false])] := by
  simp [State.genCodes, h]

/-- The arena of one symbol has no internal node (R158). -/
theorem not_internal_of_singleton {f : Table Word 256} (h : alphabetSize f = 1) (i : Nat)
    (hi : i < 511) : ((arenaTable (buildTree f)).at i hi).internal = false := by
  rw [← Bool.not_eq_true, arena_internal_iff]
  rintro ⟨w, a, b, hn⟩
  obtain ⟨hlt, -⟩ := List.getElem?_eq_some_iff.mp hn
  rw [length_buildTree] at hlt
  obtain ⟨ha, -⟩ := buildTree_internal_spec hn
  omega

/-- The node and the registers TREE_BUILD writes for one symbol (R158). -/
theorem treeStep_of_singleton {s : State} {c : Byte} (one : alphabet s.freq = [c]) :
    s.treeStep.node.at 0 (by decide) = (TreeNode.leaf c (s.freqOf c).toNat).encode
      ∧ s.treeStep.symCount = 1#9 ∧ s.treeStep.root = { valid := true, index := 0#9 } := by
  have hL : alphabetSize s.freq = 1 := by rw [alphabetSize_eq, one]; rfl
  refine ⟨at_arenaTable_of_some _ (by rw [buildTree_of_singleton one]; rfl), ?_, ?_⟩
  · rw [State.treeStep_symCount, hL]
  · rw [State.treeStep_root, hL]
    rfl

/-- The code table CODE_GEN takes from that tree (R173). -/
theorem genCodes_of_singleton {s : State} {c : Byte} (one : alphabet s.freq = [c]) :
    s.treeStep.genCodes = [(c, [false])] := by
  obtain ⟨node, count, root⟩ := treeStep_of_singleton one
  rw [genCodes_of_symCount_one count, root, nodeAt_of_lt _ _ (by decide)]
  exact congrArg (fun n : Node => [(n.symbol, [false])]) node

/-- Settles O18: the only leaf is node 0 and the root, and CODE_GEN gives its symbol the code
"0". -/
theorem singleSymbolGetsOneBit : Obligations.SingleSymbolGetsOneBit := by
  intro s c hc hd
  have one := alphabet_eq_singleton hc hd
  have hL : alphabetSize s.freq = 1 := by rw [alphabetSize_eq, one]; rfl
  obtain ⟨node, count, root⟩ := treeStep_of_singleton one
  obtain ⟨weight, word1⟩ := idleRead_node_leaf (i := 0) node (BitVec.isLt _)
  have codes : (s.treeStep.succeed 0).genCodes = [(c, [false])] := genCodes_of_singleton one
  have find_c : CodeMap.find (s.treeStep.succeed 0).genCodes c = some [false] := by
    rw [codes]
    simp [CodeMap.find]
  have find_other : ∀ d, d ≠ c → CodeMap.find (s.treeStep.succeed 0).genCodes d = none :=
    fun d hne => by
      rw [codes]
      simp [CodeMap.find, hne]
  obtain ⟨len, bits⟩ := codeStep_of_find_some find_c (by decide)
  refine ⟨_, _, exec_treeBuild_of_weightSum_le (weightSum_of_singleton hd),
    exec_codeGen_of_treeValid rfl, rfl, ?_, count, BitVec.eq_of_toNat_eq weight,
    BitVec.eq_of_toNat_eq (word1.trans ?_), fun i => not_internal_of_singleton hL i.val i.isLt, rfl,
    codeStep_codeOf_some _ c _ find_c (by decide), len, idleRead_codeBits_of_zero bits 0#3,
    fun d hne => (codeStep_of_find_none (find_other d hne)).1⟩
  · rw [State.succeed_root, root]
    decide
  · have below : c.toNat < 2 ^ 31 := by omega
    rw [BitVec.toNat_or, BitVec.toNat_setWidth_of_le (by decide)]
    exact Nat.two_pow_add_eq_or_of_lt below 1

end Sys2Proof.Machine
end

section
/-! SUPPORT. The built arena as one tree, what the code walk finds in it (spec/43_code_table.md
R171, R175), and the weighted path length (spec/42_tree_builder.md R159)

The merge loop joins a forest of code trees into one, with every leaf once and every internal node
once. The walk visits that tree, so the codes it assigns are the tree's paths; and in a tree whose
internal weights are sums, the leaves' weights times their depths are the internal weights. -/

namespace Sys2Proof.Machine

/-! ### Code trees -/

/-- A tree over arena indices. -/
inductive CodeTree where
  | leaf (i : Nat)
  | fork (i : Nat) (left right : CodeTree)

namespace CodeTree

/-- The index of the root. -/
def root : CodeTree → Nat
  | leaf i => i
  | fork i _ _ => i

/-- The indices of the leaves, the last one the walk visits first. -/
def leaves : CodeTree → List Nat
  | leaf i => [i]
  | fork _ l r => r.leaves ++ l.leaves

/-- The indices of the internal nodes. -/
def internals : CodeTree → List Nat
  | leaf _ => []
  | fork i l r => i :: (l.internals ++ r.internals)

/-- The number of nodes. -/
def size (t : CodeTree) : Nat := t.leaves.length + t.internals.length

/-- Each leaf under p and its path from the root (R171), the last one the walk visits first. -/
def paths (p : Bits) : CodeTree → List (Nat × Bits)
  | leaf i => [(i, p)]
  | fork _ l r => r.paths (p ++ [true]) ++ l.paths (p ++ [false])

/-- The tree's nodes and their children are those of the arena. -/
def In (nodes : List TreeNode) : CodeTree → Prop
  | leaf i => ∃ c w, nodes[i]? = some (.leaf c w)
  | fork i l r => (∃ w, nodes[i]? = some (.internal w l.root r.root)) ∧ l.In nodes ∧ r.In nodes

@[simp] theorem size_leaf (i : Nat) : (leaf i).size = 1 := rfl

@[simp] theorem size_fork (i : Nat) (l r : CodeTree) :
    (fork i l r).size = l.size + r.size + 1 := by
  simp only [size, leaves, internals, List.length_append, List.length_cons]
  omega

theorem map_fst_paths (t : CodeTree) (p : Bits) : (t.paths p).map Prod.fst = t.leaves := by
  induction t generalizing p with
  | leaf i => rfl
  | fork i l r ihl ihr => rw [paths, List.map_append, ihl, ihr, leaves]

/-- A path visits different internal nodes. -/
theorem length_of_mem_paths {t : CodeTree} {p : Bits} {x : Nat × Bits} (h : x ∈ t.paths p) :
    x.2.length ≤ p.length + t.internals.length := by
  induction t generalizing p with
  | leaf i =>
    rw [List.mem_singleton.mp h]
    simp [internals]
  | fork i l r ihl ihr =>
    simp only [internals, List.length_cons, List.length_append]
    rcases List.mem_append.mp h with h | h
    · have := ihr h
      rw [List.length_append, List.length_singleton] at this
      omega
    · have := ihl h
      rw [List.length_append, List.length_singleton] at this
      omega

theorem In.append {nodes : List TreeNode} {t : CodeTree} (h : t.In nodes) (n : TreeNode) :
    t.In (nodes ++ [n]) := by
  have keep : ∀ {i m}, nodes[i]? = some m → (nodes ++ [n])[i]? = some m := fun hi => by
    rw [List.getElem?_append_left (List.getElem?_eq_some_iff.mp hi).1, hi]
  induction t with
  | leaf i =>
    obtain ⟨c, w, hi⟩ := h
    exact ⟨c, w, keep hi⟩
  | fork i l r ihl ihr =>
    obtain ⟨⟨w, hi⟩, hl, hr⟩ := h
    exact ⟨⟨w, keep hi⟩, ihl hl, ihr hr⟩

theorem In.root_lt {nodes : List TreeNode} {t : CodeTree} (h : t.In nodes) :
    t.root < nodes.length := by
  cases t with
  | leaf i =>
    obtain ⟨c, w, hi⟩ := h
    exact (List.getElem?_eq_some_iff.mp hi).1
  | fork i l r =>
    obtain ⟨⟨w, hi⟩, -⟩ := h
    exact (List.getElem?_eq_some_iff.mp hi).1

/-- The weighted path length of a tree whose internal weights are sums (R159). -/
theorem In.weighted_paths {nodes : List TreeNode} {t : CodeTree} (h : t.In nodes)
    (sums : ∀ i w a b : Nat, nodes[i]? = some (.internal w a b) →
      w = weightAt nodes a + weightAt nodes b) (p : Bits) :
    ((t.paths p).map fun x => weightAt nodes x.1 * x.2.length).sum
      = weightAt nodes t.root * p.length + (t.internals.map (weightAt nodes)).sum := by
  induction t generalizing p with
  | leaf i => simp [paths, internals, root]
  | fork i l r ihl ihr =>
    obtain ⟨⟨w, hi⟩, hl, hr⟩ := h
    have weight : weightAt nodes i = weightAt nodes l.root + weightAt nodes r.root :=
      (weightAt_of_some hi).trans (sums i w _ _ hi)
    simp only [paths, internals, root, List.map_append, List.map_cons, List.sum_append,
      List.sum_cons, ihl hl, ihr hr, weight, List.length_append, List.length_singleton]
    ring

end CodeTree

/-! ### The merge loop builds one code tree -/

/-- Under each key of the collection a code tree, all of them together with every leaf of the
alphabet and every node created so far, each once. -/
structure Forest (L : Nat) (nodes : List TreeNode) (active : List Key) (tree : Nat → CodeTree) :
    Prop where
  root : ∀ k ∈ active, (tree k.2).root = k.2
  built : ∀ k ∈ active, (tree k.2).In nodes
  leaves : (active.flatMap fun k => (tree k.2).leaves).Perm (List.range L)
  internals : (List.range L ++ active.flatMap fun k => (tree k.2).internals).Perm
    (List.range nodes.length)

theorem forest_leaves (f : Table Word 256) :
    Forest (alphabetSize f) (leaves f) (leafKeys (leaves f)) CodeTree.leaf := by
  have indices : (leafKeys (leaves f)).map Prod.snd = List.range (alphabetSize f) := by
    rw [leafKeys, List.map_map, List.range_eq_range']
    exact List.zipIdx_map_snd 0 _
  refine ⟨fun k _ => rfl, fun k hk => ?_, ?_, ?_⟩
  · have hi : k.2 < (alphabet f).length := by
      rw [← alphabetSize_eq, ← List.mem_range, ← indices]
      exact List.mem_map_of_mem hk
    exact ⟨_, _, by rw [getElem?_leaves, List.getElem?_eq_getElem hi]; rfl⟩
  · rw [← indices, List.map_eq_flatMap]
    rfl
  · have no_internals :
        ((leafKeys (leaves f)).flatMap fun k => (CodeTree.leaf k.2).internals) = [] :=
      List.flatMap_eq_nil_iff.mpr fun _ _ => rfl
    rw [no_internals, List.append_nil, alphabetSize]

theorem Forest.index_ne {L : Nat} {nodes : List TreeNode} {active : List Key}
    {tree : Nat → CodeTree} (h : Forest L nodes active tree) {k : Key} (hk : k ∈ active) :
    k.2 ≠ nodes.length := by
  rw [← h.root k hk]
  exact (h.built k hk).root_lt.ne

/-- The trees after a merge: the new node's tree joins the two removed. -/
def joinTrees (tree : Nat → CodeTree) (n : Nat) (a b : Key) : Nat → CodeTree :=
  Function.update tree n (.fork n (tree a.2) (tree b.2))

@[simp] theorem joinTrees_self (tree : Nat → CodeTree) (n : Nat) (a b : Key) :
    joinTrees tree n a b n = .fork n (tree a.2) (tree b.2) := Function.update_self ..

theorem joinTrees_of_ne (tree : Nat → CodeTree) {n i : Nat} (a b : Key) (h : i ≠ n) :
    joinTrees tree n a b i = tree i := Function.update_of_ne h ..

/-- What a merge does to a list gathered from the trees under the keys. -/
theorem flatMap_joinTrees (g : CodeTree → List Nat) (tree : Nat → CodeTree) {n : Nat} (a b : Key)
    {ks : List Key} (w : Nat) (h : ∀ k ∈ ks, k.2 ≠ n) :
    ((ks ++ [(w, n)]).flatMap fun k => g (joinTrees tree n a b k.2))
      = (ks.flatMap fun k => g (tree k.2)) ++ g (.fork n (tree a.2) (tree b.2)) := by
  have old : (ks.flatMap fun k => g (joinTrees tree n a b k.2))
      = ks.flatMap fun k => g (tree k.2) :=
    List.flatMap_congr fun k hk => by rw [joinTrees_of_ne tree a b (h k hk)]
  simp [old]

theorem Forest.merge {L : Nat} {nodes : List TreeNode} {active rest rest' : List Key} {a b : Key}
    {tree : Nat → CodeTree} (h : Forest L nodes active tree)
    (ha : takeLowest active = some (a, rest)) (hb : takeLowest rest = some (b, rest')) :
    Forest L (nodes ++ [.internal (a.1 + b.1) a.2 b.2]) (rest' ++ [(a.1 + b.1, nodes.length)])
      (joinTrees tree nodes.length a b) := by
  have hp := takeLowest_twice_perm ha hb
  have ma : a ∈ active := hp.symm.subset (by simp)
  have mb : b ∈ active := hp.symm.subset (by simp)
  have mrest : ∀ k ∈ rest', k ∈ active := fun k hk => hp.symm.subset (by simp [hk])
  have below : ∀ k ∈ rest', k.2 ≠ nodes.length := fun k hk => h.index_ne (mrest k hk)
  refine ⟨fun k hk => ?_, fun k hk => ?_, ?_, ?_⟩
  · rcases List.mem_append.mp hk with hk | hk
    · rw [joinTrees_of_ne tree a b (below k hk), h.root k (mrest k hk)]
    · rw [List.mem_singleton.mp hk, joinTrees_self]
      rfl
  · rcases List.mem_append.mp hk with hk | hk
    · rw [joinTrees_of_ne tree a b (below k hk)]
      exact (h.built k (mrest k hk)).append _
    · rw [List.mem_singleton.mp hk, joinTrees_self]
      refine ⟨⟨a.1 + b.1, ?_⟩, (h.built a ma).append _, (h.built b mb).append _⟩
      rw [h.root a ma, h.root b mb]
      exact List.getElem?_concat_length
  · refine List.perm_iff_count.mpr fun x => ?_
    have count := ((hp.flatMap_right _).symm.trans h.leaves).count_eq x
    rw [flatMap_joinTrees _ _ _ _ _ below]
    simp only [List.flatMap_cons, CodeTree.leaves, List.count_append] at count ⊢
    omega
  · refine List.perm_iff_count.mpr fun x => ?_
    have count := (((hp.flatMap_right _).symm.append_left _).trans h.internals).count_eq x
    rw [flatMap_joinTrees _ _ _ _ _ below]
    simp only [List.flatMap_cons, CodeTree.internals, List.length_append, List.length_singleton,
      List.range_succ, List.count_append, List.count_cons, List.count_nil] at count ⊢
    omega

/-- The built arena is one code tree: the last node is its root, each symbol's leaf is a leaf of it
once and each node from L on an internal node of it once (R46, R156). -/
theorem buildTree_codeTree (f : Table Word 256) (hL : 1 ≤ alphabetSize f) :
    ∃ t : CodeTree, t.root + 1 = (buildTree f).length ∧ t.In (buildTree f)
      ∧ t.leaves.Perm (List.range (alphabetSize f))
      ∧ (List.range (alphabetSize f) ++ t.internals).Perm (List.range (buildTree f).length) := by
  obtain ⟨k, inv, tree, forest⟩ := buildTree_induct f
    (fun nodes active => MergeInv (weightSum f) nodes active
      ∧ ∃ tree, Forest (alphabetSize f) nodes active tree) hL
    ⟨mergeInv_leaves f, _, forest_leaves f⟩
    (fun _ _ _ _ _ _ ⟨inv, _, forest⟩ ha hb => ⟨inv.merge ha hb, _, forest.merge ha hb⟩)
  have mk : k ∈ [k] := List.mem_singleton_self k
  refine ⟨tree k.2, ?_, forest.built k mk, by simpa using forest.leaves,
    by simpa using forest.internals⟩
  have hk := inv.active_lt mk
  rw [forest.root k mk, ← buildTree_unused_iff hk, inv.unused_iff hk]
  exact ⟨k, mk, rfl⟩

/-! ### The walk visits the code tree (R175) -/

/-- The codes a tree gives its leaves' symbols. -/
def CodeTree.codes (s : State) (t : CodeTree) (p : Bits) : CodeMap :=
  (t.paths p).map fun x => ((s.nodeAt (BitVec.ofNat 9 x.1)).symbol, x.2)

theorem nodeAt_arenaTable {s : State} {nodes : List TreeNode} {i : Nat} {n : TreeNode}
    (hs : s.node = arenaTable nodes) (hlen : nodes.length ≤ 511) (hn : nodes[i]? = some n) :
    s.nodeAt (BitVec.ofNat 9 i) = n.encode := by
  have hi : i < 511 := by
    have := (List.getElem?_eq_some_iff.mp hn).1
    omega
  have index : (BitVec.ofNat 9 i).toNat = i := Nat.mod_eq_of_lt (by omega)
  rw [nodeAt_of_lt _ _ (by omega)]
  simp only [index, hs, at_arenaTable_of_some hi hn]

theorem walkTree_of_leaf {node : BitVec 9 → Node} {i : BitVec 9} (h : (node i).internal = false)
    (fuel : Nat) (p : Bits) (stack : List (BitVec 9 × Bits)) (c : CodeMap) :
    walkTree node (fuel + 1) ((i, p) :: stack) c
      = walkTree node fuel stack (((node i).symbol, p) :: c) := by
  rw [walkTree, h]
  rfl

theorem walkTree_of_internal {node : BitVec 9 → Node} {i : BitVec 9}
    (h : (node i).internal = true) (fuel : Nat) (p : Bits) (stack : List (BitVec 9 × Bits))
    (c : CodeMap) :
    walkTree node (fuel + 1) ((i, p) :: stack) c
      = walkTree node fuel
          (((node i).left, p ++ [false]) :: ((node i).right, p ++ [true]) :: stack) c := by
  rw [walkTree, if_pos h]

/-- The walk pops each node of a tree on the stack once and assigns the tree's codes. -/
theorem walkTree_codeTree {s : State} {nodes : List TreeNode} (hs : s.node = arenaTable nodes)
    (hlen : nodes.length ≤ 511) {t : CodeTree} (h : t.In nodes) (fuel : Nat) (p : Bits)
    (stack : List (BitVec 9 × Bits)) (c : CodeMap) :
    walkTree s.nodeAt (t.size + fuel) ((BitVec.ofNat 9 t.root, p) :: stack) c
      = walkTree s.nodeAt fuel stack (t.codes s p ++ c) := by
  induction t generalizing fuel p stack c with
  | leaf i =>
    obtain ⟨sym, w, hi⟩ := h
    have hn := nodeAt_arenaTable hs hlen hi
    rw [CodeTree.size_leaf, Nat.add_comm]
    exact walkTree_of_leaf (by rw [CodeTree.root, hn]; rfl) fuel p stack c
  | fork i l r ihl ihr =>
    obtain ⟨⟨w, hi⟩, hl, hr⟩ := h
    have hn := nodeAt_arenaTable hs hlen hi
    have fuel_eq : l.size + r.size + 1 + fuel = l.size + (r.size + fuel) + 1 := by omega
    rw [CodeTree.size_fork, fuel_eq, CodeTree.root, walkTree_of_internal (by rw [hn]; rfl), hn]
    simp only [TreeNode.encode]
    rw [ihl hl, ihr hr]
    simp [CodeTree.codes, CodeTree.paths]

theorem walkTree_nil (node : BitVec 9 → Node) (fuel : Nat) (c : CodeMap) :
    walkTree node fuel [] c = c := by
  cases fuel <;> rfl

/-- With two or more symbols the codes assigned are the paths of the built tree (R171). -/
theorem genCodes_codeTree {s : State} (hs : TablesOk s) (hv : s.treeValid = true)
    (hL : 2 ≤ alphabetSize s.freq) :
    ∃ t : CodeTree, t.In (buildTree s.freq) ∧ t.leaves.Perm (List.range (alphabetSize s.freq))
      ∧ (List.range (alphabetSize s.freq) ++ t.internals).Perm
          (List.range (buildTree s.freq).length)
      ∧ s.genCodes = t.codes s [] := by
  obtain ⟨-, node, count, root, -⟩ := hs.tree hv
  obtain ⟨t, ht, built, leaves, internals⟩ := buildTree_codeTree s.freq (by omega)
  refine ⟨t, built, leaves, internals, ?_⟩
  have hle := alphabetSize_le s.freq
  have hlen := length_buildTree s.freq
  have nleaves := leaves.length_eq
  have ninternals := internals.length_eq
  rw [List.length_range] at nleaves
  rw [List.length_append, List.length_range, List.length_range] at ninternals
  have count' : s.symCount.toNat = alphabetSize s.freq := by
    rw [count]
    exact Nat.mod_eq_of_lt (by omega)
  have root' : s.root.index = BitVec.ofNat 9 t.root := by
    rw [root, rootOf, if_neg (by omega), show 2 * alphabetSize s.freq - 2 = t.root by omega]
  have fuel : 511 = t.size + (511 - t.size) := by
    rw [CodeTree.size]
    omega
  rw [State.genCodes, if_neg (by omega), if_pos (by omega), root', fuel,
    walkTree_codeTree node (by omega) built, walkTree_nil, List.append_nil]

/-! ### The weighted path length (R159) -/

/-- A code map with one entry per symbol holds every entry. -/
theorem find_of_mem {m : CodeMap} (hm : (m.map Prod.fst).Nodup) {c : Byte} {p : Bits}
    (h : (c, p) ∈ m) : CodeMap.find m c = some p := by
  rw [CodeMap.find]
  induction m with
  | nil => cases h
  | cons x m ih =>
    rw [List.map_cons, List.nodup_cons] at hm
    rcases List.mem_cons.mp h with rfl | h
    · exact List.lookup_cons_self
    · have hne : c ≠ x.1 := fun e => hm.1 (e ▸ List.mem_map_of_mem (f := Prod.fst) h)
      rw [List.lookup_cons, beq_false_of_ne hne]
      exact ih hm.2 h

/-- CODE_LEN under CODE_VALID is what CODE_GEN writes (R37). -/
theorem TablesOk.codeLenOf_eq {s : State} (hs : TablesOk s) (hv : s.codeValid = true) (c : Byte) :
    s.codeLenOf c = s.codeStep.codeLenOf c := by
  obtain ⟨-, len, -⟩ := hs.codes hv
  rw [State.codeLenOf, len, State.codeLenOf, State.codeStep_codeLen]

/-- Node i < L of the stored arena is the leaf of symbol i of the alphabet. -/
theorem symbol_of_leaf {s : State} (hs : s.node = arenaTable (buildTree s.freq)) {i : Nat}
    (hi : i < (alphabet s.freq).length) :
    (s.nodeAt (BitVec.ofNat 9 i)).symbol = (alphabet s.freq)[i] := by
  have hlen : (buildTree s.freq).length ≤ 511 := by
    have := alphabetSize_le s.freq
    rw [length_buildTree]
    omega
  rw [nodeAt_arenaTable hs hlen (getElem?_buildTree_leaf s.freq i hi)]
  rfl

/-- The codes of a tree with every leaf once are for the alphabet's symbols, each once. -/
theorem CodeTree.symbols_codes {s : State} (hs : s.node = arenaTable (buildTree s.freq))
    {t : CodeTree} (ht : t.leaves.Perm (List.range (alphabetSize s.freq))) (p : Bits) :
    ((t.codes s p).map Prod.fst).Perm (alphabet s.freq) := by
  have leaves : (t.codes s p).map Prod.fst
      = t.leaves.map fun i => (s.nodeAt (BitVec.ofNat 9 i)).symbol := by
    rw [← t.map_fst_paths p, codes, List.map_map, List.map_map]
    rfl
  have alphabet_eq : (List.range (alphabetSize s.freq)).map
      (fun i => (s.nodeAt (BitVec.ofNat 9 i)).symbol) = alphabet s.freq :=
    List.ext_getElem (by simp [alphabetSize_eq]) fun i _ hi => by
      simpa using symbol_of_leaf hs hi
  rw [leaves]
  exact (ht.map _).trans (.of_eq alphabet_eq)

/-- Only the alphabet's symbols add to a sum that their counts scale. -/
theorem sumSymbols_eq_alphabet {f : Table Word 256} {g : Byte → Nat}
    (h : ∀ c, f.bySymbol c = 0#32 → g c = 0) : sumSymbols g = ((alphabet f).map g).sum := by
  unfold sumSymbols alphabet
  induction symbols with
  | nil => rfl
  | cons c l ih => by_cases hc : f.bySymbol c = 0#32 <;> simp [hc, h, ih]

theorem sum_weightAt_range (nodes : List TreeNode) {k : Nat} (hk : k ≤ nodes.length) :
    ((List.range k).map (weightAt nodes)).sum = ((nodes.take k).map TreeNode.weight).sum := by
  congr 1
  refine List.ext_getElem (by simp [hk]) fun i _ hi => ?_
  have hlt : i < nodes.length := by
    rw [List.length_map, List.length_take] at hi
    omega
  simp [weightAt, List.getElem?_eq_getElem hlt]

/-- The internal nodes are those after the first k, when the first k and they are all nodes. -/
theorem sum_weightAt_internals {nodes : List TreeNode} {k : Nat} {is : List Nat}
    (hk : k ≤ nodes.length) (h : (List.range k ++ is).Perm (List.range nodes.length)) :
    (is.map (weightAt nodes)).sum = ((nodes.drop k).map TreeNode.weight).sum := by
  have all := (h.map (weightAt nodes)).sum_eq
  have split := congrArg (fun l => (l.map TreeNode.weight).sum) (List.take_append_drop k nodes)
  rw [List.map_append, List.sum_append, sum_weightAt_range nodes hk,
    sum_weightAt_range nodes le_rfl, List.take_length] at all
  simp only [List.map_append, List.sum_append] at split
  omega

/-- Under the code table of a tree with every leaf once, a leaf's count times its code's length is
its weight times its depth. -/
theorem freq_mul_codeLen_of_mem_paths {s : State} (hs : TablesOk s) (hv : s.codeValid = true)
    {t : CodeTree} (leaves : t.leaves.Perm (List.range (alphabetSize s.freq)))
    (short : t.internals.length ≤ 255) (codes : s.genCodes = t.codes s []) {x : Nat × Bits}
    (hx : x ∈ t.paths []) :
    (s.freqOf (s.nodeAt (BitVec.ofNat 9 x.1)).symbol).toNat
        * s.codeLenOf (s.nodeAt (BitVec.ofNat 9 x.1)).symbol
      = weightAt (buildTree s.freq) x.1 * x.2.length := by
  obtain ⟨-, node, -⟩ := hs.tree (hs.codes hv).1
  have hi : x.1 < (alphabet s.freq).length := by
    rw [← alphabetSize_eq, ← List.mem_range, ← leaves.mem_iff, ← t.map_fst_paths []]
    exact List.mem_map_of_mem hx
  have nodup : (s.genCodes.map Prod.fst).Nodup :=
    codes ▸ (t.symbols_codes node leaves []).nodup_iff.mpr (nodup_alphabet _)
  have depth : x.2.length ≤ 255 := by
    have := CodeTree.length_of_mem_paths hx
    rw [List.length_nil] at this
    omega
  have find : CodeMap.find s.genCodes (s.nodeAt (BitVec.ofNat 9 x.1)).symbol = some x.2 := by
    refine find_of_mem nodup ?_
    rw [codes]
    exact List.mem_map_of_mem hx
  rw [hs.codeLenOf_eq hv, (codeStep_of_find_some find depth).1, symbol_of_leaf node hi,
    weightAt_of_some (getElem?_buildTree_leaf s.freq x.1 hi)]
  rfl

/-- Settles O23: the sum over the symbols is one over the leaves of the code tree, weight times
depth, which in a tree of sums is the sum of the internal weights. -/
theorem weightedPathLengthIsInternalWeight : Obligations.WeightedPathLengthIsInternalWeight := by
  intro s hs hv hL
  rw [← alphabetSize_eq] at hL ⊢
  obtain ⟨ht, -⟩ := hs.codes hv
  obtain ⟨-, node, -⟩ := hs.tree ht
  obtain ⟨t, built, leaves, internals, codes⟩ := genCodes_codeTree hs ht hL
  have hle := alphabetSize_le s.freq
  have hlen := length_buildTree s.freq
  have short : t.internals.length ≤ 255 := by
    have := internals.length_eq
    rw [List.length_append, List.length_range, List.length_range] at this
    omega
  calc sumSymbols (fun c => (s.freqOf c).toNat * s.codeLenOf c)
      = ((alphabet s.freq).map fun c => (s.freqOf c).toNat * s.codeLenOf c).sum :=
        sumSymbols_eq_alphabet fun c hc => by simp [State.freqOf, hc]
    _ = (((t.codes s []).map Prod.fst).map fun c => (s.freqOf c).toNat * s.codeLenOf c).sum :=
        ((t.symbols_codes node leaves []).map _).sum_eq.symm
    _ = ((t.paths []).map fun x => weightAt (buildTree s.freq) x.1 * x.2.length).sum := by
        rw [CodeTree.codes, List.map_map, List.map_map]
        exact congrArg List.sum (List.map_congr_left fun x hx =>
          freq_mul_codeLen_of_mem_paths hs hv leaves short codes hx)
    _ = (t.internals.map (weightAt (buildTree s.freq))).sum := by
        rw [built.weighted_paths fun i w a b hi => (buildTree_internal_spec hi).2.2.2.1]
        simp
    _ = (((buildTree s.freq).drop (alphabetSize s.freq)).map TreeNode.weight).sum :=
        sum_weightAt_internals (by omega) internals

end Sys2Proof.Machine
end

section
/-! SUPPORT. CODE_GEN (spec/43_code_table.md R170 to R178): the codes are the paths of the built
tree, so none of them begins another and, since every internal node has two children, every bit
sequence meets one. -/

namespace Sys2Proof.Machine

/-! ### The paths of a code tree (R171, R176, R178) -/

/-- No sequence continues both edges of a node. -/
theorem not_prefix_of_both_edges {p q : Bits} (h1 : p ++ [true] <+: q) (h0 : p ++ [false] <+: q) :
    False := by
  have := (List.prefix_of_prefix_length_le h1 h0 (by simp)).eq_of_length (by simp)
  simp at this

namespace CodeTree

theorem prefix_of_mem_paths {t : CodeTree} {p : Bits} {x : Nat × Bits} (h : x ∈ t.paths p) :
    p <+: x.2 := by
  induction t generalizing p with
  | leaf i => rw [List.mem_singleton.mp h]
  | fork i l r ihl ihr =>
    rcases List.mem_append.mp h with h | h
    · exact (List.prefix_append p [true]).trans (ihr h)
    · exact (List.prefix_append p [false]).trans (ihl h)

/-- A leaf's path begins no other leaf's (R176). -/
theorem eq_of_paths_prefix {t : CodeTree} {p : Bits} {x y : Nat × Bits} (hx : x ∈ t.paths p)
    (hy : y ∈ t.paths p) (h : x.2 <+: y.2) : x = y := by
  induction t generalizing p with
  | leaf i => rw [List.mem_singleton.mp hx, List.mem_singleton.mp hy]
  | fork i l r ihl ihr =>
    rcases List.mem_append.mp hx with hx | hx <;> rcases List.mem_append.mp hy with hy | hy
    · exact ihr hx hy
    · exact (not_prefix_of_both_edges ((prefix_of_mem_paths hx).trans h)
        (prefix_of_mem_paths hy)).elim
    · exact (not_prefix_of_both_edges (prefix_of_mem_paths hy)
        ((prefix_of_mem_paths hx).trans h)).elim
    · exact ihl hx hy

/-- Every sequence from a node on reaches a leaf or stops on the way to one (R178). -/
theorem exists_path_comparable (t : CodeTree) (p b : Bits) :
    ∃ x ∈ t.paths p, x.2 <+: p ++ b ∨ p ++ b <+: x.2 := by
  induction t generalizing p b with
  | leaf i => exact ⟨_, List.mem_singleton_self _, .inl (List.prefix_append p b)⟩
  | fork i l r ihl ihr =>
    match b with
    | [] =>
      obtain ⟨x, hx, -⟩ := ihr (p ++ [true]) []
      have mem : x ∈ (fork i l r).paths p := List.mem_append_left _ hx
      exact ⟨x, mem, .inr (by simpa using prefix_of_mem_paths mem)⟩
    | true :: b =>
      obtain ⟨x, hx, h⟩ := ihr (p ++ [true]) b
      exact ⟨x, List.mem_append_left _ hx, by simpa using h⟩
    | false :: b =>
      obtain ⟨x, hx, h⟩ := ihl (p ++ [false]) b
      exact ⟨x, List.mem_append_right _ hx, by simpa using h⟩

/-- The Kraft sum of a tree no deeper than n is that of its root (R178). -/
theorem kraft_sum (t : CodeTree) (p : Bits) {n : Nat} (h : p.length + t.internals.length ≤ n) :
    ((t.paths p).map fun x => 2 ^ (n - x.2.length)).sum = 2 ^ (n - p.length) := by
  induction t generalizing p with
  | leaf i => simp [paths]
  | fork i l r ihl ihr =>
    simp only [internals, List.length_cons, List.length_append] at h
    have half : n - p.length = n - (p.length + 1) + 1 := by omega
    rw [paths, List.map_append, List.sum_append, ihr _ (by simp; omega), ihl _ (by simp; omega),
      List.length_append, List.length_append, List.length_singleton, List.length_singleton, half,
      pow_succ, Nat.mul_two]

theorem path_ne_nil {t : CodeTree} (ht : 2 ≤ t.leaves.length) {x : Nat × Bits}
    (hx : x ∈ t.paths []) : x.2 ≠ [] := by
  cases t with
  | leaf i => simp [leaves] at ht
  | fork i l r =>
    rcases List.mem_append.mp hx with hx | hx
    · exact (prefix_of_mem_paths hx).ne_nil (by simp)
    · exact (prefix_of_mem_paths hx).ne_nil (by simp)

/-- A leaf's path leads to it through the stored arena (R171). -/
theorem In.pathTo {s : State} {nodes : List TreeNode} (hs : s.node = arenaTable nodes)
    (hlen : nodes.length ≤ 511) {t : CodeTree} (h : t.In nodes) {p : Bits} {x : Nat × Bits}
    (hx : x ∈ t.paths p) :
    ∃ q, x.2 = p ++ q ∧ PathTo s.nodeAt (BitVec.ofNat 9 t.root) q (BitVec.ofNat 9 x.1) := by
  induction t generalizing p with
  | leaf i =>
    rw [List.mem_singleton.mp hx]
    exact ⟨[], by simp, rfl⟩
  | fork i l r ihl ihr =>
    obtain ⟨⟨w, hi⟩, hl, hr⟩ := h
    have hn := nodeAt_arenaTable hs hlen hi
    rcases List.mem_append.mp hx with hx | hx
    · obtain ⟨q, hq, path⟩ := ihr hr hx
      refine ⟨true :: q, by simp [hq], ?_⟩
      rw [PathTo, root, hn]
      exact ⟨rfl, path⟩
    · obtain ⟨q, hq, path⟩ := ihl hl hx
      refine ⟨false :: q, by simp [hq], ?_⟩
      rw [PathTo, root, hn]
      exact ⟨rfl, path⟩

/-- Children have smaller indices, so the root has the greatest (R46). -/
theorem In.le_root {f : Table Word 256} {t : CodeTree} (h : t.In (buildTree f)) :
    ∀ i, i ∈ t.leaves ∨ i ∈ t.internals → i ≤ t.root := by
  induction t with
  | leaf i => simp [leaves, internals, root]
  | fork i l r ihl ihr =>
    obtain ⟨⟨w, hi⟩, hl, hr⟩ := h
    obtain ⟨left_lt, right_lt, -⟩ := buildTree_internal_spec hi
    intro j hj
    have which : j = i ∨ j ≤ l.root ∨ j ≤ r.root := by
      simp only [leaves, internals, List.mem_append, List.mem_cons] at hj
      rcases hj with (hj | hj) | rfl | hj | hj
      · exact .inr (.inr (ihr hr j (.inl hj)))
      · exact .inr (.inl (ihl hl j (.inl hj)))
      · exact .inl rfl
      · exact .inr (.inl (ihl hl j (.inr hj)))
      · exact .inr (.inr (ihr hr j (.inr hj)))
    rw [root]
    omega

end CodeTree

/-! ### The tree behind a code table -/

/-- t is the built tree of s, and its paths are the codes. -/
structure IsCodeTree (s : State) (t : CodeTree) : Prop where
  size : 2 ≤ alphabetSize s.freq
  node : s.node = arenaTable (buildTree s.freq)
  built : t.In (buildTree s.freq)
  leaves : t.leaves.Perm (List.range (alphabetSize s.freq))
  internals : (List.range (alphabetSize s.freq) ++ t.internals).Perm
    (List.range (buildTree s.freq).length)
  codes : s.genCodes = t.codes s []

theorem exists_isCodeTree {s : State} (hs : TablesOk s) (hv : s.treeValid = true)
    (hL : 2 ≤ alphabetSize s.freq) : ∃ t, IsCodeTree s t := by
  obtain ⟨-, node, -⟩ := hs.tree hv
  obtain ⟨t, built, leaves, internals, codes⟩ := genCodes_codeTree hs hv hL
  exact ⟨t, hL, node, built, leaves, internals, codes⟩

theorem length_buildTree_le (f : Table Word 256) : (buildTree f).length ≤ 511 := by
  have := alphabetSize_le f
  rw [length_buildTree]
  omega

namespace IsCodeTree

variable {s : State} {t : CodeTree}

theorem length_internals_le (h : IsCodeTree s t) : t.internals.length ≤ 255 := by
  have all := h.internals.length_eq
  have := alphabetSize_le s.freq
  rw [List.length_append, List.length_range, List.length_range, length_buildTree] at all
  omega

theorem root_eq (h : IsCodeTree s t) : t.root = 2 * alphabetSize s.freq - 2 := by
  have size := h.size
  have len := length_buildTree s.freq
  have last : 2 * alphabetSize s.freq - 2 ∈ List.range (alphabetSize s.freq) ++ t.internals :=
    h.internals.mem_iff.mpr (List.mem_range.mpr (by omega))
  have le : 2 * alphabetSize s.freq - 2 ≤ t.root :=
    h.built.le_root _ ((List.mem_append.mp last).imp_left h.leaves.mem_iff.mpr)
  have lt := h.built.root_lt
  omega

theorem symbols (h : IsCodeTree s t) : (s.genCodes.map Prod.fst).Perm (alphabet s.freq) :=
  h.codes ▸ t.symbols_codes h.node h.leaves []

/-- The entries of the code map are the tree's paths. -/
theorem mem_genCodes (h : IsCodeTree s t) {e : Byte × Bits} :
    e ∈ s.genCodes
      ↔ ∃ x ∈ t.paths [], ((s.nodeAt (BitVec.ofNat 9 x.1)).symbol, x.2) = e := by
  rw [h.codes, CodeTree.codes, List.mem_map]

end IsCodeTree

/-! ### The code map of a valid tree -/

theorem genCodes_congr {s t : State} (node : t.node = s.node) (root : t.root = s.root)
    (count : t.symCount = s.symCount) : t.genCodes = s.genCodes := by
  have nodeAt : t.nodeAt = s.nodeAt := by
    funext i
    simp only [State.nodeAt, node]
  rw [State.genCodes, State.genCodes, nodeAt, root, count]

theorem TablesOk.genCodes_treeStep {s : State} (hs : TablesOk s) (hv : s.treeValid = true) :
    s.treeStep.genCodes = s.genCodes := by
  obtain ⟨-, node, count, root, -⟩ := hs.tree hv
  exact genCodes_congr node.symm root.symm count.symm

/-- The three kinds of code map: no code (R174), one code "0" (R173), the paths of a tree (R171). -/
theorem TablesOk.genCodes_cases {s : State} (hs : TablesOk s) (hv : s.treeValid = true) :
    (alphabet s.freq = [] ∧ s.genCodes = [])
      ∨ (∃ c, alphabet s.freq = [c] ∧ s.genCodes = [(c, [false])])
      ∨ ∃ t, IsCodeTree s t := by
  match h : alphabet s.freq with
  | [] =>
    have count : s.treeStep.symCount = 0#9 := by
      rw [State.treeStep_symCount, alphabetSize_eq, h]
      rfl
    exact .inl ⟨rfl, hs.genCodes_treeStep hv ▸ genCodes_of_symCount_zero count⟩
  | [c] => exact .inr (.inl ⟨c, rfl, hs.genCodes_treeStep hv ▸ genCodes_of_singleton h⟩)
  | c :: d :: l =>
    refine .inr (.inr (exists_isCodeTree hs hv ?_))
    rw [alphabetSize_eq, h]
    simp

/-- Exactly the alphabet's symbols get codes, one each (R176). -/
theorem TablesOk.symbols_genCodes {s : State} (hs : TablesOk s) (hv : s.treeValid = true) :
    (s.genCodes.map Prod.fst).Perm (alphabet s.freq) := by
  obtain ⟨ha, hc⟩ | ⟨c, ha, hc⟩ | ⟨t, h⟩ := hs.genCodes_cases hv
  · rw [ha, hc]; rfl
  · rw [ha, hc]; rfl
  · exact h.symbols

/-- A code has 1 to 255 bits (R176). -/
theorem TablesOk.code_length {s : State} (hs : TablesOk s) (hv : s.treeValid = true)
    {e : Byte × Bits} (he : e ∈ s.genCodes) : 1 ≤ e.2.length ∧ e.2.length ≤ 255 := by
  obtain ⟨-, empty⟩ | ⟨c, -, single⟩ | ⟨t, h⟩ := hs.genCodes_cases hv
  · simp [empty] at he
  · rw [single, List.mem_singleton] at he
    simp [he]
  · obtain ⟨x, hx, rfl⟩ := h.mem_genCodes.mp he
    have leaves : 2 ≤ t.leaves.length := by
      rw [h.leaves.length_eq, List.length_range]
      exact h.size
    refine ⟨List.length_pos_of_ne_nil (CodeTree.path_ne_nil leaves hx),
      (CodeTree.length_of_mem_paths hx).trans ?_⟩
    simpa using h.length_internals_le

/-- No code begins another (R176). -/
theorem TablesOk.eq_of_code_prefix {s : State} (hs : TablesOk s) (hv : s.treeValid = true)
    {e e' : Byte × Bits} (he : e ∈ s.genCodes) (he' : e' ∈ s.genCodes) (hp : e.2 <+: e'.2) :
    e = e' := by
  obtain ⟨-, empty⟩ | ⟨c, -, single⟩ | ⟨t, h⟩ := hs.genCodes_cases hv
  · simp [empty] at he
  · rw [single, List.mem_singleton] at he he'
    rw [he, he']
  · obtain ⟨x, hx, rfl⟩ := h.mem_genCodes.mp he
    obtain ⟨y, hy, rfl⟩ := h.mem_genCodes.mp he'
    rw [CodeTree.eq_of_paths_prefix hx hy hp]

/-! ### The code tables (R172) -/

/-- The tables hold every code of the map exactly. -/
theorem TablesOk.codeStep_codeOf {s : State} (hs : TablesOk s) (hv : s.treeValid = true)
    {e : Byte × Bits} (he : e ∈ s.genCodes) : s.codeStep.codeOf e.1 = e.2 :=
  codeStep_codeOf_some s e.1 e.2
    (find_of_mem ((hs.symbols_genCodes hv).nodup_iff.mpr (nodup_alphabet _)) he)
    (hs.code_length hv he).2

/-- A symbol outside the alphabet has no code. -/
theorem TablesOk.codeStep_codeOf_absent {s : State} (hs : TablesOk s) (hv : s.treeValid = true)
    {c : Byte} (hc : c ∉ alphabet s.freq) : s.codeStep.codeOf c = [] := by
  refine codeStep_codeOf_none s c (List.lookup_eq_none_iff.mpr fun e he => bne_iff_ne.mpr ?_)
  rintro rfl
  exact hc ((hs.symbols_genCodes hv).subset (List.mem_map_of_mem he))

/-- The codes under CODE_VALID are those CODE_GEN writes (R37). -/
theorem TablesOk.codeOf_eq {s : State} (hs : TablesOk s) (hv : s.codeValid = true) (c : Byte) :
    s.codeOf c = s.codeStep.codeOf c := by
  obtain ⟨-, len, bits⟩ := hs.codes hv
  rw [State.codeOf, State.codeOf, hs.codeLenOf_eq hv, bits, State.codeStep_codeBits]

/-- Under CODE_VALID the alphabet's entries of the code map are what the tables hold. -/
theorem TablesOk.mem_genCodes_iff {s : State} (hs : TablesOk s) (hv : s.codeValid = true)
    {c : Byte} {p : Bits} : (c, p) ∈ s.genCodes ↔ c ∈ alphabet s.freq ∧ s.codeOf c = p := by
  obtain ⟨ht, -⟩ := hs.codes hv
  have code : ∀ {q}, (c, q) ∈ s.genCodes → s.codeOf c = q := fun he =>
    (hs.codeOf_eq hv c).trans (hs.codeStep_codeOf ht he)
  rw [← (hs.symbols_genCodes ht).mem_iff]
  constructor
  · exact fun he => ⟨List.mem_map_of_mem he, code he⟩
  · rintro ⟨hc, rfl⟩
    obtain ⟨⟨c, q⟩, he, rfl⟩ := List.mem_map.mp hc
    exact code he ▸ he

/-! ### CODE_GEN (R170) -/

theorem exec_codeGen_of_no_tree {s : State} (h : s.treeValid = false) :
    exec .codeGen s = .next (s.raise 0 noTree) := by
  simp [exec, execCodeGen, State.treeCheck, h]

/-- Settles O19: the one check, then the code-generation step. -/
theorem codeGenNeedsAValidTree : Obligations.CodeGenNeedsAValidTree := fun _ =>
  ⟨exec_codeGen_of_no_tree, fun h => ⟨_, exec_codeGen_of_treeValid h, rfl⟩⟩

/-- Under TREE_VALID exactly the existing nodes below L are leaves (R46). -/
theorem TablesOk.leaf_lt {s : State} (hs : TablesOk s) (hv : s.treeValid = true) {i : BitVec 9}
    (valid : (s.nodeAt i).valid = true) (leaf : (s.nodeAt i).internal = false) :
    i.toNat < alphabetSize s.freq := by
  obtain ⟨-, node, -⟩ := hs.tree hv
  by_cases hi : i.toNat < 511
  · rw [nodeAt_of_lt s i hi, node] at valid leaf
    rw [arena_valid, decide_eq_true_eq] at valid
    rw [arena_internal s.freq _ hi valid, decide_eq_false_iff_not] at leaf
    omega
  · simp [State.nodeAt, hi, Node.absent] at valid

@[simp] theorem State.codeOf_succeed (s : State) (n : Nat) (c : Byte) :
    (s.succeed n).codeOf c = s.codeOf c := rfl

/-- Settles O20: the leaf is a leaf of the built tree, and its code is its path there. -/
theorem codesAreTreePaths : Obligations.CodesAreTreePaths := by
  intro s u hs hv hcount hu i valid leaf
  obtain rfl : s.codeStep.succeed 0 = u := by
    simpa only [exec_codeGen_of_treeValid hv, Host.Outcome.next.injEq] using hu
  obtain ⟨-, node, count, root, -⟩ := hs.tree hv
  have hle := alphabetSize_le s.freq
  have hL : 2 ≤ alphabetSize s.freq := by
    rw [count, BitVec.toNat_ofNat] at hcount
    omega
  obtain ⟨t, h⟩ := exists_isCodeTree hs hv hL
  have mem : i.toNat ∈ t.leaves :=
    h.leaves.mem_iff.mpr (List.mem_range.mpr (hs.leaf_lt hv valid leaf))
  rw [← t.map_fst_paths [], List.mem_map] at mem
  obtain ⟨⟨j, p⟩, hx, rfl : j = i.toNat⟩ := mem
  have he : ((s.nodeAt i).symbol, p) ∈ s.genCodes :=
    h.mem_genCodes.mpr ⟨_, hx, by simp⟩
  obtain ⟨q, rfl, path⟩ := h.built.pathTo node (length_buildTree_le _) hx
  have start : s.root.index = BitVec.ofNat 9 t.root := by
    rw [root, rootOf, if_neg (by omega), h.root_eq]
  rw [State.codeOf_succeed, hs.codeStep_codeOf hv he, start]
  exact ⟨List.ne_nil_of_length_pos (hs.code_length hv he).1, by simpa using path⟩

/-- Settles O21: the codes are those of the code map, which the tree alone gives. -/
theorem codeTableIsPrefixFree : Obligations.CodeTableIsPrefixFree := by
  intro s hs hv
  obtain ⟨ht, len, bits⟩ := hs.codes hv
  have entry : ∀ {c}, s.freqOf c ≠ 0#32 → (c, s.codeOf c) ∈ s.genCodes := fun hc =>
    (hs.mem_genCodes_iff hv).mpr ⟨(mem_alphabet _ _).mpr hc, rfl⟩
  refine ⟨fun c => ?_, fun c d hc hd hp => ?_, fun u hu hv' node root count => ?_⟩
  · have present : 0 < (s.freqOf c).toNat ↔ s.freqOf c ≠ 0#32 := by
      rw [Nat.pos_iff_ne_zero, ne_eq, ne_eq, ← BitVec.toNat_inj, BitVec.toNat_zero]
    rw [← length_codeOf, present]
    refine ⟨fun hlen hc => ?_, fun hc => (hs.code_length ht (entry hc)).1⟩
    rw [hs.codeOf_eq hv, hs.codeStep_codeOf_absent ht fun h => (mem_alphabet _ _).mp h hc] at hlen
    simp at hlen
  · exact congrArg Prod.fst (hs.eq_of_code_prefix ht (entry hc) (entry hd) hp)
  · obtain ⟨-, len', bits'⟩ := hu.codes hv'
    rw [len, bits, len', bits', genCodes_congr node root count]
    exact ⟨rfl, rfl⟩

/-! ### Completeness (R178) -/

/-- The Kraft sum of the alphabet's codes is that of the tree's paths. -/
theorem TablesOk.kraft_alphabet {s : State} (hs : TablesOk s) (hv : s.codeValid = true)
    {t : CodeTree} (h : IsCodeTree s t) :
    ((alphabet s.freq).map fun c => 2 ^ (255 - s.codeLenOf c)).sum = 2 ^ 255 := by
  calc ((alphabet s.freq).map fun c => 2 ^ (255 - s.codeLenOf c)).sum
      = ((s.genCodes.map Prod.fst).map fun c => 2 ^ (255 - s.codeLenOf c)).sum :=
        (h.symbols.map _).sum_eq.symm
    _ = (s.genCodes.map fun e => 2 ^ (255 - e.2.length)).sum := by
        rw [List.map_map]
        refine congrArg List.sum (List.map_congr_left fun e he => ?_)
        obtain ⟨-, code⟩ := (hs.mem_genCodes_iff hv).mp he
        rw [Function.comp_apply, ← length_codeOf, code]
    _ = ((t.paths []).map fun x => 2 ^ (255 - x.2.length)).sum := by
        rw [h.codes, CodeTree.codes, List.map_map]
        rfl
    _ = 2 ^ 255 := t.kraft_sum [] (by simpa using h.length_internals_le)

/-- A sequence begins with exactly one code or stops inside one (R178). -/
theorem TablesOk.code_decides {s : State} (hs : TablesOk s) (hv : s.codeValid = true)
    {t : CodeTree} (h : IsCodeTree s t) (b : Bits) :
    (∃! c, c ∈ alphabet s.freq ∧ s.codeOf c <+: b)
      ∨ ∃ c ∈ alphabet s.freq, b <+: s.codeOf c ∧ b ≠ s.codeOf c := by
  obtain ⟨ht, -⟩ := hs.codes hv
  obtain ⟨x, hx, hb⟩ := t.exists_path_comparable [] b
  rw [List.nil_append] at hb
  obtain ⟨hc, code⟩ := (hs.mem_genCodes_iff hv).mp (h.mem_genCodes.mpr ⟨x, hx, rfl⟩)
  rw [← code] at hb
  by_cases hp : s.codeOf (s.nodeAt (BitVec.ofNat 9 x.1)).symbol <+: b
  · refine .inl ⟨_, ⟨hc, hp⟩, fun d ⟨hd, hp'⟩ => ?_⟩
    have ec := (hs.mem_genCodes_iff hv).mpr ⟨hc, rfl⟩
    have ed := (hs.mem_genCodes_iff hv).mpr ⟨hd, rfl⟩
    rcases List.prefix_or_prefix_of_prefix hp hp' with hcd | hdc
    · exact congrArg Prod.fst (hs.eq_of_code_prefix ht ec ed hcd).symm
    · exact congrArg Prod.fst (hs.eq_of_code_prefix ht ed ec hdc)
  · refine .inr ⟨_, hc, hb.resolve_left hp, ?_⟩
    rintro rfl
    exact hp List.prefix_rfl

/-- Settles O22: with two or more symbols the codes are the paths of a full tree. -/
theorem codeIsComplete : Obligations.CodeIsComplete := by
  intro s hs hv
  obtain ⟨ht, -⟩ := hs.codes hv
  refine ⟨fun hL => ?_, fun c ha => ?_, fun ha c => ?_⟩
  · obtain ⟨t, h⟩ := exists_isCodeTree hs ht (alphabetSize_eq _ ▸ hL)
    exact ⟨hs.kraft_alphabet hv h, hs.code_decides hv h⟩
  · have codes := hs.genCodes_treeStep ht ▸ genCodes_of_singleton ha
    exact ((hs.mem_genCodes_iff hv).mp (codes ▸ List.mem_singleton_self (c, [false]))).2
  · rw [hs.codeOf_eq hv, hs.codeStep_codeOf_absent ht (by simp [ha])]

end Sys2Proof.Machine
end

section
/-! SUPPORT. PACK (spec/44_bitstream_encoder.md R185 to R190): the check that fails first decides
the completion; when none fails, the payload of the input's stream is written from OBUF[0] on. -/

namespace Sys2Proof.Machine

/-! ### The input, offset by offset -/

theorem inputBytes_eq_map_inByte (s : State) :
    s.inputBytes = (List.range s.inputLen).map s.inByte := by
  rw [State.inputBytes, Memory.readBytes, List.range_eq_range']
  rfl

theorem stream_inputBytes (s : State) :
    s.stream s.inputBytes = (List.range s.inputLen).flatMap fun k => s.codeOf (s.inByte k) := by
  rw [inputBytes_eq_map_inByte, State.stream, List.flatMap_map]

theorem streamLen_inputBytes (s : State) :
    s.streamLen s.inputBytes
      = ((List.range s.inputLen).map fun k => s.codeLenOf (s.inByte k)).sum := by
  rw [inputBytes_eq_map_inByte, State.streamLen, List.map_map]
  rfl

/-- A sum over a byte list is one over the symbols, each as often as it occurs (R191). -/
theorem sum_map_eq_sumSymbols (b : List Byte) (g : Byte → Nat) :
    (b.map g).sum = sumSymbols fun c => b.count c * g c := by
  rw [sumSymbols, ← List.sum_toFinset _ nodup_symbols, Finset.sum_list_map_count]
  refine Finset.sum_subset (fun c _ => List.mem_toFinset.mpr (mem_symbols c)) fun c _ hc => ?_
  rw [List.count_eq_zero.mpr fun h => hc (List.mem_toFinset.mpr h), zero_smul]

/-! ### The check phase (R185, R189) -/

/-- The integrity check names the first byte without a code. -/
theorem firstMissing_eq_some {s : State} {b : List Byte} {k : Nat} (hk : k < b.length)
    (missing : s.codeLenOf b[k] = 0) (first : ∀ j (hj : j < k), s.codeLenOf b[j] ≠ 0) (o : Nat) :
    s.firstMissing o b = some (o + k) := by
  induction b generalizing k o with
  | nil => simp at hk
  | cons c b ih =>
    cases k with
    | zero => exact if_pos missing
    | succ k =>
      have later := ih (k := k) (by simpa using hk) missing
        (fun j hj => first (j + 1) (by omega)) (o + 1)
      have coded : s.codeLenOf c ≠ 0 := first 0 (Nat.succ_pos k)
      rw [State.firstMissing, if_neg coded, later, Nat.add_assoc, Nat.add_comm 1 k]

theorem integrityCheck_eq_some {s : State} {k : Nat} (hk : k < s.inputLen)
    (missing : s.codeLenOf (s.inByte k) = 0) (first : ∀ j < k, s.codeLenOf (s.inByte j) ≠ 0) :
    s.integrityCheck = some (missingCode k) := by
  have at_offset : s.firstMissing 0 s.inputBytes = some (0 + k) := by
    simp only [inputBytes_eq_map_inByte]
    exact firstMissing_eq_some (by simpa using hk) (by simpa using missing)
      (fun j hj => by simpa using first j hj) 0
  rw [State.integrityCheck, at_offset, Nat.zero_add]
  rfl

theorem integrityCheck_eq_none_of_inByte {s : State}
    (h : ∀ k < s.inputLen, s.codeLenOf (s.inByte k) ≠ 0) : s.integrityCheck = none := by
  rw [integrityCheck_eq_none]
  intro c hc
  obtain ⟨k, hk, rfl⟩ := (mem_inputBytes s c).mp hc
  exact h k hk

/-- An error completion with OUT_LEN 0, in the words of the claims (R247). -/
theorem raise_zero_eq_completed (s : State) (e : CmdError) :
    s.raise 0 e = s.completed 0#32 e.code (infoOf e.reason e.value) := rfl

/-- A failed check completes PACK with its error. -/
theorem exec_pack_of_check_some {s : State} {e : CmdError} (h : s.packCheck = some e) :
    exec .pack s = .next (s.completed 0#32 e.code (infoOf e.reason e.value)) := by
  rw [← raise_zero_eq_completed, exec, execPack, h]

theorem exec_pack_of_check_none {s : State} (h : s.packCheck = none) :
    exec .pack s = .next ((s.packStep 0 s.inputBytes).succeed
      (1 + packedLen (s.streamLen s.inputBytes))) := by
  rw [exec, execPack, h]

/-- Settles O24: in each clause the checks before the failing one pass. -/
theorem packChecksInOrder : Obligations.PackChecksInOrder := by
  rintro s m rfl
  rw [← streamLen_inputBytes]
  refine ⟨fun hv => ?_, fun hv hn => ?_, fun hv hn k hk missing first => ?_,
    fun hv hn hcodes hm => ?_⟩
  · have codes : s.codesCheck = some noCodes := by simp [State.codesCheck, hv]
    exact exec_pack_of_check_some (e := noCodes) (by rw [packCheck_eq, codes]; rfl)
  · exact exec_pack_of_check_some (e := inLenTooLarge s.inputLen) (by
      rw [packCheck_eq, (codesCheck_eq_none s).mpr hv, rangeCheck_of_lt hn]; rfl)
  · exact exec_pack_of_check_some (e := missingCode k) (by
      rw [packCheck_eq, (codesCheck_eq_none s).mpr hv, (rangeCheck_eq_none s).mpr hn,
        integrityCheck_eq_some hk missing first]; rfl)
  · have full : s.packCapacityCheck
        = some (outputFull (1 + packedLen (s.streamLen s.inputBytes))) := if_pos hm
    exact exec_pack_of_check_some
      (e := outputFull (1 + packedLen (s.streamLen s.inputBytes))) (by
        rw [packCheck_eq, (codesCheck_eq_none s).mpr hv, (rangeCheck_eq_none s).mpr hn,
          integrityCheck_eq_none_of_inByte hcodes, full]; rfl)

/-! ### The run phase (R187, R188) -/

@[simp] theorem outByte_succeed (s : State) (n a : Nat) :
    (s.succeed n).outByte a = s.outByte a := rfl

/-- Output byte a after the packing step at offset o: a payload byte, or the byte it was. -/
theorem outByte_packStep {s : State} (h : Memory.wf s.obuf = true) (o : Nat) (b : List Byte)
    (a : Nat) :
    (s.packStep o b).outByte a
      = if o ≤ a ∧ a < o + (1 + packedLen (s.stream b).length) then
          (payload (s.stream b)).getD (a - o) 0#8
        else s.outByte a := by
  rw [State.outByte, State.packStep_obuf, Memory.read_writeBytes _ _ _ _ h, length_payload]
  rfl

/-- The byte at the offset is the pad count (R187). -/
theorem toNat_outByte_packStep_pad {s : State} (h : Memory.wf s.obuf = true) (o : Nat)
    (b : List Byte) : ((s.packStep o b).outByte o).toNat = padOf (s.stream b).length := by
  have hpad := padOf_le (s.stream b).length
  rw [outByte_packStep h, if_pos (by omega), Nat.sub_self]
  exact Nat.mod_eq_of_lt (by omega)

/-- Stream bit 8j + i is bit 7 − i of the byte j after the pad count (R63, R187). -/
theorem getLsbD_outByte_packStep {s : State} (h : Memory.wf s.obuf = true) (o : Nat)
    (b : List Byte) {j i : Nat} (hj : j < packedLen (s.stream b).length) (hi : i < 8) :
    ((s.packStep o b).outByte (o + (1 + j))).getLsbD (7 - i)
      = (s.stream b).getD (8 * j + i) false := by
  have packed : (packBits (s.stream b)).getD j 0#8
      = (packBits (s.stream b))[j]'(by simpa using hj) := List.getD_eq_getElem _ _ _
  rw [outByte_packStep h, if_pos (by omega), Nat.add_sub_cancel_left, Nat.add_comm 1 j, payload,
    List.getD_cons_succ, packed, getLsbD_packBits _ _ _ hj hi]

theorem outByte_packStep_above {s : State} (h : Memory.wf s.obuf = true) (o : Nat) (b : List Byte)
    {a : Nat} (ha : o + (1 + packedLen (s.stream b).length) ≤ a) :
    (s.packStep o b).outByte a = s.outByte a := by
  rw [outByte_packStep h, if_neg (by omega)]

/-- Settles O25: the checks pass, and the packing step writes the payload from OBUF[0] on. -/
theorem packWritesThePaddedStream : Obligations.PackWritesThePaddedStream := by
  rintro s t' nbytes hs hv hn hcodes ht rfl hcap
  obtain rfl := ht.trans (stream_inputBytes s).symm
  have hlen := length_stream s s.inputBytes
  have hpad := padOf_le (s.stream s.inputBytes).length
  have total := padOf_add (s.stream s.inputBytes).length
  have buffer := bufBytes_le s
  have passed : s.packCheck = none := by
    rw [packCheck_eq_none, ← hlen]
    exact ⟨hv, hn, (integrityCheck_eq_none s).mp (integrityCheck_eq_none_of_inByte hcodes), hcap⟩
  have pad : ((s.packStep 0 s.inputBytes).outByte 0).toNat
      = padOf (s.stream s.inputBytes).length := toNat_outByte_packStep_pad hs.obufWf 0 _
  have run := exec_pack_of_check_none passed
  rw [← hlen] at run
  refine ⟨_, run, rfl, ?_, ?_, ?_, ?_, ?_, fun j hj i hi => ?_, fun a ha => ?_⟩
  · simp only [hlen, State.streamLen, sum_map_eq_sumSymbols, count_inputBytes]
  · rw [outByte_succeed, pad]
    change 8 * packedLen _ - _ = _
    omega
  · rw [outByte_succeed, pad]
    exact hpad
  · rw [outByte_succeed, pad, State.succeed_padCount, State.packStep_padCount]
    exact Nat.mod_eq_of_lt (by omega)
  · rw [State.succeed_totalBits, State.packStep_totalBits]
    exact Nat.mod_eq_of_lt (by omega)
  · simpa using getLsbD_outByte_packStep hs.obufWf 0 s.inputBytes hj hi
  · exact outByte_packStep_above hs.obufWf 0 _ (by rwa [Nat.zero_add])

end Sys2Proof.Machine
end

section
/-! SUPPORT. The encoded bit length (spec/44_bitstream_encoder.md R191): under the code table of the
counts of the input itself, the packed length is the weighted path length of the tree, which is at
most eight times the number of bytes. -/

namespace Sys2Proof.Machine

/-! ### The weighted code length -/

/-- No code table spends more than 8 bits an occurrence: the internal nodes weigh that little. -/
theorem TablesOk.weighted_codeLen_le {s : State} (hs : TablesOk s) (hv : s.codeValid = true) :
    sumSymbols (fun c => (s.freqOf c).toNat * s.codeLenOf c) ≤ 8 * weightSum s.freq := by
  obtain ⟨-, single, -⟩ := codeIsComplete s hs hv
  have present : sumSymbols (fun c => (s.freqOf c).toNat * s.codeLenOf c)
      = ((alphabet s.freq).map fun c => (s.freqOf c).toNat * s.codeLenOf c).sum :=
    sumSymbols_eq_alphabet fun c hc => by simp [State.freqOf, hc]
  match ha : alphabet s.freq with
  | [] => simp [present, ha]
  | [c] =>
    have one : s.codeLenOf c = 1 := by rw [← length_codeOf, single c ha]; rfl
    have weight : weightSum s.freq = ((alphabet s.freq).map fun c => (s.freqOf c).toNat).sum :=
      (weightSum_eq_sumSymbols _).trans (sumSymbols_eq_alphabet fun d hd => by rw [hd]; rfl)
    rw [present, weight, ha]
    simp only [List.map_cons, List.map_nil, List.sum_cons, List.sum_nil, one]
    omega
  | c :: d :: l =>
    have two : 2 ≤ (alphabet s.freq).length := by simp [ha]
    rw [weightedPathLengthIsInternalWeight s hs hv two, ← alphabetSize_eq]
    exact internal_weight_le s.freq

/-- The stream of b under the code table of b's own counts (R191). -/
theorem TablesOk.streamLen_of_counts {s : State} (hs : TablesOk s) (hv : s.codeValid = true)
    {b : List Byte} (counts : ∀ c, (s.freqOf c).toNat = b.count c) :
    s.streamLen b = sumSymbols (fun c => (s.freqOf c).toNat * s.codeLenOf c)
      ∧ s.streamLen b ≤ 8 * b.length := by
  have law : s.streamLen b = sumSymbols fun c => (s.freqOf c).toNat * s.codeLenOf c := by
    simp only [State.streamLen, sum_map_eq_sumSymbols, counts]
  have weight : weightSum s.freq = b.length := by
    rw [weightSum_eq_sumSymbols, ← sumSymbols_count b]
    exact congrArg sumSymbols (funext counts)
  exact ⟨law, by rw [law, ← weight]; exact hs.weighted_codeLen_le hv⟩

/-! ### What a success means -/

/-- A PACK without an error passed its checks and packed. -/
theorem exec_pack_noError {s t : State} (h : exec .pack s = .next t) (ok : t.errCode = .noError) :
    s.packCheck = none
      ∧ t = (s.packStep 0 s.inputBytes).succeed (1 + packedLen (s.streamLen s.inputBytes)) := by
  cases check : s.packCheck with
  | some e =>
    rw [exec_pack_of_check_some check] at h
    cases h
    exact absurd ok (packCheck_shown check).1
  | none =>
    rw [exec_pack_of_check_none check] at h
    cases h
    exact ⟨rfl, rfl⟩

/-- An ENCODE without an error had an input in range and wrote its Container. -/
theorem exec_encode_noError {s t : State} (h : exec .encode s = .next t)
    (ok : t.errCode = .noError) :
    s.inputLen ≤ s.params.bufBytes
      ∧ t = (s.encodeTables.writeContainer s.inputBytes).succeed s.containerLen := by
  rw [exec, execEncode] at h
  cases check : s.rangeCheck with
  | some e =>
    rw [check] at h
    cases h
    exact absurd ok (rangeCheck_shown check).1
  | none =>
    rw [check] at h
    by_cases full : s.containerLen > s.params.bufBytes
    · simp only [if_pos full] at h
      cases h
      cases ok
    · simp only [if_neg full] at h
      cases h
      exact ⟨(rangeCheck_eq_none s).mp check, rfl⟩

/-! ### ENCODE's tables (R221) -/

theorem tablesOk_encodeTables {s : State} (hn : s.inputLen ≤ s.params.bufBytes) :
    TablesOk s.encodeTables := by
  have weight := weightSum_freqTable_le s.inputBytes
  have buffer := bufBytes_le s
  rw [length_inputBytes] at weight
  exact tablesOk_pipeline s (by omega)

/-- The packing step of ENCODE presents the stream under the new code table. -/
@[simp] theorem writeContainer_totalBits (s : State) (b : List Byte) :
    (s.writeContainer b).totalBits = BitVec.ofNat 32 (s.streamLen b) := by
  rw [← length_stream]
  rfl

/-- The length of such a stream fits the word both commands leave in TOTAL_BITS (R34, R191). -/
theorem bitLengthLaw_of_counts {u : State} {b : List Byte} (hu : TablesOk u)
    (hv : u.codeValid = true) (counts : ∀ c, (u.freqOf c).toNat = b.count c)
    (hb : b.length ≤ u.params.bufBytes) :
    (BitVec.ofNat 32 (u.streamLen b)).toNat
        = sumSymbols (fun c => (u.freqOf c).toNat * u.codeLenOf c)
      ∧ (BitVec.ofNat 32 (u.streamLen b)).toNat ≤ 8 * b.length := by
  obtain ⟨law, le⟩ := hu.streamLen_of_counts hv counts
  have buffer := bufBytes_le u
  have fits : (BitVec.ofNat 32 (u.streamLen b)).toNat = u.streamLen b :=
    Nat.mod_eq_of_lt (by omega)
  rw [fits]
  exact ⟨law, le⟩

/-- Settles O32: PACK's table is of the input's counts by hypothesis, ENCODE's by construction. -/
theorem encodedBitLengthLaw : Obligations.EncodedBitLengthLaw := by
  rintro i s t (rfl | rfl) hs counts h ok
  · obtain ⟨passed, rfl⟩ := exec_pack_noError h ok
    obtain ⟨hv, hn, -⟩ := (packCheck_eq_none s).mp passed
    rw [← length_inputBytes] at hn
    rw [State.succeed_totalBits, State.packStep_totalBits, length_stream, ← length_inputBytes]
    exact bitLengthLaw_of_counts hs hv
      (fun c => (counts rfl c).trans (count_inputBytes s c).symm) hn
  · obtain ⟨hn, rfl⟩ := exec_encode_noError h ok
    have tables := tablesOk_encodeTables hn
    rw [← length_inputBytes] at hn
    rw [State.succeed_totalBits, writeContainer_totalBits, ← length_inputBytes]
    exact bitLengthLaw_of_counts tables rfl (toNat_bySymbol_freqTable s) hn

end Sys2Proof.Machine
end

section
/-! SUPPORT. The decoder's walk under valid tables (spec/45_bitstream_decoder.md R203 to R206): it
emits the symbols of the codes the stream begins with, and what it ends with is decided by the rest,
which no code begins. -/

namespace Sys2Proof.Machine

/-! ### The codes as paths the walk takes (R171, R204) -/

theorem pathTo_append {node : BitVec 9 → Node} {i j : BitVec 9} {p q : Bits} :
    PathTo node i (p ++ q) j ↔ ∃ m, PathTo node i p m ∧ PathTo node m q j := by
  induction p generalizing i with
  | nil => simp [PathTo]
  | cons b p ih => simp [PathTo, ih, and_assoc]

theorem internal_of_pathTo {node : BitVec 9 → Node} {i j : BitVec 9} {p : Bits} (hp : p ≠ [])
    (h : PathTo node i p j) : (node i).internal = true := by
  cases p with
  | nil => exact absurd rfl hp
  | cons b p => exact h.1

theorem TablesOk.toNat_symCount {s : State} (hs : TablesOk s) (hv : s.treeValid = true) :
    s.symCount.toNat = (alphabet s.freq).length := by
  obtain ⟨-, -, count, -⟩ := hs.tree hv
  have hle := alphabetSize_le s.freq
  rw [count, ← alphabetSize_eq]
  exact Nat.mod_eq_of_lt (by omega)

/-- With two or more symbols, a leaf reached when OBUF is full is CAPACITY. -/
theorem walk_leaf_of_full {s : State} {n : Option Nat} (hL : 2 ≤ s.symCount.toNat)
    {out : List Byte} (hn : n ≠ some out.length) {cur : Option (BitVec 9)} {b : Bool} {j : BitVec 9}
    (leaf : (s.nodeAt j).internal = false)
    (edge : PathTo s.nodeAt (cur.getD s.root.index) [b] j) (t : Bits) (k d : Nat) :
    s.walk n out.length (b :: t) k cur d out
      = ⟨out, some (outputFull (out.length + 1))⟩ := by
  obtain ⟨-, rfl⟩ := edge
  have not_none : s.symCount.toNat ≠ 0 := by omega
  have not_single : s.symCount.toNat ≠ 1 := by omega
  simp [State.walk, hn, not_none, not_single, leaf]

/-! ### How a stream can end (R204 to R206) -/

/-- No present symbol's code begins the sequence: the candidate it leaves matches none (R204). -/
def State.Unmatched (s : State) (rest : Bits) : Prop :=
  ∀ c, s.freqOf c ≠ 0#32 → ¬ s.codeOf c <+: rest

/-- How a walk with no expected count, of OBUF size cap, can end on the stream t (R203 to R206). -/
inductive Decoded (s : State) (cap : Nat) (t : Bits) : WalkResult → Prop where
  | success {b : List Byte} (present : ∀ c ∈ b, s.freqOf c ≠ 0#32) (fits : b.length ≤ cap)
      (codes : s.codesOf b = t) : Decoded s cap t ⟨b, none⟩
  | leftover {b : List Byte} {rest : Bits} (present : ∀ c ∈ b, s.freqOf c ≠ 0#32)
      (fits : b.length ≤ cap) (codes : s.codesOf b ++ rest = t) (unmatched : s.Unmatched rest)
      (hne : rest ≠ []) (many : 2 ≤ (alphabet s.freq).length) :
      Decoded s cap t ⟨b, some (leftover rest.length)⟩
  | deadEnd {b : List Byte} {rest : Bits} (present : ∀ c ∈ b, s.freqOf c ≠ 0#32)
      (fits : b.length ≤ cap) (codes : s.codesOf b ++ rest = t) (unmatched : s.Unmatched rest)
      (hne : rest ≠ []) (few : (alphabet s.freq).length ≤ 1) :
      Decoded s cap t ⟨b, some (deadEnd (s.codesOf b).length)⟩
  | full {b : List Byte} {c : Byte} {rest : Bits} (present : ∀ c ∈ b, s.freqOf c ≠ 0#32)
      (next : s.freqOf c ≠ 0#32) (full : b.length = cap)
      (codes : s.codesOf (b ++ [c]) ++ rest = t) :
      Decoded s cap t ⟨b, some (outputFull (cap + 1))⟩

/-! ### The codes under valid tables -/

section ValidTables

variable {s : State} (hs : TablesOk s) (hv : s.codeValid = true)

include hs hv

theorem TablesOk.toNat_symCount_of_codes : s.symCount.toNat = (alphabet s.freq).length :=
  hs.toNat_symCount (hs.codes hv).1

/-- A present symbol's code is the map's entry for it. -/
theorem TablesOk.entry_of_present {c : Byte} (hc : s.freqOf c ≠ 0#32) :
    (c, s.codeOf c) ∈ s.genCodes :=
  (hs.mem_genCodes_iff hv).mpr ⟨(mem_alphabet _ _).mpr hc, rfl⟩

theorem TablesOk.codeOf_ne_nil {c : Byte} (hc : s.freqOf c ≠ 0#32) : s.codeOf c ≠ [] :=
  List.ne_nil_of_length_pos (hs.code_length (hs.codes hv).1 (hs.entry_of_present hv hc)).1

/-- With one symbol, it is the root's, and its code is "0" (R173). -/
theorem TablesOk.code_of_single (hL : s.symCount.toNat = 1) {c : Byte} (hc : s.freqOf c ≠ 0#32) :
    s.codeOf c = [false] ∧ (s.nodeAt s.root.index).symbol = c := by
  have entry := hs.entry_of_present hv hc
  rw [genCodes_of_symCount_one (BitVec.eq_of_toNat_eq hL), List.mem_singleton, Prod.mk.injEq]
    at entry
  exact ⟨entry.2, entry.1.symm⟩

/-- With two or more symbols, a code is the path to its symbol's leaf (R171). -/
theorem TablesOk.pathTo_codeOf (hL : 2 ≤ s.symCount.toNat) {c : Byte} (hc : s.freqOf c ≠ 0#32) :
    ∃ j, PathTo s.nodeAt s.root.index (s.codeOf c) j ∧ (s.nodeAt j).internal = false
      ∧ (s.nodeAt j).symbol = c := by
  obtain ⟨ht, -⟩ := hs.codes hv
  obtain ⟨-, -, -, root, -⟩ := hs.tree ht
  rw [hs.toNat_symCount ht, ← alphabetSize_eq] at hL
  obtain ⟨t, h⟩ := exists_isCodeTree hs ht hL
  obtain ⟨x, hx, he⟩ := h.mem_genCodes.mp (hs.entry_of_present hv hc)
  obtain ⟨symbol, code⟩ := Prod.mk.inj he
  obtain ⟨q, hq, path⟩ := h.built.pathTo h.node (length_buildTree_le _) hx
  have start : s.root.index = BitVec.ofNat 9 t.root := by
    rw [root, rootOf, if_neg (by omega), h.root_eq]
  have leaf : x.1 < (alphabet s.freq).length := by
    rw [← alphabetSize_eq, ← List.mem_range, ← h.leaves.mem_iff, ← t.map_fst_paths []]
    exact List.mem_map_of_mem hx
  refine ⟨BitVec.ofNat 9 x.1, ?_, ?_, symbol⟩
  · rw [start, ← code, hq]
    exact path
  · rw [nodeAt_arenaTable h.node (length_buildTree_le _) (getElem?_buildTree_leaf s.freq x.1 leaf)]
    rfl

/-! ### One code (R203) -/

theorem TablesOk.one_or_many_of_present {c : Byte} (hc : s.freqOf c ≠ 0#32) :
    s.symCount.toNat = 1 ∨ 2 ≤ s.symCount.toNat := by
  have pos := List.length_pos_of_mem ((mem_alphabet s.freq c).mpr hc)
  rw [hs.toNat_symCount_of_codes hv]
  omega

/-- The bits of a present symbol's code emit it and start a new candidate. -/
theorem TablesOk.walk_code {n : Option Nat} {cap : Nat} {c : Byte} (hc : s.freqOf c ≠ 0#32)
    {out : List Byte} (hn : n ≠ some out.length) (room : out.length ≠ cap) (t : Bits) (k d : Nat) :
    s.walk n cap (s.codeOf c ++ t) k none d out
      = s.walk n cap t (k + (s.codeOf c).length) none 0 (out ++ [c]) := by
  obtain single | many := hs.one_or_many_of_present hv hc
  · obtain ⟨code, symbol⟩ := hs.code_of_single hv single hc
    rw [code]
    exact (walk_single s n cap single t k none d out hn room).trans (by rw [symbol]; rfl)
  · obtain ⟨j, path, leaf, symbol⟩ := hs.pathTo_codeOf hv many hc
    rw [walk_path s n cap many _ t k none d out j hn room (hs.codeOf_ne_nil hv hc) leaf path,
      symbol]

/-- The bits of a present symbol's code raise CAPACITY when OBUF is full. -/
theorem TablesOk.walk_code_of_full {n : Option Nat} {c : Byte} (hc : s.freqOf c ≠ 0#32)
    {out : List Byte} (hn : n ≠ some out.length) (t : Bits) (k d : Nat) :
    s.walk n out.length (s.codeOf c ++ t) k none d out
      = ⟨out, some (outputFull (out.length + 1))⟩ := by
  obtain single | many := hs.one_or_many_of_present hv hc
  · rw [(hs.code_of_single hv single hc).1]
    simp [State.walk, hn, single]
  · obtain ⟨j, path, leaf, -⟩ := hs.pathTo_codeOf hv many hc
    obtain code | ⟨q, b, code⟩ := (s.codeOf c).eq_nil_or_concat'
    · exact absurd code (hs.codeOf_ne_nil hv hc)
    obtain ⟨m, path, edge⟩ := pathTo_append.mp (code ▸ path)
    rw [code, List.append_assoc, List.singleton_append]
    cases q with
    | nil => exact walk_leaf_of_full many hn leaf (path ▸ edge) t k d
    | cons b' q =>
      rw [walk_inside s n _ many _ _ k none d out m hn (List.cons_ne_nil b' q)
        (internal_of_pathTo (List.cons_ne_nil b []) edge) path]
      exact walk_leaf_of_full (cur := some m) many hn leaf edge t _ _

/-! ### A whole stream -/

/-- The codes of present symbols emit them one by one while N and OBUF have room. -/
theorem TablesOk.walk_codes {n : Option Nat} {cap : Nat} {b : List Byte}
    (present : ∀ c ∈ b, s.freqOf c ≠ 0#32) {out : List Byte}
    (wanted : ∀ N, n = some N → out.length + b.length ≤ N) (room : out.length + b.length ≤ cap)
    (t : Bits) (k : Nat) :
    s.walk n cap (s.codesOf b ++ t) k none 0 out
      = s.walk n cap t (k + (s.codesOf b).length) none 0 (out ++ b) := by
  induction b generalizing k out with
  | nil => simp [State.codesOf]
  | cons c b ih =>
    obtain ⟨hc, hb⟩ := List.forall_mem_cons.mp present
    rw [List.length_cons] at room
    have hn : n ≠ some out.length := fun h => by
      have := wanted _ h
      rw [List.length_cons] at this
      omega
    rw [State.codesOf, List.flatMap_cons, List.append_assoc,
      hs.walk_code hv hc hn (by omega)]
    refine (ih hb (fun N h => ?_) (by simp; omega) _).trans ?_
    · have := wanted N h
      simp only [List.length_cons, List.length_append, List.length_nil] at this ⊢
      omega
    · simp [State.codesOf, Nat.add_assoc]

/-- Every stream is the codes of some present symbols and an unmatched rest. -/
theorem TablesOk.exists_codesOf_append (t : Bits) :
    ∃ b rest, (∀ c ∈ b, s.freqOf c ≠ 0#32) ∧ s.codesOf b ++ rest = t ∧ s.Unmatched rest := by
  induction hlen : t.length using Nat.strong_induction_on generalizing t with
  | _ l ih =>
    by_cases h : s.Unmatched t
    · exact ⟨[], t, by simp, rfl, h⟩
    · simp only [State.Unmatched, not_forall, not_not] at h
      obtain ⟨c, hc, t, rfl⟩ := h
      have pos := List.length_pos_of_ne_nil (hs.codeOf_ne_nil hv hc)
      rw [List.length_append] at hlen
      obtain ⟨b, rest, hb, rfl, unmatched⟩ := ih t.length (by omega) t rfl
      exact ⟨c :: b, rest, List.forall_mem_cons.mpr ⟨hc, hb⟩, by simp [State.codesOf], unmatched⟩

/-- With two or more symbols an unmatched rest stops in the tree: LEFTOVER, its length (R206). -/
theorem TablesOk.walk_leftover {n : Option Nat} {cap : Nat} (hL : 2 ≤ (alphabet s.freq).length)
    {rest : Bits} (unmatched : s.Unmatched rest) (hne : rest ≠ []) {out : List Byte}
    (hn : n ≠ some out.length) (k : Nat) :
    s.walk n cap rest k none 0 out = ⟨out, some (leftover rest.length)⟩ := by
  obtain ⟨decides, -⟩ := codeIsComplete s hs hv
  obtain ⟨c, ⟨hc, begins⟩, -⟩ | ⟨c, hc, ⟨q, hq⟩, ne⟩ := (decides hL).2 rest
  · exact absurd begins (unmatched c ((mem_alphabet _ _).mp hc))
  · rw [← hs.toNat_symCount_of_codes hv] at hL
    obtain ⟨j, path, -⟩ := hs.pathTo_codeOf hv hL ((mem_alphabet _ _).mp hc)
    obtain ⟨m, path, continues⟩ := pathTo_append.mp (hq ▸ path)
    have hq' : q ≠ [] := by
      rintro rfl
      exact ne (by simpa using hq)
    have inside := walk_inside s n cap hL rest [] k none 0 out m hn hne
      (internal_of_pathTo hq' continues) path
    rw [List.append_nil] at inside
    rw [inside, Nat.zero_add]
    rfl

/-- With one symbol an unmatched rest begins with a 1 bit. -/
theorem TablesOk.head?_unmatched (hL : (alphabet s.freq).length = 1) {rest : Bits}
    (unmatched : s.Unmatched rest) (hne : rest ≠ []) : rest.head? = some true := by
  obtain ⟨c, ha⟩ := List.length_eq_one_iff.mp hL
  have hc : s.freqOf c ≠ 0#32 := (mem_alphabet _ _).mp (ha ▸ List.mem_singleton_self c)
  obtain ⟨-, single, -⟩ := codeIsComplete s hs hv
  match rest with
  | true :: rest => rfl
  | false :: rest => exact absurd (by simp [single c ha]) (unmatched c hc)

/-- With at most one symbol an unmatched rest is a dead end at its first bit (R205). -/
theorem TablesOk.walk_deadEnd {n : Option Nat} {cap : Nat} (hL : (alphabet s.freq).length ≤ 1)
    {rest : Bits} (unmatched : s.Unmatched rest) (hne : rest ≠ []) {out : List Byte}
    (hn : n ≠ some out.length) (k : Nat) :
    s.walk n cap rest k none 0 out = ⟨out, some (deadEnd k)⟩ := by
  have count := hs.toNat_symCount_of_codes hv
  obtain ⟨x, rest, rfl⟩ := List.exists_cons_of_ne_nil hne
  obtain empty | single : (alphabet s.freq).length = 0 ∨ (alphabet s.freq).length = 1 := by omega
  · rw [empty] at count
    simp [State.walk, hn, count]
  · obtain rfl : x = true := by simpa using hs.head?_unmatched hv single unmatched hne
    rw [single] at count
    simp [State.walk, hn, count]

/-- The walk with no expected count ends in one of the four ways. -/
theorem TablesOk.walk_decoded (cap : Nat) (t : Bits) :
    Decoded s cap t (s.walk none cap t 0 none 0 []) := by
  obtain ⟨b, rest, present, rfl, unmatched⟩ := hs.exists_codesOf_append hv t
  by_cases fits : b.length ≤ cap
  · rw [hs.walk_codes hv present (by simp) (by simpa using fits), List.nil_append, Nat.zero_add]
    by_cases hne : rest = []
    · subst hne
      exact .success present fits (List.append_nil _).symm
    by_cases many : 2 ≤ (alphabet s.freq).length
    · rw [hs.walk_leftover hv many unmatched hne (by simp)]
      exact .leftover present fits rfl unmatched hne many
    · rw [hs.walk_deadEnd hv (by omega) unmatched hne (by simp)]
      exact .deadEnd present fits rfl unmatched hne (by omega)
  · obtain ⟨first, c, others, rfl, rfl⟩ : ∃ first c others, b = first ++ c :: others
        ∧ first.length = cap :=
      ⟨b.take cap, b[cap]'(by omega), b.drop (cap + 1), by simp, by simp; omega⟩
    rw [List.forall_mem_append, List.forall_mem_cons] at present
    obtain ⟨hfirst, hc, -⟩ := present
    have split : s.codesOf (first ++ c :: others) ++ rest
        = s.codesOf first ++ (s.codeOf c ++ (s.codesOf others ++ rest)) := by
      simp [State.codesOf]
    rw [split, hs.walk_codes hv hfirst (by simp) (by simp), List.nil_append,
      hs.walk_code_of_full hv hc (by simp)]
    exact .full hfirst hc rfl (rest := s.codesOf others ++ rest) (by simp [State.codesOf])

end ValidTables

end Sys2Proof.Machine
end

section
/-! SUPPORT. UNPACK (spec/45_bitstream_decoder.md R200 to R207): the check that fails first decides
the completion; when none fails, the walk's symbols are in OBUF and its end is the completion. -/

namespace Sys2Proof.Machine

/-! ### The check phase (R200, R201) -/

/-- A failed check completes UNPACK with its error. -/
theorem exec_unpack_of_check_some {s : State} {e : CmdError} (h : s.unpackCheck = some e) :
    exec .unpack s = .next (s.completed 0#32 e.code (infoOf e.reason e.value)) := by
  rw [← raise_zero_eq_completed, exec, execUnpack, h]

/-- Settles O26: in each clause the checks before the failing one pass. -/
theorem unpackChecksInOrder : Obligations.UnpackChecksInOrder := by
  intro s
  refine ⟨fun hv => ?_, fun hv hn => ?_, fun hv h0 => ?_, fun hv h0 hn => ⟨fun hp => ?_,
    fun hp hm => ?_⟩⟩
  · have codes : s.codesCheck = some noCodes := by simp [State.codesCheck, hv]
    exact exec_unpack_of_check_some (e := noCodes) (by rw [unpackCheck_eq, codes]; rfl)
  · exact exec_unpack_of_check_some (e := inLenTooLarge s.inputLen) (by
      rw [unpackCheck_eq, (codesCheck_eq_none s).mpr hv, rangeCheck_of_lt hn]; rfl)
  · have header : s.headerCheck = some noHeader := if_pos h0
    exact exec_unpack_of_check_some (e := noHeader) (by
      rw [unpackCheck_eq, (codesCheck_eq_none s).mpr hv, (rangeCheck_eq_none s).mpr (by omega),
        header]; rfl)
  · have pad : s.padCheck 0 (s.inputLen - 1) = some (padRange (s.inByte 0)) := if_pos hp
    exact exec_unpack_of_check_some (e := padRange (s.inByte 0)) (by
      rw [unpackCheck_eq, (codesCheck_eq_none s).mpr hv, (rangeCheck_eq_none s).mpr hn,
        (headerCheck_eq_none s).mpr (by omega), pad]; rfl)
  · have pad : s.padCheck 0 (s.inputLen - 1) = some (padExceeds (s.inByte 0)) :=
      (if_neg (Nat.not_lt.mpr hp)).trans (if_pos hm)
    exact exec_unpack_of_check_some (e := padExceeds (s.inByte 0)) (by
      rw [unpackCheck_eq, (codesCheck_eq_none s).mpr hv, (rangeCheck_eq_none s).mpr hn,
        (headerCheck_eq_none s).mpr (by omega), pad]; rfl)

/-! ### The end of a walk (R203) -/

/-- The ERR_CODE a walk completes with. -/
def WalkResult.errCode (r : WalkResult) : ErrCode := (r.error.map CmdError.code).getD .noError

/-- The ERR_INFO a walk completes with. -/
def WalkResult.errInfo (r : WalkResult) : ErrInfo :=
  (r.error.map fun e => infoOf e.reason e.value).getD noInfo

theorem finishWalk_eq_completed (s : State) (r : WalkResult) :
    s.finishWalk r
      = (s.storeOutput r.out).completed (BitVec.ofNat 32 r.out.length) r.errCode r.errInfo := by
  obtain ⟨out, error⟩ := r
  cases error <;> rfl

/-- Where a walk can end: at the stream's end, or at one of the three stops inside it (R203). -/
inductive WalkStop (n : Option Nat) (cap : Nat) : WalkResult → Prop where
  | streamEnd (cur : Option (BitVec 9)) (d : Nat) (out : List Byte) :
      WalkStop n cap (walkEnd n cur d out)
  | trailing {out : List Byte} (k : Nat) (enough : n = some out.length) :
      WalkStop n cap ⟨out, some (trailing k)⟩
  | deadEnd (out : List Byte) (k : Nat) : WalkStop n cap ⟨out, some (deadEnd k)⟩
  | full {out : List Byte} (full : out.length = cap) :
      WalkStop n cap ⟨out, some (outputFull (cap + 1))⟩

/-- Every walk ends there: at each bit it stops or goes on with the rest of the stream. -/
theorem walk_stops (s : State) (n : Option Nat) (cap : Nat) (t : Bits) (k : Nat)
    (cur : Option (BitVec 9)) (d : Nat) (out : List Byte) :
    WalkStop n cap (s.walk n cap t k cur d out) := by
  induction t generalizing k cur d out with
  | nil => exact .streamEnd cur d out
  | cons x t ih =>
    have emit : ∀ c : Byte, WalkStop n cap (if out.length = cap then
        ⟨out, some (outputFull (cap + 1))⟩ else s.walk n cap t (k + 1) none 0 (out ++ [c])) := by
      intro c
      split
      next full => exact .full full
      next => exact ih _ _ _ _
    rw [State.walk]
    split
    next enough => exact .trailing k enough
    split
    next => exact .deadEnd out k
    split
    next =>
      split
      next => exact .deadEnd out k
      next => exact emit _
    next =>
      dsimp only
      generalize (if x = true then _ else _ : BitVec 9) = j
      split
      next => exact ih _ _ _ _
      next => exact emit _

/-- The ERR_CODE of every walk: UNPACK and DECODE end with one of these past their checks (R246). -/
theorem WalkStop.errCode {n : Option Nat} {cap : Nat} {r : WalkResult} (h : WalkStop n cap r) :
    r.errCode = .noError ∨ r.errCode = .corrupt ∨ r.errCode = .capacity := by
  cases h with
  | streamEnd cur d out =>
    cases cur with
    | some i => exact .inr (.inl rfl)
    | none =>
      cases n with
      | none => exact .inl rfl
      | some want =>
        rw [walkEnd]
        split
        next => exact .inr (.inl rfl)
        next => exact .inl rfl
  | trailing => exact .inr (.inl rfl)
  | deadEnd => exact .inr (.inl rfl)
  | full => exact .inr (.inr rfl)

@[simp] theorem finishWalk_errCode (s : State) (r : WalkResult) :
    (s.finishWalk r).errCode = r.errCode := by rw [finishWalk_eq_completed]; rfl

@[simp] theorem finishWalk_errInfo (s : State) (r : WalkResult) :
    (s.finishWalk r).errInfo = r.errInfo := by rw [finishWalk_eq_completed]; rfl

/-- OUT_LEN holds the number of symbols emitted, which OBUF bounds (R28). -/
theorem toNat_outLen_finishWalk {s : State} {r : WalkResult} (h : r.Fits s.params.bufBytes) :
    (s.finishWalk r).outLen.toNat = r.out.length := by
  obtain ⟨fits, -⟩ := h
  have buffer := bufBytes_le s
  rw [finishWalk_eq_completed]
  exact Nat.mod_eq_of_lt (by omega)

/-- Output byte a after a walk's end: a symbol emitted, or the byte it was. -/
theorem outByte_finishWalk {s : State} (h : Memory.wf s.obuf = true) (r : WalkResult) (a : Nat) :
    (s.finishWalk r).outByte a
      = if a < r.out.length then r.out.getD a 0#8 else s.outByte a := by
  rw [finishWalk_eq_completed]
  exact (Memory.read_writeBytes s.obuf 0 r.out a h).trans (by simp [State.outByte])

theorem outByte_finishWalk_of_lt {s : State} (h : Memory.wf s.obuf = true) {r : WalkResult}
    {a : Nat} (ha : a < r.out.length) : (s.finishWalk r).outByte a = r.out[a] := by
  rw [outByte_finishWalk h, if_pos ha]
  exact List.getD_eq_getElem _ _ ha

/-- The output read back is the symbols emitted. -/
theorem output_finishWalk {s : State} (h : Memory.wf s.obuf = true) {r : WalkResult}
    (hr : r.Fits s.params.bufBytes) :
    (List.range (s.finishWalk r).outLen.toNat).map (s.finishWalk r).outByte = r.out := by
  rw [toNat_outLen_finishWalk hr]
  refine List.ext_getElem (by simp) fun a _ ha => ?_
  rw [List.getElem_map, List.getElem_range, outByte_finishWalk_of_lt h ha]

/-! ### The run phase (R200, R202) -/

/-- UNPACK's checks pass, and the payload after the header holds nbits stream bits (R200, R201). -/
structure Presents (s : State) (nbits : Nat) : Prop where
  coded : s.codeValid = true
  nonempty : 0 < s.inputLen
  inRange : s.inputLen ≤ s.params.bufBytes
  pad_le : (s.inByte 0).toNat ≤ 7
  bits : nbits + (s.inByte 0).toNat = 8 * (s.inputLen - 1)

/-- The bits expanded from m bytes from IBUF offset o on (R202). -/
theorem expand_readBytes (s : State) (o : Nat) {m n : Nat} (h : n ≤ 8 * m) :
    expand (Memory.readBytes s.ibuf o m) n = s.inBits o n := by
  apply List.ext_getElem
  · simp [expand, State.inBits]
    omega
  · intro k hk hk'
    have hk : k < n := by simpa [State.inBits] using hk'
    have expanded := getElem_flatMap_byteBits (Memory.readBytes s.ibuf o m) k (by simp; omega)
    simp only [expand, List.getElem_take, expanded, Memory.getElem_readBytes, State.inBits,
      List.getElem_map, List.getElem_range, State.inByte]

/-- The walk reads the tree and P_BUF_BYTES only. -/
theorem decodeStream_congr {s t : State} (node : t.node = s.node) (root : t.root = s.root)
    (count : t.symCount = s.symCount) (params : t.params = s.params) (n : Option Nat) (b : Bits) :
    t.decodeStream n b = s.decodeStream n b := by
  rw [State.decodeStream, State.decodeStream, walk_congr node root count, params]

namespace Presents

variable {s : State} {nbits : Nat}

theorem streamBits_eq (h : Presents s nbits) :
    streamBits (s.inputLen - 1) (Memory.read s.ibuf 0) = nbits := by
  have bits := h.bits
  rw [streamBits, ← State.inByte]
  omega

/-- TOTAL_BITS and PAD_COUNT as the run phase leaves them (R200). -/
theorem unpackReady_eq (h : Presents s nbits) :
    s.unpackReady
      = { s with totalBits := BitVec.ofNat 32 nbits, padCount := (s.inByte 0).setWidth 3 } := by
  have pad : BitVec.ofNat 3 (Memory.read s.ibuf 0).toNat = (s.inByte 0).setWidth 3 :=
    BitVec.eq_of_toNat_eq (by simp [State.inByte])
  rw [State.unpackReady, State.presentStream, h.streamBits_eq, pad]

/-- Past its checks UNPACK is the end of the walk over the stream. -/
theorem exec_unpack (h : Presents s nbits) :
    exec .unpack s
      = .next (s.unpackReady.finishWalk (s.decodeStream none (s.inBits 1 nbits))) := by
  have bits := h.bits
  have passed : s.unpackCheck = none :=
    (unpackCheck_eq_none s).mpr ⟨h.coded, h.inRange, h.nonempty.ne', h.pad_le,
      (Nat.le_add_left _ _).trans_eq h.bits⟩
  have stream : s.payloadStream 0 (s.inputLen - 1) = s.inBits 1 nbits := by
    rw [State.payloadStream, h.streamBits_eq]
    exact expand_readBytes s 1 (by omega)
  have walk : s.unpackReady.decodeStream none (s.inBits 1 nbits)
      = s.decodeStream none (s.inBits 1 nbits) :=
    decodeStream_congr (s := s) (t := s.unpackReady) rfl rfl rfl rfl none _
  rw [exec, execUnpack, passed, stream, ← walk]

end Presents

theorem MemoryOk.unpackReady {s : State} (h : MemoryOk s) : MemoryOk s.unpackReady :=
  h.of_eq rfl rfl rfl

theorem decodeStream_fits_unpackReady (s : State) (n : Option Nat) (t : Bits) :
    (s.decodeStream n t).Fits s.unpackReady.params.bufBytes := decodeStream_fits s n t

/-- Settles O27: past its checks UNPACK is a walk's end, which writes the emitted bytes. -/
theorem unpackFrame : Obligations.UnpackFrame := by
  intro s nbits hs hv h0 hn hpad hbits
  have h : Presents s nbits := ⟨hv, h0, hn, hpad, hbits⟩
  have fits := decodeStream_fits_unpackReady s none (s.inBits 1 nbits)
  refine ⟨_, h.exec_unpack, ?_, ?_, ?_, fun a ha => ?_⟩
  · rw [finishWalk_eq_completed, h.unpackReady_eq]
    rfl
  · rw [toNat_outLen_finishWalk fits]
    exact fits.1
  · rw [finishWalk_errCode]
    exact (walk_stops s none _ _ 0 none 0 []).errCode
  · rw [toNat_outLen_finishWalk fits] at ha
    rw [outByte_finishWalk hs.unpackReady.obufWf, if_neg (Nat.not_lt.mpr ha)]
    rfl

/-! ### What is decoded (R203 to R207) -/

/-- The codes of present symbols that fit the buffer decode to them. -/
theorem TablesOk.walk_codesOf {s : State} (hs : TablesOk s) (hv : s.codeValid = true)
    {b : List Byte} (present : ∀ c ∈ b, s.freqOf c ≠ 0#32) {cap : Nat} (fits : b.length ≤ cap) :
    s.walk none cap (s.codesOf b) 0 none 0 [] = ⟨b, none⟩ := by
  have emitted := hs.walk_codes hv present (n := none) (cap := cap) (out := []) (by simp)
    (by simpa using fits) [] 0
  rw [List.append_nil] at emitted
  rw [emitted]
  rfl

/-- A walk that emits b without an error leaves b in OBUF. -/
theorem Presents.unpack_success {s : State} {nbits : Nat} (h : Presents s nbits) (hs : MemoryOk s)
    {b : List Byte} (walk : s.decodeStream none (s.inBits 1 nbits) = ⟨b, none⟩) :
    ∃ t, exec .unpack s = .next t ∧ t.errCode = .noError ∧ t.outLen.toNat = b.length
      ∧ ∀ k (hk : k < b.length), t.outByte k = b[k] := by
  have fits := decodeStream_fits_unpackReady s none (s.inBits 1 nbits)
  rw [walk] at fits
  refine ⟨_, h.exec_unpack, ?_, ?_, fun k hk => ?_⟩
  · rw [finishWalk_errCode, walk]
    rfl
  · rw [walk, toNat_outLen_finishWalk fits]
  · rw [walk]
    exact outByte_finishWalk_of_lt hs.unpackReady.obufWf hk

@[simp] theorem length_inBits (s : State) (o n : Nat) : (s.inBits o n).length = n := by
  simp [State.inBits]

theorem toNat_infoOf_value (reason : BitVec 4) {v : Nat} (hv : v < 2 ^ 28) :
    (infoOf reason v).value.toNat = v := by
  rw [infoOf, BitVec.toNat_ofNat]
  omega

/-- Settles O28: the walk is one of the four ends of `Decoded`, and each meets its clause. -/
theorem unpackDecodesTheStream : Obligations.UnpackDecodesTheStream := by
  intro s nbits hs ht hv h0 hn hpad hbits
  have h : Presents s nbits := ⟨hv, h0, hn, hpad, hbits⟩
  refine ⟨fun b present fits codes => h.unpack_success hs ?_, fun t b run hb => ?_⟩
  · rw [← codes]
    exact ht.walk_codesOf hv present fits
  have fits := decodeStream_fits_unpackReady s none (s.inBits 1 nbits)
  have decoded : Decoded s s.params.bufBytes (s.inBits 1 nbits)
    (s.decodeStream none (s.inBits 1 nbits)) := ht.walk_decoded hv _ _
  have len := length_inBits s 1 nbits
  have small : nbits < 2 ^ 28 := by
    have := bufBytes_le s
    omega
  obtain rfl : _ = t := by simpa only [h.exec_unpack, Host.Outcome.next.injEq] using run
  rw [output_finishWalk hs.unpackReady.obufWf fits] at hb
  rw [finishWalk_errCode, finishWalk_errInfo, hb]
  clear run hb fits
  generalize s.decodeStream none (s.inBits 1 nbits) = r at decoded ⊢
  generalize s.inBits 1 nbits = stream at decoded len ⊢
  subst len
  cases decoded with
  | success present fits codes => exact ⟨present, fun _ => codes, nofun, nofun, nofun⟩
  | @leftover b rest present fits codes unmatched hne many =>
    subst codes
    rw [List.length_append] at small
    have value : (infoOf 3#4 rest.length).value.toNat = rest.length :=
      toNat_infoOf_value _ (by omega)
    exact ⟨present, nofun, fun _ _ =>
      ⟨rest, rfl, List.length_pos_of_ne_nil hne, value.symm, unmatched⟩,
      fun _ reason => absurd reason (by decide : (3#4 : BitVec 4) ≠ 4#4), nofun⟩
  | @deadEnd b rest present fits codes unmatched hne few =>
    subst codes
    have pos := List.length_pos_of_ne_nil hne
    rw [List.length_append] at small
    have short : (s.codesOf b).length < 2 ^ 28 := by omega
    have value : (WalkResult.errInfo ⟨b, some (deadEnd (s.codesOf b).length)⟩).value.toNat
        = (s.codesOf b).length := toNat_infoOf_value _ short
    refine ⟨present, nofun,
      fun _ reason => absurd reason (by decide : (4#4 : BitVec 4) ≠ 3#4), fun _ _ => ?_, nofun⟩
    rw [value]
    refine ⟨few, by simp, by simpa using pos, fun one => ?_⟩
    rw [List.getElem?_append_right le_rfl, Nat.sub_self, ← List.head?_eq_getElem?]
    exact ht.head?_unmatched hv one unmatched hne
  | @full b c rest present next full codes =>
    refine ⟨present, nofun, nofun, nofun, fun _ => ⟨full, ?_, ⟨c, next, ⟨rest, codes⟩⟩, rfl⟩⟩
    rw [← codes, State.codesOf, State.codesOf, List.flatMap_append, List.append_assoc]
    exact List.prefix_append _ _

/-- Under CODE_VALID the bytes with a code are the present symbols (R176). -/
theorem TablesOk.present_of_codeLenOf {s : State} (hs : TablesOk s) (hv : s.codeValid = true)
    {c : Byte} (hc : s.codeLenOf c ≠ 0) : s.freqOf c ≠ 0#32 := by
  obtain ⟨coded, -⟩ := codeTableIsPrefixFree s hs hv
  intro absent
  have pos := (coded c).mp (Nat.pos_of_ne_zero hc)
  simp [absent] at pos

/-- The copied output of the packing step presents the stream packed. -/
theorem presents_of_packStep {s u : State} {b : List Byte} (hs : Memory.wf s.obuf = true)
    (hv : u.codeValid = true) (len : u.inputLen = 1 + packedLen (s.stream b).length)
    (hn : u.inputLen ≤ u.params.bufBytes)
    (copied : ∀ k < u.inputLen, u.inByte k = (s.packStep 0 b).outByte k) :
    Presents u (s.stream b).length ∧ u.inBits 1 (s.stream b).length = s.stream b := by
  have total := padOf_add (s.stream b).length
  have pad : (u.inByte 0).toNat = padOf (s.stream b).length := by
    rw [copied 0 (by omega), toNat_outByte_packStep_pad hs]
  refine ⟨⟨hv, by omega, hn, pad ▸ padOf_le _, by omega⟩, ?_⟩
  refine List.ext_getElem (by simp) fun k hk hk' => ?_
  have byte : k / 8 < packedLen (s.stream b).length := by omega
  have bit := getLsbD_outByte_packStep hs 0 b byte (Nat.mod_lt k (by decide : 8 > 0))
  rw [Nat.zero_add, ← copied _ (by omega), Nat.div_add_mod, List.getD_eq_getElem _ _ hk'] at bit
  simpa [State.inBits] using bit

/-- Settles O29: PACK's stream is the codes of its input, which the walk decodes to it. -/
theorem unpackInvertsPack : Obligations.UnpackInvertsPack := by
  rintro s t u hs hu ht hv run ok ⟨valid, node, root, count, params⟩ ⟨-, len, copied⟩
  obtain ⟨passed, rfl⟩ := exec_pack_noError run ok
  obtain ⟨-, hn, coded, cap⟩ := (packCheck_eq_none s).mp passed
  have buffer := bufBytes_le s
  rw [← length_stream] at cap len copied
  have outLen : (BitVec.ofNat 32 (1 + packedLen (s.stream s.inputBytes).length)).toNat
      = 1 + packedLen (s.stream s.inputBytes).length := Nat.mod_eq_of_lt (by omega)
  rw [State.succeed_outLen, outLen] at len copied
  obtain ⟨presents, stream⟩ := presents_of_packStep (u := u) (b := s.inputBytes) hs.obufWf
    (valid.trans hv) len (by rw [len, params]; exact cap) (by rw [len]; exact copied)
  have walk : u.decodeStream none (u.inBits 1 (s.stream s.inputBytes).length)
      = ⟨s.inputBytes, none⟩ := by
    rw [stream, decodeStream_congr node root count params]
    exact ht.walk_codesOf hv (fun c hc => ht.present_of_codeLenOf hv (coded c hc))
      ((length_inputBytes s).trans_le hn)
  obtain ⟨w, runs, success, n, bytes⟩ := presents.unpack_success hu walk
  refine ⟨w, runs, success, n.trans (length_inputBytes s), fun k hk => ?_⟩
  rw [bytes k ((length_inputBytes s).symm ▸ hk)]
  simp [inputBytes_eq_map_inByte]

end Sys2Proof.Machine
end

section
/-! SUPPORT. ENCODE (spec/46_container.md R220 to R225): the three ways it ends, the length of its
Container, and the stages FREQ_COUNT, TREE_BUILD, CODE_GEN and PACK it is made of. -/

namespace Sys2Proof.Machine

/-! ### The three ways ENCODE ends (R221) -/

theorem exec_encode_of_lt {s : State} (h : s.params.bufBytes < s.inputLen) :
    exec .encode s = .next (s.completed 0#32 .range (infoOf 1#4 s.inputLen)) := by
  simp only [exec, execEncode, rangeCheck_of_lt h, raise_zero_eq_completed, inLenTooLarge]

theorem exec_encode_of_full {s : State} (hn : s.inputLen ≤ s.params.bufBytes)
    (full : s.params.bufBytes < s.containerLen) :
    exec .encode s
      = .next (s.encodeTables.completed 0#32 .capacity (infoOf 1#4 s.containerLen)) := by
  simp only [exec, execEncode, (rangeCheck_eq_none s).mpr hn, if_pos full,
    raise_zero_eq_completed, outputFull]

theorem exec_encode_of_fits {s : State} (hn : s.inputLen ≤ s.params.bufBytes)
    (fits : s.containerLen ≤ s.params.bufBytes) :
    exec .encode s
      = .next ((s.encodeTables.writeContainer s.inputBytes).succeed s.containerLen) := by
  simp only [exec, execEncode, (rangeCheck_eq_none s).mpr hn, if_neg (Nat.not_lt.mpr fits)]

theorem MemoryOk.encodeTables {s : State} (h : MemoryOk s) : MemoryOk s.encodeTables :=
  h.of_eq rfl rfl rfl

/-! ### The length of the Container (R221, R225) -/

theorem toNat_freqOf_encodeTables (s : State) (c : Byte) :
    (s.encodeTables.freqOf c).toNat = s.inputBytes.count c := toNat_bySymbol_freqTable s c

/-- The packed bytes are those of the weighted code lengths of the new tables (R191). -/
theorem containerLen_eq {s : State} (hn : s.inputLen ≤ s.params.bufBytes) :
    s.containerLen = 1025
      + (sumSymbols (fun c => (s.encodeTables.freqOf c).toNat * s.encodeTables.codeLenOf c) + 7)
        / 8 := by
  rw [State.containerLen, packedLen,
    ((tablesOk_encodeTables hn).streamLen_of_counts rfl (toNat_freqOf_encodeTables s)).1]

/-- At most 8 bits an input byte: the Container adds at most 1025 bytes to its input. -/
theorem containerLen_le {s : State} (hn : s.inputLen ≤ s.params.bufBytes) :
    s.containerLen ≤ 1025 + s.inputLen := by
  have law := ((tablesOk_encodeTables hn).streamLen_of_counts rfl (toNat_freqOf_encodeTables s)).2
  rw [length_inputBytes] at law
  rw [State.containerLen, packedLen]
  omega

theorem toNat_ofNat_containerLen {s : State} (fits : s.containerLen ≤ s.params.bufBytes) :
    (BitVec.ofNat 32 s.containerLen).toNat = s.containerLen := by
  have buffer := bufBytes_le s
  exact Nat.mod_eq_of_lt (by omega)

/-- Settles O30: past the range check the tables are the input's, and `need` is the model's
`containerLen`, which decides between CAPACITY and success. -/
theorem encodeErrors : Obligations.EncodeErrors := by
  intro s
  refine ⟨exec_encode_of_lt, fun hn => ?_⟩
  have tables := tablesOk_encodeTables hn
  have counts : ∀ c, (s.encodeTables.freqOf c).toNat
      = ((List.range s.inputLen).filter fun k => s.inByte k = c).length := fun c =>
    (toNat_freqOf_encodeTables s c).trans (count_inputBytes s c)
  obtain full | fits := Nat.lt_or_ge s.params.bufBytes s.containerLen
  · exact ⟨_, _, exec_encode_of_full hn full, containerLen_eq hn, rfl,
      ⟨tables.tree, tables.codes⟩, rfl, counts, fun _ => rfl,
      fun fits => absurd full (Nat.not_lt.mpr fits)⟩
  · exact ⟨_, _, exec_encode_of_fits hn fits, containerLen_eq hn, rfl,
      ⟨tables.tree, tables.codes⟩, rfl, counts, fun full => absurd full (Nat.not_lt.mpr fits),
      fun _ => ⟨rfl, toNat_ofNat_containerLen fits⟩⟩

/-- Settles O33: `need` decides, and it is at most IN_LEN + 1025. -/
theorem encodeGuaranteedDomain : Obligations.EncodeGuaranteedDomain := by
  intro s
  obtain ⟨tooLong, inRange⟩ := encodeErrors s
  obtain lt | hn := Nat.lt_or_ge s.params.bufBytes s.inputLen
  · exact ⟨_, tooLong lt, fun h => by omega, fun hn => absurd lt (Nat.not_lt.mpr hn), fun _ => rfl⟩
  obtain ⟨t, need, run, law, len, -, -, -, full, fits⟩ := inRange hn
  have short := containerLen_le hn
  refine ⟨t, run, fun h => (fits (by omega)).1, fun _ => ?_, fun lt => absurd lt (by omega)⟩
  rw [← law]
  obtain lt | le := Nat.lt_or_ge s.params.bufBytes need
  · have capacity : t.errCode = .capacity := congrArg State.errCode (full lt)
    exact ⟨by simp [capacity, lt], fun _ => capacity⟩
  · have ok := (fits le).1
    exact ⟨by simp [ok, le], fun h => absurd ok h⟩

/-! ### The bytes of the Container (R220, R221) -/

/-- Byte 4c + i of the frequency section is byte i of symbol c's count (R220). -/
theorem getD_freqSection (f : Table Word 256) (c : Byte) {i : Nat} (hi : i < 4) :
    (freqSection f).getD (4 * c.toNat + i) 0#8 = wordByte (f.bySymbol c) i := by
  have at_word : ∀ (ws : List Word) (j : Nat) (hj : j < ws.length),
      (ws.flatMap le32Bytes).getD (4 * j + i) 0#8 = wordByte ws[j] i := by
    intro ws
    induction ws with
    | nil => intro j hj; exact absurd hj (Nat.not_lt_zero j)
    | cons w ws ih =>
      intro j hj
      cases j with
      | zero => interval_cases i <;> rfl
      | succ j =>
        have skip : 4 * (j + 1) + i = 4 * j + i + 1 + 1 + 1 + 1 := by omega
        rw [skip]
        exact ih j (by simpa using hj)
  exact at_word f.entries c.toNat (f.len.symm ▸ c.isLt)

/-- Output byte a after the Container is written: a byte of the frequency section, one of the
payload, or the byte it was. -/
theorem outByte_writeContainer {s : State} (h : Memory.wf s.obuf = true) (b : List Byte) (a : Nat) :
    (s.writeContainer b).outByte a
      = if a < 1024 then (freqSection s.freq).getD a 0#8
        else if a < 1025 + packedLen (s.streamLen b) then (payload (s.stream b)).getD (a - 1024) 0#8
        else s.outByte a := by
  have counts := Memory.read_writeBytes s.obuf 0 (freqSection s.freq) a h
  rw [length_freqSection, Nat.zero_add, Nat.sub_zero] at counts
  have packed := outByte_packStep
    (s := { s with obuf := Memory.writeBytes s.obuf 0 (freqSection s.freq) })
    (Memory.wf_writeBytes _ 0 _ h) 1024 b a
  refine packed.trans ?_
  rw [State.outByte, counts, ← length_stream]
  change (if 1024 ≤ a ∧ a < 1024 + (1 + packedLen (s.stream b).length) then
    (payload (s.stream b)).getD (a - 1024) 0#8 else _) = _
  by_cases low : a < 1024
  · rw [if_neg (by omega), if_pos (by omega), if_pos low]
  · by_cases mid : a < 1025 + packedLen (s.stream b).length
    · rw [if_pos (by omega), if_neg low, if_pos mid]
    · rw [if_neg (by omega), if_neg (by omega), if_neg low, if_neg mid]
      rfl

/-- Besides OBUF, ENCODE's packing step writes what PACK's does (R188, R221). -/
theorem succeed_writeContainer (s : State) (b : List Byte) (n m : Nat) :
    (s.writeContainer b).succeed n
      = State.completed { s.completed 0#32 .noError noInfo with
          obuf := ((s.writeContainer b).succeed n).obuf
          totalBits := ((s.packStep 0 b).succeed m).totalBits
          padCount := ((s.packStep 0 b).succeed m).padCount }
          (BitVec.ofNat 32 n) .noError noInfo := rfl

/-! ### The pipeline (R221, R224) -/

/-- The bytes of the input all have codes under the tables of its counts (R224). -/
theorem freqOf_encodeTables_ne_zero {s : State} {c : Byte} (hc : c ∈ s.inputBytes) :
    s.encodeTables.freqOf c ≠ 0#32 := by
  intro absent
  have count := toNat_freqOf_encodeTables s c
  rw [absent, eq_comm] at count
  exact List.count_eq_zero.mp count hc

/-- FREQ_COUNT, TREE_BUILD and CODE_GEN leave ENCODE's tables. -/
theorem exec_stages_of_encodeTables {s : State} (hn : s.inputLen ≤ s.params.bufBytes) :
    ∃ f b, exec .freqCount s = .next f ∧ exec .treeBuild f = .next b
      ∧ exec .codeGen b = .next (s.encodeTables.completed 0#32 .noError noInfo)
      ∧ f.errCode = .noError ∧ b.errCode = .noError := by
  obtain ⟨weight, -⟩ := (tablesOk_encodeTables hn).tree rfl
  exact ⟨_, _, exec_freqCount_of_le hn, exec_treeBuild_of_weightSum_le weight,
    exec_codeGen_of_treeValid rfl, rfl, rfl⟩

/-- PACK under ENCODE's tables succeeds when the Container fits, and packs the same stream
(R224). -/
theorem exec_pack_of_encodeTables {s : State} (hn : s.inputLen ≤ s.params.bufBytes)
    (fits : s.containerLen ≤ s.params.bufBytes) :
    exec .pack (s.encodeTables.completed 0#32 .noError noInfo)
      = .next ((s.encodeTables.packStep 0 s.inputBytes).succeed
          (1 + packedLen (s.encodeTables.streamLen s.inputBytes))) := by
  rw [State.containerLen] at fits
  have room : 1 + packedLen (s.encodeTables.streamLen s.inputBytes) ≤ s.params.bufBytes := by omega
  refine exec_pack_of_check_none ((packCheck_eq_none _).mpr ⟨rfl, hn, fun c hc => ?_, room⟩)
  have code := (tablesOk_encodeTables hn).codeOf_ne_nil rfl (freqOf_encodeTables_ne_zero hc)
  rwa [← List.length_pos_iff, length_codeOf, Nat.pos_iff_ne_zero] at code

/-- Settles O31: the stages leave ENCODE's tables, under which PACK writes the payload that ENCODE
writes behind the counts. -/
theorem encodeIsThePipeline : Obligations.EncodeIsThePipeline := by
  intro s hs hn fits
  obtain ⟨f, b, count, build, generate, okf, okb⟩ := exec_stages_of_encodeTables hn
  have bytes := outByte_writeContainer hs.encodeTables.obufWf s.inputBytes
  have buffer := bufBytes_le s
  have len : s.containerLen = 1025 + packedLen (s.encodeTables.streamLen s.inputBytes) := rfl
  have packLen : (BitVec.ofNat 32 (1 + packedLen (s.encodeTables.streamLen s.inputBytes))).toNat
      = 1 + packedLen (s.encodeTables.streamLen s.inputBytes) := Nat.mod_eq_of_lt (by omega)
  refine ⟨_, f, b, _, _, exec_encode_of_fits hn fits, count, build, generate,
    exec_pack_of_encodeTables hn fits, okf, okb, rfl, rfl,
    succeed_writeContainer _ _ _ _, ?_, fun c i hi => ?_, fun k hk => ?_, fun a ha => ?_⟩
  · rw [State.succeed_outLen, packLen]
    omega
  · have hc := c.isLt
    rw [outByte_succeed, bytes, if_pos (by omega), getD_freqSection _ c hi]
    rfl
  · rw [State.succeed_outLen, packLen] at hk
    rw [outByte_succeed, bytes, if_neg (by omega), if_pos (by omega), Nat.add_sub_cancel_left,
      outByte_succeed, outByte_packStep hs.encodeTables.obufWf, length_stream,
      if_pos (by omega), Nat.sub_zero]
  · rw [outByte_succeed, bytes, if_neg (by omega), if_neg (by omega)]
    rfl

end Sys2Proof.Machine
end

section
/-! SUPPORT. DECODE (spec/46_container.md R226 to R229): the check that fails first decides the
completion; when none fails, the counts are loaded, the tables rebuilt, and the walk ends after the
symbols counted, or before them in a rest that no code begins. -/

namespace Sys2Proof.Machine

/-! ### The counts of a Container (R228) -/

@[simp] theorem bySymbol_containerFreq (s : State) (c : Byte) :
    s.containerFreq.bySymbol c = Memory.readWord s.ibuf (4 * c.toNat) :=
  Table.at_ofFn _ _ c.isLt

/-- N, the sum of the counts (R226). -/
theorem weightSum_containerFreq (s : State) :
    weightSum s.containerFreq
      = ((List.range 256).map fun c => (Memory.readWord s.ibuf (4 * c)).toNat).sum := by
  rw [weightSum_eq, List.range_eq_range']
  exact congrArg List.sum List.map_map

/-! ### The check phase (R226, R227) -/

/-- A failed check completes DECODE with its error. -/
theorem exec_decode_of_check_some {s : State} {e : CmdError} (h : s.decodeCheck = some e) :
    exec .decode s = .next (s.completed 0#32 e.code (infoOf e.reason e.value)) := by
  rw [← raise_zero_eq_completed, exec, execDecode, h]

theorem exec_decode_of_check_none {s : State} (h : s.decodeCheck = none) :
    exec .decode s
      = .next (s.decodeReady.finishWalk
          (s.decodeReady.decodeStream (some (weightSum s.containerFreq))
            (s.payloadStream 1024 (s.inputLen - 1025)))) := by
  rw [exec, execDecode, h]

/-- IN_LEN below 1025 is SCHEMA: such an input is in range (R7, R226). -/
theorem decodeCheck_of_short {s : State} (h : s.inputLen < 1025) :
    s.decodeCheck = some (shortContainer s.inputLen) := by
  obtain ⟨-, atLeast, -⟩ := params_legal s.params
  have container : s.containerCheck = some (shortContainer s.inputLen) := if_pos h
  rw [decodeCheck_eq, (rangeCheck_eq_none s).mpr (by omega), container]
  rfl

/-- A Container of legal length is refused by its pad count or its counts (R226). -/
theorem decodeCheck_of_legal_len {s : State} (h : 1025 ≤ s.inputLen)
    (hn : s.inputLen ≤ s.params.bufBytes) :
    s.decodeCheck = (s.padCheck 1024 (s.inputLen - 1025)).or s.countCheck := by
  rw [decodeCheck_eq, (rangeCheck_eq_none s).mpr hn, (containerCheck_eq_none s).mpr h]
  rfl

/-- Settles O34: in each clause the checks before the failing one pass. -/
theorem decodeChecksInOrder : Obligations.DecodeChecksInOrder := by
  intro s n sum
  rw [← weightSum_containerFreq] at sum
  subst sum
  refine ⟨fun hn => ?_, fun h => exec_decode_of_check_some (decodeCheck_of_short h),
    fun h hn => ⟨fun hp => ?_, fun hp hm => ?_, fun hp hm hw => ?_⟩⟩
  · exact exec_decode_of_check_some (e := inLenTooLarge s.inputLen) (by
      rw [decodeCheck_eq, rangeCheck_of_lt hn]; rfl)
  · have pad : s.padCheck 1024 (s.inputLen - 1025) = some (padRange (s.inByte 1024)) := if_pos hp
    exact exec_decode_of_check_some (e := padRange (s.inByte 1024)) (by
      rw [decodeCheck_of_legal_len h hn, pad]; rfl)
  · have pad : s.padCheck 1024 (s.inputLen - 1025) = some (padExceeds (s.inByte 1024)) :=
      (if_neg (Nat.not_lt.mpr hp)).trans (if_pos hm)
    exact exec_decode_of_check_some (e := padExceeds (s.inByte 1024)) (by
      rw [decodeCheck_of_legal_len h hn, pad]; rfl)
  · have count : s.countCheck = some (countTooLarge (weightSum s.containerFreq)) := if_pos hw
    exact exec_decode_of_check_some (e := countTooLarge (weightSum s.containerFreq)) (by
      rw [decodeCheck_of_legal_len h hn, (padCheck_eq_none s _ _).mpr ⟨hp, hm⟩, count]; rfl)

/-! ### The walk that expects n symbols (R203, R229) -/

/-- The stream t as the codes of at most n present symbols and a rest, which no code begins when
the symbols are fewer than n. -/
structure CountedSplit (s : State) (n : Nat) (t : Bits) (b : List Byte) (rest : Bits) : Prop where
  present : ∀ c ∈ b, s.freqOf c ≠ 0#32
  codes : s.codesOf b ++ rest = t
  length_le : b.length ≤ n
  unmatched : b.length < n → s.Unmatched rest

/-- The error, if any, after the symbols b when `rest` is left of the stream and n were expected:
TRAILING before all, LEFTOVER or DEAD_END in a rest, SHORT at the stream's end (R203, R206). -/
def State.countedEnd (s : State) (n : Nat) (b : List Byte) (rest : Bits) : Option CmdError :=
  if b.length = n then
    if rest = [] then none else some (trailing (s.codesOf b).length)
  else if rest = [] then some (short b.length)
  else if 2 ≤ (alphabet s.freq).length then some (leftover rest.length)
  else some (deadEnd (s.codesOf b).length)

/-- Every error of that walk is CORRUPT (R251). -/
theorem errCode_countedEnd (s : State) (n : Nat) (b : List Byte) (rest : Bits) :
    WalkResult.errCode ⟨b, s.countedEnd n b rest⟩
      = if b.length = n ∧ rest = [] then .noError else .corrupt := by
  rw [State.countedEnd]
  by_cases whole : b.length = n ∧ rest = []
  · rw [if_pos whole.1, if_pos whole.2, if_pos whole]
    rfl
  · rw [if_neg whole]
    split_ifs with all last
    · exact absurd ⟨all, last⟩ whole
    all_goals rfl

/-- A stream that is the codes of n present symbols. -/
theorem CountedSplit.of_codes {s : State} {n : Nat} {t : Bits} {b : List Byte} (hb : b.length = n)
    (present : ∀ c ∈ b, s.freqOf c ≠ 0#32) (codes : s.codesOf b = t) : CountedSplit s n t b [] :=
  ⟨present, (List.append_nil _).trans codes, hb.le, fun h => absurd hb h.ne⟩

section ValidTables

variable {s : State} (hs : TablesOk s) (hv : s.codeValid = true)

include hs hv

/-- Every stream splits: its symbols are cut at the n-th. -/
theorem TablesOk.exists_countedSplit (n : Nat) (t : Bits) :
    ∃ b rest, CountedSplit s n t b rest := by
  obtain ⟨b, rest, present, codes, unmatched⟩ := hs.exists_codesOf_append hv t
  obtain fewer | enough := Nat.lt_or_ge b.length n
  · exact ⟨b, rest, present, codes, fewer.le, fun _ => unmatched⟩
  · have len : (b.take n).length = n := by simpa using enough
    refine ⟨b.take n, s.codesOf (b.drop n) ++ rest, fun c hc => present c (List.mem_of_mem_take hc),
      ?_, len.le, fun h => absurd len h.ne⟩
    rw [← codes, ← List.append_assoc, State.codesOf, State.codesOf, ← List.flatMap_append,
      List.take_append_drop, State.codesOf]

/-- The walk emits the symbols of the split and ends as its rest says. -/
theorem TablesOk.walk_counted {n cap : Nat} (room : n ≤ cap) {t : Bits} {b : List Byte}
    {rest : Bits} (h : CountedSplit s n t b rest) :
    s.walk (some n) cap t 0 none 0 [] = ⟨b, s.countedEnd n b rest⟩ := by
  obtain ⟨present, rfl, length_le, unmatched⟩ := h
  rw [hs.walk_codes hv present (by rintro N ⟨⟩; simpa using length_le)
    (by simpa using length_le.trans room), List.nil_append, Nat.zero_add, State.countedEnd]
  by_cases all : b.length = n
  · rw [if_pos all]
    cases rest with
    | nil => simp [State.walk, walkEnd, all]
    | cons x rest => simp [State.walk, all]
  · have fewer : b.length < n := by omega
    have wanted : some n ≠ some b.length := fun h => all (Option.some.inj h).symm
    rw [if_neg all]
    by_cases hne : rest = []
    · rw [if_pos hne, hne]
      simp [State.walk, walkEnd, fewer]
    rw [if_neg hne]
    by_cases many : 2 ≤ (alphabet s.freq).length
    · rw [if_pos many, hs.walk_leftover hv many (unmatched fewer) hne wanted]
    · rw [if_neg many, hs.walk_deadEnd hv (by omega) (unmatched fewer) hne wanted]

/-- A stream splits in one way only: the walk emits one sequence of symbols. -/
theorem TablesOk.countedSplit_unique {n : Nat} {t : Bits} {b b' : List Byte} {rest rest' : Bits}
    (h : CountedSplit s n t b rest) (h' : CountedSplit s n t b' rest') : b = b' ∧ rest = rest' := by
  have walk := (hs.walk_counted hv le_rfl h).symm.trans (hs.walk_counted hv le_rfl h')
  obtain rfl : b = b' := congrArg WalkResult.out walk
  exact ⟨rfl, List.append_cancel_left (h.codes.trans h'.codes.symm)⟩

end ValidTables

/-! ### The tables after a walk's end -/

@[simp] theorem finishWalk_freq (s : State) (r : WalkResult) : (s.finishWalk r).freq = s.freq := by
  rw [finishWalk_eq_completed]; rfl

@[simp] theorem finishWalk_freqOf (s : State) (r : WalkResult) (c : Byte) :
    (s.finishWalk r).freqOf c = s.freqOf c := by rw [finishWalk_eq_completed]; rfl

@[simp] theorem finishWalk_codeOf (s : State) (r : WalkResult) (c : Byte) :
    (s.finishWalk r).codeOf c = s.codeOf c := by rw [finishWalk_eq_completed]; rfl

@[simp] theorem finishWalk_codesOf (s : State) (r : WalkResult) (b : List Byte) :
    (s.finishWalk r).codesOf b = s.codesOf b := by rw [finishWalk_eq_completed]; rfl

theorem TablesOk.finishWalk {s : State} (hs : TablesOk s) (r : WalkResult) :
    TablesOk (s.finishWalk r) := by
  rw [finishWalk_eq_completed]
  exact ⟨hs.tree, hs.codes⟩

/-! ### The run phase (R226) -/

/-- DECODE's checks pass, and the payload after the counts and the header holds nbits stream bits
(R226). -/
structure HoldsContainer (s : State) (nbits : Nat) : Prop where
  len_ge : 1025 ≤ s.inputLen
  inRange : s.inputLen ≤ s.params.bufBytes
  pad_le : (s.inByte 1024).toNat ≤ 7
  bits : nbits + (s.inByte 1024).toNat = 8 * (s.inputLen - 1025)
  counts : weightSum s.containerFreq ≤ s.params.bufBytes

theorem tablesOk_decodeReady {s : State} (h : weightSum s.containerFreq ≤ s.params.bufBytes) :
    TablesOk s.decodeReady := by
  have buffer := bufBytes_le s
  have tables := tablesOk_pipeline s (f := s.containerFreq) (by omega)
  exact ⟨tables.tree, tables.codes⟩

theorem MemoryOk.decodeReady {s : State} (h : MemoryOk s) : MemoryOk s.decodeReady :=
  h.of_eq rfl rfl rfl

namespace HoldsContainer

variable {s : State} {nbits : Nat}

theorem streamBits_eq (h : HoldsContainer s nbits) :
    streamBits (s.inputLen - 1025) (Memory.read s.ibuf 1024) = nbits := by
  have bits := h.bits
  rw [streamBits, ← State.inByte]
  omega

theorem tablesOk (h : HoldsContainer s nbits) : TablesOk s.decodeReady :=
  tablesOk_decodeReady h.counts

/-- TOTAL_BITS and PAD_COUNT as the run phase leaves them (R226). -/
theorem decodeReady_eq (h : HoldsContainer s nbits) :
    s.decodeReady
      = { (s.loadFreq s.containerFreq).treeStep.codeStep with
          totalBits := BitVec.ofNat 32 nbits, padCount := (s.inByte 1024).setWidth 3 } := by
  have pad : BitVec.ofNat 3 (Memory.read s.ibuf 1024).toNat = (s.inByte 1024).setWidth 3 :=
    BitVec.eq_of_toNat_eq (by simp [State.inByte])
  rw [State.decodeReady, State.presentStream, h.streamBits_eq, pad]

/-- Past its checks DECODE is the end of the walk over the stream. -/
theorem exec_decode (h : HoldsContainer s nbits) {b : List Byte} {rest : Bits}
    (split : CountedSplit s.decodeReady (weightSum s.containerFreq) (s.inBits 1025 nbits) b rest) :
    exec .decode s
      = .next (s.decodeReady.finishWalk
          ⟨b, s.decodeReady.countedEnd (weightSum s.containerFreq) b rest⟩) := by
  have bits := h.bits
  have passed : s.decodeCheck = none :=
    (decodeCheck_eq_none s).mpr ⟨h.inRange, h.len_ge,
      ⟨h.pad_le, (Nat.le_add_left _ _).trans_eq h.bits⟩, h.counts⟩
  have stream : s.payloadStream 1024 (s.inputLen - 1025) = s.inBits 1025 nbits := by
    rw [State.payloadStream, h.streamBits_eq]
    exact expand_readBytes s 1025 (by omega)
  have walk : s.decodeReady.decodeStream (some (weightSum s.containerFreq)) (s.inBits 1025 nbits)
      = ⟨b, s.decodeReady.countedEnd (weightSum s.containerFreq) b rest⟩ :=
    h.tablesOk.walk_counted rfl (h.counts.trans_eq (State.decodeReady_params s ▸ rfl)) split
  rw [exec_decode_of_check_none passed, stream, walk]

/-- DECODE's run phase and completion write the tables, OBUF, the stream's registers and completion
state only (R226). -/
theorem frame (h : HoldsContainer s nbits) (r : WalkResult) :
    s.decodeReady.finishWalk r = State.completed { s with
      freq := (s.decodeReady.finishWalk r).freq, node := (s.decodeReady.finishWalk r).node
      root := (s.decodeReady.finishWalk r).root, symCount := (s.decodeReady.finishWalk r).symCount
      totalWeight := (s.decodeReady.finishWalk r).totalWeight
      codeLen := (s.decodeReady.finishWalk r).codeLen
      codeBits := (s.decodeReady.finishWalk r).codeBits, treeValid := true, codeValid := true
      obuf := (s.decodeReady.finishWalk r).obuf
      totalBits := BitVec.ofNat 32 nbits, padCount := (s.inByte 1024).setWidth 3 }
      (s.decodeReady.finishWalk r).outLen (s.decodeReady.finishWalk r).errCode
      (s.decodeReady.finishWalk r).errInfo := by
  rw [finishWalk_eq_completed, h.decodeReady_eq]
  rfl

/-- What DECODE leaves in OUT_LEN and OBUF: the symbols of the split. -/
theorem output (h : HoldsContainer s nbits) (hs : MemoryOk s) {b : List Byte}
    (e : Option CmdError) (hb : b.length ≤ weightSum s.containerFreq) :
    (s.decodeReady.finishWalk ⟨b, e⟩).outLen.toNat = b.length
      ∧ (∀ k (hk : k < b.length), (s.decodeReady.finishWalk ⟨b, e⟩).outByte k = b[k])
      ∧ ∀ a, b.length ≤ a → (s.decodeReady.finishWalk ⟨b, e⟩).outByte a = s.outByte a := by
  have counts := h.counts
  have buffer := bufBytes_le s
  refine ⟨?_, fun k hk => outByte_finishWalk_of_lt hs.decodeReady.obufWf hk, fun a ha => ?_⟩
  · rw [finishWalk_eq_completed]
    exact Nat.mod_eq_of_lt (show b.length < 2 ^ 32 by omega)
  · rw [outByte_finishWalk hs.decodeReady.obufWf, if_neg (Nat.not_lt.mpr ha)]
    rfl

end HoldsContainer

/-- Settles O35: the stream splits, the walk ends as `countedEnd` says, and each clause is a case
of it. -/
theorem decodeRebuildsAndDecodes : Obligations.DecodeRebuildsAndDecodes := by
  intro s n nbits hs sum h1025 hn hpad hbits hw
  rw [← weightSum_containerFreq] at sum
  subst sum
  have h : HoldsContainer s nbits := ⟨h1025, hn, hpad, hbits, hw⟩
  obtain ⟨b, rest, split⟩ :=
    h.tablesOk.exists_countedSplit rfl (weightSum s.containerFreq) (s.inBits 1025 nbits)
  obtain ⟨outLen, bytes, above⟩ := h.output hs
    (s.decodeReady.countedEnd (weightSum s.containerFreq) b rest) split.length_le
  have whole : ∀ b' : List Byte, b'.length = weightSum s.containerFreq →
      (∀ c ∈ b', s.decodeReady.freqOf c ≠ 0#32) → s.decodeReady.codesOf b' = s.inBits 1025 nbits →
      b = b' ∧ rest = [] := fun b' hb present codes =>
    h.tablesOk.countedSplit_unique rfl split (.of_codes hb present codes)
  refine ⟨_, h.exec_decode split, h.frame _, h.tablesOk.finishWalk _, fun c => ?_, ?_, ?_, ?_, ?_,
    ?_, b, rest, ?_, ?_, outLen, bytes, ?_⟩
  all_goals simp only [finishWalk_errCode, finishWalk_errInfo, finishWalk_freq, finishWalk_freqOf,
    finishWalk_codeOf, finishWalk_codesOf, outLen]
  · exact bySymbol_containerFreq s c
  · rw [errCode_countedEnd]
    exact ite_eq_or_eq _ _ _
  · rw [errCode_countedEnd]
    constructor
    · intro ok
      obtain ⟨all, rfl⟩ : b.length = weightSum s.containerFreq ∧ rest = [] := by simpa using ok
      exact ⟨b, all, split.present, (List.append_nil _).symm.trans split.codes⟩
    · rintro ⟨b', hb, present, codes⟩
      obtain ⟨rfl, last⟩ := whole b' hb present codes
      exact if_pos ⟨hb, last⟩
  · intro b' hb present codes
    obtain ⟨rfl, -⟩ := whole b' hb present codes
    exact ⟨hb, bytes⟩
  · exact split.length_le
  · exact above
  · exact split.codes
  · exact split.present
  · refine ⟨fun all last => ?_, fun all more => ?_, split.unmatched, fun fewer more one => ?_,
      fun fewer more many => ?_, fun fewer last => ?_⟩
    all_goals rw [State.countedEnd]
    · rw [if_pos all, if_pos last]
      exact ⟨rfl, rfl⟩
    · rw [if_pos all, if_neg more]
      exact ⟨rfl, rfl⟩
    · rw [if_neg fewer.ne, if_neg more, if_neg (by omega)]
      exact ⟨h.tablesOk.head?_unmatched rfl one (split.unmatched fewer) more, rfl, rfl⟩
    · rw [if_neg fewer.ne, if_neg more, if_pos many]
      exact ⟨rfl, rfl⟩
    · rw [if_neg fewer.ne, if_pos last]
      exact ⟨rfl, rfl⟩

end Sys2Proof.Machine
end

section
/-! SUPPORT. The Container there and back (spec/46_container.md R223, R229, R230): what a copied
Container holds, its round trip, and the refusal of one that lost its last byte. -/

namespace Sys2Proof.Machine

/-! ### Tables of the same counts -/

/-- The counts decide every table the flags assert (R156, R171). -/
theorem TablesOk.eq_of_freq {s t : State} (hs : TablesOk s) (ht : TablesOk t)
    (vs : s.codeValid = true) (vt : t.codeValid = true) (freq : t.freq = s.freq) :
    t.node = s.node ∧ t.root = s.root ∧ t.symCount = s.symCount ∧ t.totalWeight = s.totalWeight
      ∧ t.codeLen = s.codeLen ∧ t.codeBits = s.codeBits := by
  obtain ⟨-, -, same⟩ := codeTableIsPrefixFree s hs vs
  obtain ⟨-, node, count, root, weight⟩ := hs.tree (hs.codes vs).1
  obtain ⟨-, node', count', root', weight'⟩ := ht.tree (ht.codes vt).1
  rw [freq] at node' count' root' weight'
  have hn := node'.trans node.symm
  have hr := root'.trans root.symm
  have hc := count'.trans count.symm
  exact ⟨hn, hr, hc, weight'.trans weight.symm, same t ht vt hn hr hc⟩

theorem TablesOk.codeOf_congr {s t : State} (hs : TablesOk s) (ht : TablesOk t)
    (vs : s.codeValid = true) (vt : t.codeValid = true) (freq : t.freq = s.freq) :
    t.codeOf = s.codeOf := by
  obtain ⟨-, -, -, -, len, bits⟩ := hs.eq_of_freq ht vs vt freq
  funext c
  simp only [State.codeOf, State.codeLenOf, len, bits]

/-! ### What a copied Container holds (R223) -/

/-- The pad count stands behind the counts (R221). -/
theorem toNat_outByte_writeContainer_pad {s : State} (h : Memory.wf s.obuf = true)
    (b : List Byte) : ((s.writeContainer b).outByte 1024).toNat = padOf (s.stream b).length :=
  toNat_outByte_packStep_pad
    (s := { s with obuf := Memory.writeBytes s.obuf 0 (freqSection s.freq) })
    (Memory.wf_writeBytes _ 0 _ h) 1024 b

/-- Stream bit 8j + i is bit 7 − i of the byte j behind the header (R63, R187, R221). -/
theorem getLsbD_outByte_writeContainer {s : State} (h : Memory.wf s.obuf = true) (b : List Byte)
    {j i : Nat} (hj : j < packedLen (s.stream b).length) (hi : i < 8) :
    ((s.writeContainer b).outByte (1025 + j)).getLsbD (7 - i)
      = (s.stream b).getD (8 * j + i) false := by
  have bit := getLsbD_outByte_packStep
    (s := { s with obuf := Memory.writeBytes s.obuf 0 (freqSection s.freq) })
    (Memory.wf_writeBytes _ 0 _ h) 1024 b hj hi
  rw [← Nat.add_assoc] at bit
  exact bit

/-- IBUF of u begins with the first n bytes of the Container written from the state s. -/
structure BeginsContainer (s : State) (b : List Byte) (u : State) (n : Nat) : Prop where
  canonical : Memory.wf s.obuf = true
  bytes : ∀ k < n, u.inByte k = (s.writeContainer b).outByte k

namespace BeginsContainer

variable {s u : State} {b : List Byte} {n : Nat}

/-- Deserializing the counts gives back the table (R228). -/
theorem containerFreq_eq (h : BeginsContainer s b u n) (hn : 1024 ≤ n) :
    u.containerFreq = s.freq := by
  refine Table.ext_bySymbol fun c => ?_
  have hc := c.isLt
  have byte : ∀ i < 4, Memory.read u.ibuf (4 * c.toNat + i) = wordByte (s.freq.bySymbol c) i := by
    intro i hi
    rw [← State.inByte, h.bytes _ (by omega), outByte_writeContainer h.canonical,
      if_pos (by omega), getD_freqSection _ c hi]
  have first := byte 0 (by omega)
  rw [Nat.add_zero] at first
  rw [bySymbol_containerFreq, Memory.readWord, first, byte 1 (by omega), byte 2 (by omega),
    byte 3 (by omega), le32_wordByte]

theorem toNat_pad (h : BeginsContainer s b u n) (hn : 1025 ≤ n) :
    (u.inByte 1024).toNat = padOf (s.stream b).length := by
  rw [h.bytes _ (by omega), toNat_outByte_writeContainer_pad h.canonical]

/-- The payload's first bits are the stream's. -/
theorem inBits_eq (h : BeginsContainer s b u n) {m : Nat} (hm : m ≤ (s.stream b).length)
    (hn : 1025 + packedLen m ≤ n) : u.inBits 1025 m = (s.stream b).take m := by
  rw [packedLen] at hn
  refine List.ext_getElem (by simp [hm]) fun k hk hk' => ?_
  rw [length_inBits] at hk
  have byte : k / 8 < packedLen (s.stream b).length := by
    rw [packedLen]
    omega
  have bit := getLsbD_outByte_writeContainer h.canonical b byte (Nat.mod_lt k (by decide : 8 > 0))
  rw [← h.bytes _ (by omega), Nat.div_add_mod, List.getD_eq_getElem _ _ (by omega)] at bit
  simpa [State.inBits] using bit

end BeginsContainer

/-! ### ENCODE's Container, in another state's IBUF -/

/-- A successful ENCODE wrote its Container, which fits. -/
theorem exec_encode_success {s t : State} (h : exec .encode s = .next t)
    (ok : t.errCode = .noError) :
    s.inputLen ≤ s.params.bufBytes ∧ s.containerLen ≤ s.params.bufBytes
      ∧ t = (s.encodeTables.writeContainer s.inputBytes).succeed s.containerLen := by
  obtain ⟨hn, rfl⟩ := exec_encode_noError h ok
  refine ⟨hn, Nat.le_of_not_lt fun full => ?_, rfl⟩
  rw [exec_encode_of_full hn full, Host.Outcome.next.injEq] at h
  exact ErrCode.noConfusion (congrArg State.errCode h)

/-- u's input is the first n bytes of the Container that ENCODE writes in s. -/
structure HoldsEncoded (s u : State) (n : Nat) : Prop where
  inRange : s.inputLen ≤ s.params.bufBytes
  fits : s.containerLen ≤ s.params.bufBytes
  params : u.params = s.params
  len : u.inputLen = n
  begins : BeginsContainer s.encodeTables s.inputBytes u n

/-- A copy of n bytes of ENCODE's output, n at most OUT_LEN, which is the Container's length. -/
theorem holdsEncoded_of_copied {s t u : State} {n : Nat} (hs : MemoryOk s)
    (h : exec .encode s = .next t) (ok : t.errCode = .noError) (copied : CopiedInput t u n) :
    HoldsEncoded s u n ∧ t.outLen.toNat = s.containerLen := by
  obtain ⟨hn, fits, rfl⟩ := exec_encode_success h ok
  obtain ⟨params, len, bytes⟩ := copied
  exact ⟨⟨hn, fits, params.trans (by simp), len, hs.encodeTables.obufWf,
    fun k hk => (bytes k hk).trans (outByte_succeed _ _ k)⟩, toNat_ofNat_containerLen fits⟩

namespace HoldsEncoded

variable {s u : State} {n : Nat}

/-- The counts add up to the number of input bytes. -/
theorem weightSum_eq (h : HoldsEncoded s u n) (hn : 1024 ≤ n) :
    weightSum u.containerFreq = s.inputLen := by
  rw [h.begins.containerFreq_eq hn, weightSum_eq_sumSymbols, ← length_inputBytes,
    ← sumSymbols_count]
  exact congrArg sumSymbols (funext (toNat_freqOf_encodeTables s))

/-- With the pad count the stream fills whole bytes. -/
theorem toNat_pad (h : HoldsEncoded s u n) (hn : 1025 ≤ n) :
    (s.encodeTables.stream s.inputBytes).length + (u.inByte 1024).toNat
        = 8 * (s.containerLen - 1025)
      ∧ (u.inByte 1024).toNat ≤ 7 := by
  rw [h.begins.toNat_pad hn, padOf_add, State.containerLen, length_stream, Nat.add_sub_cancel_left]
  exact ⟨rfl, padOf_le _⟩

/-- A copy at least that long passes DECODE's checks, presenting the stream's first m bits. -/
theorem holdsContainer (h : HoldsEncoded s u n) (hn : 1025 ≤ n) (le : n ≤ s.containerLen) {m : Nat}
    (hm : m + (u.inByte 1024).toNat = 8 * (n - 1025)) :
    HoldsContainer u m ∧ u.inBits 1025 m = (s.encodeTables.stream s.inputBytes).take m := by
  obtain ⟨bits, pad⟩ := h.toNat_pad hn
  have fits := h.fits
  refine ⟨⟨h.len ▸ hn, ?_, pad, h.len ▸ hm, ?_⟩, h.begins.inBits_eq (by omega) ?_⟩
  · rw [h.len, h.params]
    omega
  · rw [h.weightSum_eq (by omega), h.params]
    exact h.inRange
  · rw [packedLen]
    omega

/-- The rebuilt tables split ENCODE's stream into its input. -/
theorem countedSplit (h : HoldsEncoded s u n) (hn : 1024 ≤ n)
    (tables : TablesOk u.decodeReady) :
    CountedSplit u.decodeReady (weightSum u.containerFreq) (s.encodeTables.stream s.inputBytes)
      s.inputBytes [] := by
  have freq : u.decodeReady.freq = s.encodeTables.freq := h.begins.containerFreq_eq hn
  have codes := (tablesOk_encodeTables h.inRange).codeOf_congr tables rfl rfl freq
  refine .of_codes ((length_inputBytes s).trans (h.weightSum_eq hn).symm) (fun c hc => ?_) ?_
  · rw [State.freqOf, freq]
    exact freqOf_encodeTables_ne_zero hc
  · rw [State.codesOf, codes, State.stream]

end HoldsEncoded

/-- Settles O36: the copied Container holds the stream of the input, which splits into it. -/
theorem decodeInvertsEncode : Obligations.DecodeInvertsEncode := by
  intro s t u hs hu run ok copied
  obtain ⟨h, len⟩ := holdsEncoded_of_copied hs run ok copied
  have long : 1025 ≤ t.outLen.toNat := by
    rw [len, State.containerLen]
    omega
  obtain ⟨bits, -⟩ := h.toNat_pad long
  obtain ⟨holds, stream⟩ := h.holdsContainer long len.le (len ▸ bits)
  rw [List.take_length] at stream
  have split := h.countedSplit (by omega) holds.tablesOk
  rw [← stream] at split
  obtain ⟨outLen, bytes, -⟩ := holds.output hu (u.decodeReady.countedEnd _ s.inputBytes [])
    split.length_le
  refine ⟨_, holds.exec_decode split, ?_, outLen.trans (length_inputBytes s), fun k hk => ?_⟩
  · rw [finishWalk_errCode, errCode_countedEnd, if_pos]
    exact ⟨(length_inputBytes s).trans (h.weightSum_eq (by omega)).symm, rfl⟩
  · rw [bytes k ((length_inputBytes s).symm ▸ hk)]
    simp [inputBytes_eq_map_inByte]

/-! ### The lost byte (R229) -/

/-- With one symbol every bit of a stream is 0 (R173). -/
theorem TablesOk.true_not_mem_codesOf {s : State} (hs : TablesOk s) (hv : s.codeValid = true)
    (one : (alphabet s.freq).length = 1) {b : List Byte} (present : ∀ c ∈ b, s.freqOf c ≠ 0#32) :
    true ∉ s.codesOf b := by
  intro mem
  obtain ⟨c, hc, bit⟩ := List.mem_flatMap.mp mem
  rw [(hs.code_of_single hv ((hs.toNat_symCount_of_codes hv).trans one) (present c hc)).1] at bit
  simp at bit

/-- A stream of n symbols cut short splits into fewer, and its rest is no dead end: DECODE ends with
LEFTOVER or SHORT (R206, R229). -/
theorem TablesOk.countedEnd_of_cut {s : State} (hs : TablesOk s) (hv : s.codeValid = true)
    {n m : Nat} {t : Bits} {b b' : List Byte} {rest : Bits} (whole : CountedSplit s n t b [])
    (hb : b.length = n) (hm : m < t.length) (cut : CountedSplit s n (t.take m) b' rest) :
    s.countedEnd n b' rest = some (leftover rest.length)
      ∨ s.countedEnd n b' rest = some (short b'.length) := by
  have joined : s.codesOf b' ++ (rest ++ t.drop m) = t := by
    rw [← List.append_assoc, cut.codes, List.take_append_drop]
  have fewer : b'.length ≠ n := by
    intro all
    have again : CountedSplit s n t b' (rest ++ t.drop m) :=
      ⟨cut.present, joined, cut.length_le, fun h => absurd all h.ne⟩
    obtain ⟨-, nothing⟩ := hs.countedSplit_unique hv whole again
    have lost : 0 < (t.drop m).length := by rw [List.length_drop]; omega
    have := congrArg List.length nothing
    rw [List.length_append, List.length_nil] at this
    omega
  rw [State.countedEnd, if_neg fewer]
  by_cases last : rest = []
  · exact .inr (if_pos last)
  rw [if_neg last]
  refine .inl (if_pos (Nat.le_of_not_lt fun few => ?_))
  have unmatched := cut.unmatched (lt_of_le_of_ne cut.length_le fewer)
  obtain ⟨c, hc⟩ : ∃ c, c ∈ b := List.exists_mem_of_length_pos (by have := cut.length_le; omega)
  have pos := List.length_pos_of_mem ((mem_alphabet s.freq c).mpr (whole.present c hc))
  have one : (alphabet s.freq).length = 1 := by omega
  have bit := hs.head?_unmatched hv one unmatched last
  refine hs.true_not_mem_codesOf hv one whole.present ?_
  rw [← List.append_nil (s.codesOf b), whole.codes, ← joined]
  exact List.mem_append_right _ (List.mem_append_left _ (List.mem_of_mem_head? bit))

/-- A non-empty input has a non-empty stream: its bytes have codes (R176). -/
theorem length_stream_encodeTables_pos {s : State} (hn : s.inputLen ≤ s.params.bufBytes)
    (pos : 0 < s.inputLen) : 0 < (s.encodeTables.stream s.inputBytes).length := by
  rw [← length_inputBytes] at pos
  obtain ⟨c, hc⟩ := List.exists_mem_of_length_pos pos
  refine List.length_pos_of_ne_nil fun empty => ?_
  exact (tablesOk_encodeTables hn).codeOf_ne_nil rfl (freqOf_encodeTables_ne_zero hc)
    (List.flatMap_eq_nil_iff.mp empty c hc)

/-- A Container from a non-empty input, less its last byte, has a pad count larger than its payload,
or presents a stream cut short. -/
theorem HoldsEncoded.exec_decode_of_cut {s u : State} (h : HoldsEncoded s u (s.containerLen - 1))
    (pos : 0 < s.inputLen) :
    ∃ w, exec .decode u = .next w ∧ w.errCode = .corrupt
      ∧ (w.errInfo.reason = 2#4 ∨ w.errInfo.reason = 3#4 ∨ w.errInfo.reason = 5#4) := by
  have bits := length_stream_encodeTables_pos h.inRange pos
  have long : 1025 ≤ s.containerLen - 1 := by
    rw [State.containerLen, ← length_stream, packedLen]
    omega
  obtain ⟨total, pad⟩ := h.toNat_pad long
  obtain exceeds | le := Nat.lt_or_ge (8 * (s.containerLen - 1 - 1025)) (u.inByte 1024).toNat
  · obtain ⟨-, -, legal⟩ := decodeChecksInOrder u _ rfl
    have fits := h.fits
    obtain ⟨-, refused, -⟩ := legal (h.len.symm ▸ long) (by rw [h.len, h.params]; omega)
    exact ⟨_, refused pad (h.len.symm ▸ exceeds), rfl, .inl rfl⟩
  · obtain ⟨holds, stream⟩ := h.holdsContainer (m := 8 * (s.containerLen - 1 - 1025)
      - (u.inByte 1024).toNat) long (by omega) (by omega)
    have whole := h.countedSplit (by omega) holds.tablesOk
    obtain ⟨b, rest, cut⟩ := holds.tablesOk.exists_countedSplit rfl (weightSum u.containerFreq)
      (u.inBits 1025 (8 * (s.containerLen - 1 - 1025) - (u.inByte 1024).toNat))
    have run := holds.exec_decode cut
    rw [stream] at cut
    obtain left | short := holds.tablesOk.countedEnd_of_cut rfl whole
      ((length_inputBytes s).trans (h.weightSum_eq (by omega)).symm) (by omega) cut
    · rw [left] at run
      exact ⟨_, run, rfl, .inr (.inl rfl)⟩
    · rw [short] at run
      exact ⟨_, run, rfl, .inr (.inr rfl)⟩

/-- Settles O37: from the empty input 1024 bytes are left, which no Container has. -/
theorem truncatedContainerIsRefused : Obligations.TruncatedContainerIsRefused := by
  intro s t u hs hu run ok copied
  obtain ⟨h, len⟩ := holdsEncoded_of_copied hs run ok copied
  rw [len] at h
  obtain empty | pos := Nat.eq_zero_or_pos s.inputLen
  · have short : u.inputLen < 1025 := by
      have := containerLen_le h.inRange
      rw [h.len]
      omega
    exact ⟨_, exec_decode_of_check_some (decodeCheck_of_short short),
      fun pos => absurd empty pos.ne', fun _ => ⟨rfl, rfl⟩⟩
  · obtain ⟨w, refused, corrupt⟩ := h.exec_decode_of_cut pos
    exact ⟨w, refused, fun _ => corrupt, fun empty => absurd empty pos.ne'⟩

end Sys2Proof.Machine
end

section
/-! SUPPORT. ENCODE and DECODE as functions of their input (spec/46_container.md R231): two states
with the same input end with the same report and output, and on success with the same tables. -/

namespace Sys2Proof.Machine

/-- What two completions agree in when they come from the same input (R231). -/
structure SameOutcome (t t' : State) : Prop where
  errCode : t'.errCode = t.errCode
  errInfo : t'.errInfo = t.errInfo
  outLen : t'.outLen = t.outLen
  output : ∀ k < t.outLen.toNat, t'.outByte k = t.outByte k
  tables : t.errCode = .noError → t'.freq = t.freq ∧ SameTables t t' ∧ t'.codeLen = t.codeLen
    ∧ t'.codeBits = t.codeBits ∧ t'.totalBits = t.totalBits ∧ t'.padCount = t.padCount
    ∧ t'.totalWeight = t.totalWeight ∧ t'.treeValid = t.treeValid

/-- Equal errors with no output are the same outcome, whatever the states hold. -/
theorem sameOutcome_of_error (s s' : State) {code : ErrCode} (info : ErrInfo)
    (error : code ≠ .noError) :
    SameOutcome (s.completed 0#32 code info) (s'.completed 0#32 code info) :=
  ⟨rfl, rfl, rfl, fun k hk => absurd hk (Nat.not_lt_zero k), fun ok => absurd ok error⟩

/-- Under valid flags the counts decide the tables. -/
theorem TablesOk.sameTables_of_freq {t t' : State} (ht : TablesOk t) (ht' : TablesOk t')
    (v : t.codeValid = true) (v' : t'.codeValid = true) (params : t'.params = t.params)
    (freq : t'.freq = t.freq) (bits : t'.totalBits = t.totalBits)
    (pad : t'.padCount = t.padCount) :
    t'.freq = t.freq ∧ SameTables t t' ∧ t'.codeLen = t.codeLen ∧ t'.codeBits = t.codeBits
      ∧ t'.totalBits = t.totalBits ∧ t'.padCount = t.padCount ∧ t'.totalWeight = t.totalWeight
      ∧ t'.treeValid = t.treeValid := by
  obtain ⟨node, root, count, weight, len, code⟩ := ht.eq_of_freq ht' v v' freq
  exact ⟨freq, ⟨v'.trans v.symm, node, root, count, params⟩, len, code, bits, pad, weight,
    (ht'.codes v').1.trans (ht.codes v).1.symm⟩

theorem TablesOk.stream_congr {s t : State} (hs : TablesOk s) (ht : TablesOk t)
    (vs : s.codeValid = true) (vt : t.codeValid = true) (freq : t.freq = s.freq) (b : List Byte) :
    t.stream b = s.stream b := by
  rw [State.stream, State.stream, hs.codeOf_congr ht vs vt freq]

/-- Two states with the same counts write the same Container. -/
theorem sameOutcome_of_writeContainer {u u' : State} (wf : Memory.wf u.obuf = true)
    (wf' : Memory.wf u'.obuf = true) (hu : TablesOk u) (hu' : TablesOk u')
    (v : u.codeValid = true) (v' : u'.codeValid = true) (params : u'.params = u.params)
    (freq : u'.freq = u.freq) {b : List Byte} {n : Nat}
    (len : n = 1025 + packedLen (u.streamLen b)) (fits : (BitVec.ofNat 32 n).toNat = n) :
    SameOutcome ((u.writeContainer b).succeed n) ((u'.writeContainer b).succeed n) := by
  have stream := hu.stream_congr hu' v v' freq b
  have bits : u'.streamLen b = u.streamLen b := by rw [← length_stream, stream, length_stream]
  refine ⟨rfl, rfl, rfl, fun k hk => ?_, fun _ => ?_⟩
  · rw [State.succeed_outLen, fits, len] at hk
    rw [outByte_succeed, outByte_succeed, outByte_writeContainer wf, outByte_writeContainer wf',
      freq, stream, bits, if_pos hk, if_pos hk]
  · refine TablesOk.sameTables_of_freq ⟨hu.tree, hu.codes⟩ ⟨hu'.tree, hu'.codes⟩ v v' params freq
      ?_ ?_
    · rw [State.succeed_totalBits, State.succeed_totalBits, writeContainer_totalBits,
        writeContainer_totalBits, bits]
    · exact congrArg (fun t => BitVec.ofNat 3 (padOf (List.length t))) stream

/-- Two states with the same counts and stream registers end a walk alike. -/
theorem sameOutcome_of_finishWalk {u u' : State} (wf : Memory.wf u.obuf = true)
    (wf' : Memory.wf u'.obuf = true) (hu : TablesOk u) (hu' : TablesOk u')
    (v : u.codeValid = true) (v' : u'.codeValid = true) (params : u'.params = u.params)
    (freq : u'.freq = u.freq) (bits : u'.totalBits = u.totalBits)
    (pad : u'.padCount = u.padCount) {r : WalkResult} (fits : r.Fits u.params.bufBytes) :
    SameOutcome (u.finishWalk r) (u'.finishWalk r) := by
  refine ⟨by simp, by simp, ?_, fun k hk => ?_, fun _ => ?_⟩
  · rw [finishWalk_eq_completed, finishWalk_eq_completed]
    rfl
  · rw [toNat_outLen_finishWalk fits] at hk
    rw [outByte_finishWalk_of_lt wf hk, outByte_finishWalk_of_lt wf' hk]
  · have ends := hu.finishWalk r
    have ends' := hu'.finishWalk r
    rw [finishWalk_eq_completed] at ends ends' ⊢
    rw [finishWalk_eq_completed]
    exact ends.sameTables_of_freq ends' v v' params freq bits pad

namespace SameInput

variable {s s' : State}

theorem params_eq (h : SameInput s s') : s'.params = s.params := h.1

theorem inputLen_eq (h : SameInput s s') : s'.inputLen = s.inputLen := congrArg BitVec.toNat h.2.1

theorem inByte_eq (h : SameInput s s') {k : Nat} (hk : k < s.inputLen) :
    Memory.read s'.ibuf k = Memory.read s.ibuf k := h.2.2 k hk

theorem inputBytes_eq (h : SameInput s s') : s'.inputBytes = s.inputBytes := by
  rw [inputBytes_eq_map_inByte, inputBytes_eq_map_inByte, h.inputLen_eq]
  exact List.map_congr_left fun k hk => h.inByte_eq (List.mem_range.mp hk)

/-! ### ENCODE -/

theorem freq_encodeTables (h : SameInput s s') : s'.encodeTables.freq = s.encodeTables.freq :=
  congrArg freqTable h.inputBytes_eq

theorem containerLen_eq (h : SameInput s s') (hn : s.inputLen ≤ s.params.bufBytes) :
    s'.containerLen = s.containerLen := by
  have hn' : s'.inputLen ≤ s'.params.bufBytes := by rwa [h.inputLen_eq, h.params_eq]
  rw [State.containerLen, State.containerLen, ← length_stream, ← length_stream, h.inputBytes_eq,
    (tablesOk_encodeTables hn).stream_congr (tablesOk_encodeTables hn') rfl rfl h.freq_encodeTables]

/-- ENCODE's two outcomes: the range check, the Container's length and its bytes agree. -/
theorem exec_encode (h : SameInput s s') (hs : MemoryOk s) (hs' : MemoryOk s') :
    ∃ t t', exec .encode s = .next t ∧ exec .encode s' = .next t' ∧ SameOutcome t t' := by
  have len := h.inputLen_eq
  have params := h.params_eq
  obtain lt | hn := Nat.lt_or_ge s.params.bufBytes s.inputLen
  · refine ⟨_, _, exec_encode_of_lt lt, exec_encode_of_lt (by rwa [len, params]), ?_⟩
    rw [len]
    exact sameOutcome_of_error s s' _ (by decide)
  have hn' : s'.inputLen ≤ s'.params.bufBytes := by rwa [len, params]
  have need := h.containerLen_eq hn
  obtain full | fits := Nat.lt_or_ge s.params.bufBytes s.containerLen
  · refine ⟨_, _, exec_encode_of_full hn full, exec_encode_of_full hn' (by rwa [need, params]), ?_⟩
    rw [need]
    exact sameOutcome_of_error _ _ _ (by decide)
  · refine ⟨_, _, exec_encode_of_fits hn fits, exec_encode_of_fits hn' (by rwa [need, params]), ?_⟩
    rw [need, h.inputBytes_eq]
    exact sameOutcome_of_writeContainer hs.encodeTables.obufWf hs'.encodeTables.obufWf
      (tablesOk_encodeTables hn) (tablesOk_encodeTables hn') rfl rfl (by simpa using params)
      h.freq_encodeTables rfl (toNat_ofNat_containerLen fits)

/-! ### DECODE -/

theorem containerFreq_eq (h : SameInput s s') (h1025 : 1025 ≤ s.inputLen) :
    s'.containerFreq = s.containerFreq := by
  refine Table.ext_bySymbol fun c => ?_
  have hc := c.isLt
  simp only [bySymbol_containerFreq, Memory.readWord]
  rw [h.inByte_eq (by omega), h.inByte_eq (by omega), h.inByte_eq (by omega),
    h.inByte_eq (by omega)]

theorem payloadStream_eq (h : SameInput s s') (h1025 : 1025 ≤ s.inputLen) :
    s'.payloadStream 1024 (s'.inputLen - 1025) = s.payloadStream 1024 (s.inputLen - 1025) := by
  have bytes : Memory.readBytes s'.ibuf 1025 (s.inputLen - 1025)
      = Memory.readBytes s.ibuf 1025 (s.inputLen - 1025) :=
    List.map_congr_left fun k hk => h.inByte_eq (by rw [List.mem_range'] at hk; omega)
  rw [State.payloadStream, State.payloadStream, h.inputLen_eq, h.inByte_eq (by omega), bytes]

theorem decodeCheck_eq (h : SameInput s s') : s'.decodeCheck = s.decodeCheck := by
  have len := h.inputLen_eq
  obtain short | h1025 := Nat.lt_or_ge s.inputLen 1025
  · rw [decodeCheck_of_short short, decodeCheck_of_short (len.symm ▸ short), len]
  · rw [Machine.decodeCheck_eq, Machine.decodeCheck_eq, State.rangeCheck, State.containerCheck,
      State.padCheck, State.countCheck, len, h.params_eq, h.inByte_eq (by omega),
      h.containerFreq_eq h1025]
    rfl

/-- TOTAL_BITS and PAD_COUNT of the stream presented (R34, R35). -/
theorem streamRegisters_eq (h : SameInput s s') (h1025 : 1025 ≤ s.inputLen) :
    s'.decodeReady.totalBits = s.decodeReady.totalBits
      ∧ s'.decodeReady.padCount = s.decodeReady.padCount := by
  simp only [State.decodeReady, State.presentStream_totalBits, State.presentStream_padCount,
    h.inputLen_eq, h.inByte_eq (k := 1024) (by omega), and_self]

/-- DECODE's two outcomes: the checks, the counts and the stream agree, and so does the walk. -/
theorem exec_decode (h : SameInput s s') (hs : MemoryOk s) (hs' : MemoryOk s') :
    ∃ t t', exec .decode s = .next t ∧ exec .decode s' = .next t' ∧ SameOutcome t t' := by
  have check := h.decodeCheck_eq
  cases refused : s.decodeCheck with
  | some e =>
    exact ⟨_, _, exec_decode_of_check_some refused, exec_decode_of_check_some (check.trans refused),
      sameOutcome_of_error s s' _ (decodeCheck_shown refused).1⟩
  | none =>
    have passed := check.trans refused
    obtain ⟨-, h1025, -, counts⟩ := (decodeCheck_eq_none s).mp refused
    obtain ⟨-, -, -, counts'⟩ := (decodeCheck_eq_none s').mp passed
    have params : s'.decodeReady.params = s.decodeReady.params := by
      simpa using h.params_eq
    have freq : s'.decodeReady.freq = s.decodeReady.freq := h.containerFreq_eq h1025
    have tables := tablesOk_decodeReady counts
    have tables' := tablesOk_decodeReady counts'
    obtain ⟨node, root, count, -⟩ := tables.eq_of_freq tables' rfl rfl freq
    have run := exec_decode_of_check_none refused
    have run' := exec_decode_of_check_none passed
    rw [h.containerFreq_eq h1025, h.payloadStream_eq h1025,
      decodeStream_congr node root count params] at run'
    refine ⟨_, _, run, run', ?_⟩
    exact sameOutcome_of_finishWalk hs.decodeReady.obufWf hs'.decodeReady.obufWf tables tables' rfl
      rfl params freq (h.streamRegisters_eq h1025).1 (h.streamRegisters_eq h1025).2
      (decodeStream_fits _ _ _)

end SameInput

/-- Settles O38: both commands answer one state each, and the two have the same outcome. -/
theorem encodeAndDecodeDependOnTheInputOnly : Obligations.EncodeAndDecodeDependOnTheInputOnly := by
  intro i s t s' t' either hs hs' same run run'
  have both : ∃ t t', exec i s = .next t ∧ exec i s' = .next t' ∧ SameOutcome t t' := by
    obtain rfl | rfl := either
    · exact same.exec_encode hs hs'
    · exact same.exec_decode hs hs'
  obtain ⟨u, u', runs, runs', outcome⟩ := both
  obtain rfl : u = t := Host.Outcome.next.inj (runs.symm.trans run)
  obtain rfl : u' = t' := Host.Outcome.next.inj (runs'.symm.trans run')
  exact ⟨outcome.errCode, outcome.errInfo, outcome.outLen, outcome.output, outcome.tables⟩

end Sys2Proof.Machine
end

section
/-! SUPPORT. Errors (spec/60_exceptions.md R245 to R251): a command ends with an error of its check
phase, which leaves all but completion state as it was, or with one of its run phase; and what the
Host's accesses do to the report of an error. -/

namespace Sys2Proof.Machine

/-! ### The errors of the two phases (R246) -/

/-- An error as ERR_CODE and REASON show it. -/
def CmdError.pair (e : CmdError) : ErrCode × BitVec 4 := (e.code, e.reason)

/-- What the check phase of a command can raise, in the order of its checks. -/
def checkErrors : Instr → List (ErrCode × BitVec 4)
  | .nop => []
  | .clear => []
  | .freqCount => [(.range, 1#4)]
  | .treeBuild => [(.capacity, 2#4)]
  | .codeGen => [(.sequence, 1#4)]
  | .pack => [(.sequence, 2#4), (.range, 1#4), (.integrity, 1#4), (.capacity, 1#4)]
  | .unpack => [(.sequence, 2#4), (.range, 1#4), (.schema, 1#4), (.corrupt, 1#4), (.corrupt, 2#4)]
  | .encode => [(.range, 1#4)]
  | .decode =>
    [(.range, 1#4), (.schema, 2#4), (.corrupt, 1#4), (.corrupt, 2#4), (.capacity, 3#4)]

/-- What the run phase of a command can raise (R251). -/
def runErrors : Instr → List (ErrCode × BitVec 4)
  | .unpack => [(.corrupt, 4#4), (.capacity, 1#4), (.corrupt, 3#4)]
  | .encode => [(.capacity, 1#4)]
  | .decode => [(.corrupt, 6#4), (.corrupt, 4#4), (.corrupt, 3#4), (.corrupt, 5#4)]
  | _ => []

/-- The check phase of a command; NOP and CLEAR have none. -/
def State.checkPhase (s : State) : Instr → Option CmdError
  | .nop => none
  | .clear => none
  | .freqCount => s.rangeCheck
  | .treeBuild => s.weightCheck
  | .codeGen => s.treeCheck
  | .pack => s.packCheck
  | .unpack => s.unpackCheck
  | .encode => s.rangeCheck
  | .decode => s.decodeCheck

/-! ### What each check raises -/

theorem rangeCheck_pair {s : State} {e : CmdError} (h : s.rangeCheck = some e) :
    e.pair = (.range, 1#4) := by
  obtain ⟨-, ⟨⟩⟩ := Option.ite_none_right_eq_some.mp h
  rfl

theorem weightCheck_pair {s : State} {e : CmdError} (h : s.weightCheck = some e) :
    e.pair = (.capacity, 2#4) := by
  obtain ⟨-, ⟨⟩⟩ := Option.ite_none_right_eq_some.mp h
  rfl

theorem treeCheck_pair {s : State} {e : CmdError} (h : s.treeCheck = some e) :
    e.pair = (.sequence, 1#4) := by
  obtain ⟨-, ⟨⟩⟩ := Option.ite_none_left_eq_some.mp h
  rfl

theorem codesCheck_pair {s : State} {e : CmdError} (h : s.codesCheck = some e) :
    e.pair = (.sequence, 2#4) := by
  obtain ⟨-, ⟨⟩⟩ := Option.ite_none_left_eq_some.mp h
  rfl

theorem integrityCheck_pair {s : State} {e : CmdError} (h : s.integrityCheck = some e) :
    e.pair = (.integrity, 1#4) := by
  obtain ⟨k, -, rfl⟩ := Option.map_eq_some_iff.mp h
  rfl

theorem packCapacityCheck_pair {s : State} {e : CmdError} (h : s.packCapacityCheck = some e) :
    e.pair = (.capacity, 1#4) := by
  obtain ⟨-, ⟨⟩⟩ := Option.ite_none_right_eq_some.mp h
  rfl

theorem headerCheck_pair {s : State} {e : CmdError} (h : s.headerCheck = some e) :
    e.pair = (.schema, 1#4) := by
  obtain ⟨-, ⟨⟩⟩ := Option.ite_none_right_eq_some.mp h
  rfl

theorem padCheck_pair {s : State} {o m : Nat} {e : CmdError} (h : s.padCheck o m = some e) :
    e.pair = (.corrupt, 1#4) ∨ e.pair = (.corrupt, 2#4) := by
  rw [State.padCheck] at h
  split_ifs at h <;> cases h
  · exact .inl rfl
  · exact .inr rfl

theorem containerCheck_pair {s : State} {e : CmdError} (h : s.containerCheck = some e) :
    e.pair = (.schema, 2#4) := by
  obtain ⟨-, ⟨⟩⟩ := Option.ite_none_right_eq_some.mp h
  rfl

theorem countCheck_pair {s : State} {e : CmdError} (h : s.countCheck = some e) :
    e.pair = (.capacity, 3#4) := by
  obtain ⟨-, ⟨⟩⟩ := Option.ite_none_right_eq_some.mp h
  rfl

/-- The error of a check phase is one of those listed for the command. -/
theorem checkPhase_pair {i : Instr} {s : State} {e : CmdError} (h : s.checkPhase i = some e) :
    e.pair ∈ checkErrors i := by
  cases i <;> simp only [State.checkPhase, reduceCtorEq] at h
  case freqCount => simp [checkErrors, rangeCheck_pair h]
  case treeBuild => simp [checkErrors, weightCheck_pair h]
  case codeGen => simp [checkErrors, treeCheck_pair h]
  case encode => simp [checkErrors, rangeCheck_pair h]
  case pack =>
    simp only [packCheck_eq, Option.or_eq_some_iff] at h
    obtain h | ⟨-, h | ⟨-, h | ⟨-, h⟩⟩⟩ := h
    · simp [checkErrors, codesCheck_pair h]
    · simp [checkErrors, rangeCheck_pair h]
    · simp [checkErrors, integrityCheck_pair h]
    · simp [checkErrors, packCapacityCheck_pair h]
  case unpack =>
    simp only [unpackCheck_eq, Option.or_eq_some_iff] at h
    obtain h | ⟨-, h | ⟨-, h | ⟨-, h⟩⟩⟩ := h
    · simp [checkErrors, codesCheck_pair h]
    · simp [checkErrors, rangeCheck_pair h]
    · simp [checkErrors, headerCheck_pair h]
    · obtain h | h := padCheck_pair h <;> simp [checkErrors, h]
  case decode =>
    simp only [decodeCheck_eq, Option.or_eq_some_iff] at h
    obtain h | ⟨-, h | ⟨-, h | ⟨-, h⟩⟩⟩ := h
    · simp [checkErrors, rangeCheck_pair h]
    · simp [checkErrors, containerCheck_pair h]
    · obtain h | h := padCheck_pair h <;> simp [checkErrors, h]
    · simp [checkErrors, countCheck_pair h]

/-- A command whose check phase raises e writes completion state only (R247). -/
theorem exec_of_checkPhase {i : Instr} {s : State} {e : CmdError} (h : s.checkPhase i = some e) :
    exec i s = .next (s.raise 0 e) := by
  cases i <;> simp only [State.checkPhase, reduceCtorEq] at h
  case freqCount => rw [exec, execFreqCount, h]
  case treeBuild => rw [exec, execTreeBuild, h]
  case codeGen => rw [exec, execCodeGen, h]
  case pack => exact exec_pack_of_check_some h
  case unpack => exact exec_unpack_of_check_some h
  case encode => rw [exec, execEncode, h]
  case decode => exact exec_decode_of_check_some h

/-! ### What each run phase raises -/

/-- A walk's end shows the walk's error, if there is one. -/
theorem finishWalk_report (s : State) (r : WalkResult) :
    (s.finishWalk r).errCode = .noError
      ∨ ∃ e, r.error = some e
        ∧ ((s.finishWalk r).errCode, (s.finishWalk r).errInfo.reason) = e.pair := by
  obtain ⟨out, error⟩ := r
  cases error with
  | none => exact .inl rfl
  | some e => exact .inr ⟨e, rfl, rfl⟩

/-- UNPACK's walk expects no number of symbols: neither SHORT nor TRAILING ends it. -/
theorem WalkStop.pair_unpack {cap : Nat} {r : WalkResult} (h : WalkStop none cap r) {e : CmdError}
    (he : r.error = some e) : e.pair ∈ runErrors .unpack := by
  cases h with
  | streamEnd cur d out =>
    cases cur with
    | none => cases he
    | some i =>
      cases he
      simp [runErrors, leftover, CmdError.pair]
  | trailing k enough => cases enough
  | deadEnd out k =>
    cases he
    simp [runErrors, Machine.deadEnd, CmdError.pair]
  | full =>
    cases he
    simp [runErrors, outputFull, CmdError.pair]

theorem countedEnd_pair {s : State} {n : Nat} {b : List Byte} {rest : Bits} {e : CmdError}
    (h : s.countedEnd n b rest = some e) : e.pair ∈ runErrors .decode := by
  rw [State.countedEnd] at h
  split_ifs at h <;> cases h <;> simp [runErrors, CmdError.pair, trailing, short, leftover, deadEnd]

/-- DECODE's walk expects no more symbols than OBUF holds: a full OBUF never ends it (R226). -/
theorem decodeWalk_pair {s : State} (counts : weightSum s.containerFreq ≤ s.params.bufBytes)
    {t : Bits} {e : CmdError}
    (he : (s.decodeReady.decodeStream (some (weightSum s.containerFreq)) t).error = some e) :
    e.pair ∈ runErrors .decode := by
  have tables := tablesOk_decodeReady counts
  obtain ⟨b, rest, split⟩ := tables.exists_countedSplit rfl (weightSum s.containerFreq) t
  rw [State.decodeStream, tables.walk_counted rfl (by simpa using counts) split] at he
  exact countedEnd_pair he

/-- Past its check phase a command succeeds or ends with an error listed for its run phase. -/
theorem runPhase_pair {i : Instr} {s t : State} (passed : s.checkPhase i = none)
    (h : exec i s = .next t) :
    t.errCode = .noError ∨ (t.errCode, t.errInfo.reason) ∈ runErrors i := by
  cases i <;> simp only [State.checkPhase] at passed
  case nop =>
    cases h
    exact .inl rfl
  case clear =>
    cases h
    exact .inl rfl
  case freqCount =>
    rw [exec, execFreqCount, passed] at h
    cases h
    exact .inl rfl
  case treeBuild =>
    rw [exec, execTreeBuild, passed] at h
    cases h
    exact .inl rfl
  case codeGen =>
    rw [exec, execCodeGen, passed] at h
    cases h
    exact .inl rfl
  case pack =>
    rw [exec_pack_of_check_none passed] at h
    cases h
    exact .inl rfl
  case unpack =>
    rw [exec, execUnpack, passed] at h
    cases h
    obtain ok | ⟨e, he, pair⟩ := finishWalk_report s.unpackReady
      (s.unpackReady.decodeStream none (s.payloadStream 0 (s.inputLen - 1)))
    · exact .inl ok
    · exact .inr (pair ▸ (walk_stops _ _ _ _ _ _ _ _).pair_unpack he)
  case encode =>
    rw [rangeCheck_eq_none] at passed
    obtain full | fits := Nat.lt_or_ge s.params.bufBytes s.containerLen
    · rw [exec_encode_of_full passed full] at h
      cases h
      exact .inr (List.mem_singleton.mpr rfl)
    · rw [exec_encode_of_fits passed fits] at h
      cases h
      exact .inl rfl
  case decode =>
    obtain ⟨-, -, -, counts⟩ := (decodeCheck_eq_none s).mp passed
    rw [exec_decode_of_check_none passed] at h
    cases h
    obtain ok | ⟨e, he, pair⟩ := finishWalk_report s.decodeReady
      (s.decodeReady.decodeStream (some (weightSum s.containerFreq))
        (s.payloadStream 1024 (s.inputLen - 1025)))
    · exact .inl ok
    · exact .inr (pair ▸ decodeWalk_pair counts he)

/-- The two ways a command ends with an error (R247, R251). -/
theorem exec_error_cases {i : Instr} {s t : State} (h : exec i s = .next t)
    (err : t.errCode ≠ .noError) :
    ((t.errCode, t.errInfo.reason) ∈ checkErrors i ∧ t = s.completed 0#32 t.errCode t.errInfo)
      ∨ (t.errCode, t.errInfo.reason) ∈ runErrors i := by
  cases check : s.checkPhase i with
  | none => exact .inr ((runPhase_pair check h).resolve_left err)
  | some e =>
    rw [exec_of_checkPhase check] at h
    cases h
    exact .inl ⟨checkPhase_pair check, rfl⟩

/-- Settles O9: the errors of a command are those of its check phase, then those of its run phase. -/
theorem errorReasonsPerCommand : Obligations.ErrorReasonsPerCommand := by
  intro i s t h err
  have listed : (t.errCode, t.errInfo.reason) ∈ checkErrors i ++ runErrors i :=
    List.mem_append.mpr ((exec_error_cases h err).imp_left And.left)
  cases i <;> exact listed

/-- A run phase raises CAPACITY(1) or a CORRUPT of the stream's contents. -/
theorem eq_of_mem_runErrors {i : Instr} {code : ErrCode} {reason : BitVec 4}
    (h : (code, reason) ∈ runErrors i) :
    (code = .capacity ∧ reason = 1#4) ∨ (code = .corrupt ∧ reason ≠ 1#4 ∧ reason ≠ 2#4) := by
  have all : ∀ p ∈ runErrors i,
      (p.1 = .capacity ∧ p.2 = 1#4) ∨ (p.1 = .corrupt ∧ p.2 ≠ 1#4 ∧ p.2 ≠ 2#4) := by
    cases i <;> decide
  exact all _ h

/-- Settles O10: no run phase raises such an error. -/
theorem checkPhaseErrorsChangeNothing : Obligations.CheckPhaseErrorsChangeNothing := by
  intro i s t h checked
  have err : t.errCode ≠ .noError := by
    intro ok
    simp [ok] at checked
  obtain ⟨-, unchanged⟩ | run := exec_error_cases h err
  · exact unchanged
  · obtain ⟨code, reason⟩ | ⟨code, ne1, ne2⟩ := eq_of_mem_runErrors run
    · simp [code, reason] at checked
    · simp [code, ne1, ne2] at checked

/-! ### The report under the Host's accesses (R249) -/

/-- ERR_INFO and OUT_LEN stand; ERR_CODE stands, or a command was accepted. -/
structure KeepsReport (s t : State) : Prop where
  errInfo : t.errInfo = s.errInfo
  outLen : t.outLen = s.outLen
  errCode : t.errCode = s.errCode ∨ (t.errCode = .noError ∧ s.phase = .idle ∧ t.busy = true)

theorem keepsReport_idleWrite {s : State} (idle : s.busy = false) (l : Loc) (v : Word) :
    KeepsReport s (s.idleWrite l v) := by
  cases l
  case cmd => exact ⟨rfl, rfl, .inr ⟨rfl, phase_eq_idle idle, rfl⟩⟩
  all_goals exact ⟨rfl, rfl, .inl rfl⟩

theorem keepsReport_hostAccess (s : State) (a : Access) : KeepsReport s (s.hostAccess a).1 := by
  obtain h | h | ⟨l, v, -, -, -, ⟨-, h⟩ | ⟨idle, h⟩⟩ := hostAccess_cases s a <;> rw [h]
  · exact ⟨rfl, rfl, .inl rfl⟩
  · exact ⟨rfl, rfl, .inl rfl⟩
  · rw [busyWrite_frame]
    exact ⟨rfl, rfl, .inl rfl⟩
  · exact keepsReport_idleWrite idle l v

theorem keepsReport_hostTurn (s : State) : KeepsReport s s.hostTurn := by
  cases hp : s.program with
  | nil =>
    rw [hostTurn_of_nil hp]
    exact ⟨rfl, rfl, .inl rfl⟩
  | cons st prog =>
    obtain ⟨errInfo, outLen, errCode⟩ := keepsReport_hostAccess s st.toAccess
    rw [hostTurn_of_cons hp]
    exact ⟨errInfo, outLen, errCode⟩

/-- `ack` clears DONE and no register beside it (R97, R249). -/
theorem hostAccess_ackDone (s : State) :
    s.hostAccess ackDone.toAccess = (s.acknowledge, .written) :=
  statusAccess_write s 0x00000002#32

/-- Settles O55: the accesses of an acknowledgement and of a CMD write, the report under any other,
and what a completion keeps. -/
theorem errorStateOutlivesTheAcknowledgement :
    Obligations.ErrorStateOutlivesTheAcknowledgement := by
  intro s
  obtain ⟨errInfo, outLen, errCode⟩ := keepsReport_hostTurn s
  refine ⟨fun prog hprog => ?_, errInfo, outLen, errCode.resolve_left, fun v prog hp hprog => ?_,
    fun v t hp hc => ?_⟩
  · rw [hostTurn_of_cons hprog, hostAccess_ackDone]
    simp [State.acknowledge, State.irq]
  · rw [hostTurn_of_cons hprog, hostAccess_cmd_idle hp]
    simp [State.irq]
  · obtain ⟨u, n, hrun, hc⟩ := coreTurn_completes (busy_eq_true hp) hc
    exact (hrun.sameInputs.trans hc.sameInputs).ie

end Sys2Proof.Machine
end

section
/-! SUPPORT. The hardware reset and the states runs reach (spec/70_reset_and_hazards.md R270,
spec/10_state.md R37) -/

namespace Sys2Proof.Machine

/-! ### Reachable states -/

/-- The three invariants together. -/
def Invariants (s : State) : Prop := MemoryOk s ∧ TablesOk s ∧ ControlOk s

theorem invariants_hardReset (s : State) (d : Draws) : Invariants (s.hardReset d) :=
  ⟨memoryOk_hardReset s d, tablesOk_of_stale rfl rfl, controlOk_hardReset s d⟩

theorem Invariants.step {s t : State} (hs : Invariants s) (h : step s = .next t) : Invariants t := by
  obtain ⟨memory, tables, control⟩ := hs
  exact ⟨everyStepKeepsMemoryOk s t memory h, everyStepKeepsTablesOk s t tables h,
    everyStepKeepsControlOk s t control h⟩

theorem Reachable.invariants {s : State} (h : Reachable s) : Invariants s := by
  induction h with
  | start p d prog sched => exact invariants_hardReset _ d
  | step hs h ih => exact ih.step h

/-- Settles O42: a run starts from a hardware reset, and every step keeps the invariants. -/
theorem reachableStatesAreOk : Obligations.ReachableStatesAreOk :=
  ⟨fun p d prog sched => (Reachable.start p d prog sched).invariants, fun _ => Reachable.invariants⟩

/-! ### The reset state (R270) -/

theorem step_of_reset {s : State} {d : Draws} {rest : List Turn}
    (h : s.schedule = .reset d :: rest) :
    step s = .next (State.hardReset { s with schedule := rest } d) := by
  simp only [step, State.takeTurn, h]

/-- The registers whose reset value is 0. -/
def zeroAtReset : List Loc :=
  [.ctrl, .status, .cmd, .inLen, .outLen, .errInfo, .symCount, .root, .totalBits, .padCount,
    .totalWeight]

theorem idleRead_reset : ∀ l ∈ zeroAtReset, State.reset.idleRead l = 0#32 := by decide

/-- The reset input brings storage only: these registers read as in `State.reset`. -/
theorem idleRead_hardReset (s : State) (d : Draws) :
    ∀ l ∈ zeroAtReset, (s.hardReset d).idleRead l = State.reset.idleRead l := by
  simp only [zeroAtReset, List.forall_mem_cons, List.not_mem_nil, false_imp_iff, implies_true,
    and_true]
  exact ⟨rfl, rfl, rfl, rfl, rfl, rfl, rfl, rfl, rfl, rfl, rfl⟩

/-- A buffer drawn in full reads as the draw. -/
theorem Memory.read_drawn {bs : List Byte} {cap : Nat} (full : bs.length = cap) {k : Nat}
    (hk : k < bs.length) : Memory.read (Memory.writeBytes [] 0 (bs.take cap)) k = bs[k] := by
  rw [List.take_of_length_le full.le, Memory.read_writeBytes [] 0 bs k Memory.wf_nil,
    if_pos ⟨Nat.zero_le k, by omega⟩, Nat.sub_zero, List.getD_eq_getElem bs 0#8 hk]

/-- Settles O56: the reset turn is `hardReset`, whose registers are those of `State.reset`. -/
theorem hardwareResetState : Obligations.HardwareResetState := by
  intro s d rest hs hibuf hobuf
  refine ⟨State.hardReset { s with schedule := rest } d, step_of_reset hs, fun u hu => ?_, rfl, rfl,
    rfl, rfl, rfl, rfl, fun _ => Memory.read_drawn hibuf, fun _ => Memory.read_drawn hobuf, rfl, rfl,
    rfl⟩
  simp only [List.mem_cons, List.not_mem_nil, or_false] at hu
  obtain rfl | rfl := hu
  · exact ⟨rfl, fun l hl => (idleRead_hardReset _ d l hl).trans (idleRead_reset l hl), rfl, rfl⟩
  · exact ⟨rfl, idleRead_reset, rfl, rfl⟩

end Sys2Proof.Machine
end
